-- ==== Sys2Proof/Word.lean ====
section
/-! DEFINITION. The word types of the unit: 32-bit words of the window, 16-bit elements, 8×8 matrices, and the names of the banks.
Rules R9 and R10 of spec/00_scope.md. -/

namespace Sys2Proof

/-- A 32-bit word of the window; also the pattern of an f32 element (R9, R61, R120). -/
abbrev Word := BitVec 32

/-- The 16-bit pattern of an i16 element (R9, R23). -/
abbrev Half := BitVec 16

/-- An 8×8 matrix, or a 64-element sequence, held by its linear index k = 8·i + j (R10). -/
abbrev Mat (α : Type) := Vector α 64

/-- The offset of a port transaction, as a number in 0..1023 of 32-bit words (R61, R71): byte offset 4·a.
A misaligned or sub-word access cannot be formed. -/
abbrev WordOffset := Fin 1024

/-- The seven banks of R20. -/
inductive BankId where
  | pb | cb | qm | qb | zs | rlv | rlc
deriving DecidableEq, Repr

end Sys2Proof
end

