-- ==== Sys2Proof/Syntax.lean ====
section
/-! DEFINITION. The thirteen commands of BCU 1.0, one constructor per row of spec/opcode_table.json
(rule R94 of spec/30_encoding.md). -/

namespace Sys2Proof

/-- A command. No command names an operand but QBUILDI, whose immediate is the 16-bit field imm16 (R93). -/
inductive Instr where
  /-- FDCT, R130 -/
  | fdct
  /-- IDCT, R131 -/
  | idct
  /-- QBUILD, R155 -/
  | qbuild
  /-- QBUILDI imm16, R156 -/
  | qbuildi (imm : Half)
  /-- QUANT, R157 -/
  | quant
  /-- DEQUANT, R158 -/
  | dequant
  /-- ZSCAN, R183 -/
  | zscan
  /-- ZUNSCAN, R184 -/
  | zunscan
  /-- RLENC, R199 -/
  | rlenc
  /-- RLDEC, R200 -/
  | rldec
  /-- RLDECB, R201 -/
  | rldecb
  /-- ENCBLK, R221 -/
  | encblk
  /-- DECBLK, R222 -/
  | decblk
deriving DecidableEq, Repr

/-- The two command formats (R91, R92). -/
inductive Format where
  /-- no operand: the whole word is fixed -/
  | c0
  /-- one 16-bit immediate in bits 31:16 -/
  | ci
deriving DecidableEq, Repr

/-- The format column of R94. -/
def Instr.format : Instr → Format
  | .fdct => .c0
  | .idct => .c0
  | .qbuild => .c0
  | .qbuildi _ => .ci
  | .quant => .c0
  | .dequant => .c0
  | .zscan => .c0
  | .zunscan => .c0
  | .rlenc => .c0
  | .rldec => .c0
  | .rldecb => .c0
  | .encblk => .c0
  | .decblk => .c0

/-- The five families of R2. -/
inductive Family where
  | transform | quantizer | zigzag | runLength | fused
deriving DecidableEq, Repr

/-- The family of a command: the high hex digit of its opcode (R2, R94). -/
def Instr.family : Instr → Family
  | .fdct => .transform
  | .idct => .transform
  | .qbuild => .quantizer
  | .qbuildi _ => .quantizer
  | .quant => .quantizer
  | .dequant => .quantizer
  | .zscan => .zigzag
  | .zunscan => .zigzag
  | .rlenc => .runLength
  | .rldec => .runLength
  | .rldecb => .runLength
  | .encblk => .fused
  | .decblk => .fused

end Sys2Proof
end

