-- ==== Sys2Proof/Assembly.lean ====
section
/-! DEFINITION. The assembler's view of a command and the host's program lines, as syntax trees
(rules R99 to R101 of spec/30_encoding.md). What they assemble and expand to is in Machine/HostProgram.lean. -/

namespace Sys2Proof

/-- One command line of the assembler (R99). -/
inductive AsmCommand where
  /-- a mnemonic with no operand; well formed for the twelve C0 commands only -/
  | plain (i : Instr)
  /-- `QBUILDI n` with the integer n as written -/
  | qbuildi (n : Int)
deriving DecidableEq, Repr

/-- An operand word of a host line (R100). -/
inductive Operand where
  /-- a word in hex -/
  | word (w : Word)
  /-- `f32(r)`: the binary32 pattern RN32 of that decimal -/
  | f32 (r : Rat)
  /-- `i16(n)`: zext_32(enc16(n)) -/
  | i16 (n : Int)
deriving DecidableEq, Repr

/-- One line of a host program: the two transactions (R100) and the pseudo-instructions (R101). Offsets are byte offsets. -/
inductive HostLine where
  /-- `WR offset, word` -/
  | wr (offset : Nat) (v : Operand)
  /-- `RD offset` -/
  | rd (offset : Nat)
  /-- `CMD command` -/
  | cmd (c : AsmCommand)
  /-- `WAIT` -/
  | wait
  /-- `RUN command` -/
  | run (c : AsmCommand)
  /-- `CLRF mask` -/
  | clrf (mask : Word)
  /-- `LD bank, v0, ..., v63` -/
  | ld (b : BankId) (vs : List Operand)
  /-- `LDN bank, n, v0, ..., v(n-1)` -/
  | ldn (b : BankId) (n : Nat) (vs : List Operand)
  /-- `SETFACTOR n` -/
  | setFactor (n : Int)
deriving DecidableEq, Repr

end Sys2Proof
end

