-- ==== Sys2Proof/WellFormed.lean ====
section
/-! DEFINITION. Well-formedness. A command as the unit sees it has no ill-formed value: its one operand is a 16-bit
field in which any pattern is legal (R92). The checks are the assembler's, on lines and operands
(R60, R61, R99 to R101 of spec/20_memory.md and spec/30_encoding.md). -/

namespace Sys2Proof

/-- Every command is well formed (R91, R92): the immediate's type is the encoding's field. -/
def Instr.wf : Instr → Bool
  | .fdct => true
  | .idct => true
  | .qbuild => true
  | .qbuildi _ => true
  | .quant => true
  | .dequant => true
  | .zscan => true
  | .zunscan => true
  | .rlenc => true
  | .rldec => true
  | .rldecb => true
  | .encblk => true
  | .decblk => true

/-- R99: the twelve C0 mnemonics take no operand; QBUILDI's integer must be in [-32768, 32767],
"otherwise the assembler rejects the line". -/
def AsmCommand.wf : AsmCommand → Bool
  | .plain i => i.format == .c0
  | .qbuildi n => decide (-32768 ≤ n) && decide (n ≤ 32767)

/-- R9, R100: enc16 is given for integers in [-32768, 32767]; a word and a decimal are always legal. -/
def Operand.wf : Operand → Bool
  | .word _ => true
  | .f32 _ => true
  | .i16 n => decide (-32768 ≤ n) && decide (n ≤ 32767)

/-- R61: an offset is a multiple of 4 in 0x000..0xFFC. -/
def offsetOk (a : Nat) : Bool := a % 4 == 0 && decide (a < 4096)

/-- R100, R101: aligned offsets inside the window, legal operands, 64 values for LD, n ≤ 64 values for LDN, a signed
32-bit factor. -/
def HostLine.wf : HostLine → Bool
  | .wr a v => offsetOk a && v.wf
  | .rd a => offsetOk a
  | .cmd c => c.wf
  | .wait => true
  | .run c => c.wf
  | .clrf _ => true
  | .ld _ vs => vs.length == 64 && vs.all Operand.wf
  | .ldn _ n vs => vs.length == n && decide (n ≤ 64) && vs.all Operand.wf
  | .setFactor n => decide (-2147483648 ≤ n) && decide (n ≤ 2147483647)

end Sys2Proof
end

