-- ==== Sys2Proof/Decode.lean ====
section
/-! DEFINITION. The decoder of rule R95, total on all 2^32 words and rejecting by name, and the encoder written from
the same table (rules R91 to R95 of spec/30_encoding.md). -/

namespace Sys2Proof

/-- Why a word is an illegal command (R95, R96). The unit itself reports E_ILLCMD for all three (R98). -/
inductive Illegal where
  /-- the field `zero`, bits 15:8, is not 0x00 -/
  | zeroField
  /-- the field `imm16`, bits 31:16, is not 0x0000 and the opcode is not QBUILDI's -/
  | immField
  /-- the opcode, bits 7:0, is not in R94 -/
  | opcode
deriving DecidableEq, Repr

/-- The field `op` = w[7:0] (R91). -/
def opField (w : Word) : BitVec 8 := w.extractLsb' 0 8

/-- The field `zero` = w[15:8] (R91). -/
def zeroField (w : Word) : BitVec 8 := w.extractLsb' 8 8

/-- The field `imm16` = w[31:16] (R91, R93). -/
def immField (w : Word) : Half := w.extractLsb' 16 16

/-- The opcode column of R94 for the twelve C0 commands, in the table's order. -/
def c0Table : List (BitVec 8 × Instr) :=
  [(0x01#8, .fdct), (0x02#8, .idct), (0x10#8, .qbuild), (0x12#8, .quant), (0x13#8, .dequant), (0x20#8, .zscan),
   (0x21#8, .zunscan), (0x30#8, .rlenc), (0x31#8, .rldec), (0x32#8, .rldecb), (0x40#8, .encblk), (0x41#8, .decblk)]

/-- The decoding procedure of R95. -/
def decode (w : Word) : Except Illegal Instr :=
  if zeroField w ≠ 0#8 then .error .zeroField
  else if opField w = 0x11#8 then .ok (.qbuildi (immField w))
  else if immField w ≠ 0#16 then .error .immField
  else
    match c0Table.lookup (opField w) with
    | some i => .ok i
    | none => .error .opcode

/-- The opcode column of R94. -/
def Instr.opcode : Instr → BitVec 8
  | .fdct => 0x01#8
  | .idct => 0x02#8
  | .qbuild => 0x10#8
  | .qbuildi _ => 0x11#8
  | .quant => 0x12#8
  | .dequant => 0x13#8
  | .zscan => 0x20#8
  | .zunscan => 0x21#8
  | .rlenc => 0x30#8
  | .rldec => 0x31#8
  | .rldecb => 0x32#8
  | .encblk => 0x40#8
  | .decblk => 0x41#8

/-- The field imm16 of a command's word: the immediate of QBUILDI, zero for format C0 (R91, R92). -/
def Instr.imm16 : Instr → Half
  | .qbuildi imm => imm
  | .fdct => 0#16
  | .idct => 0#16
  | .qbuild => 0#16
  | .quant => 0#16
  | .dequant => 0#16
  | .zscan => 0#16
  | .zunscan => 0#16
  | .rlenc => 0#16
  | .rldec => 0#16
  | .rldecb => 0#16
  | .encblk => 0#16
  | .decblk => 0#16

/-- The word of a command: imm16 ++ 0x00 ++ op (R91, R92). -/
def encode (i : Instr) : Word := i.imm16 ++ 0#8 ++ i.opcode

/-- The host's question: the command the decoder reads from a word given as a number whose bits from nbits up are 0.
Bit 0 is bit 0 of the word (R9, R90). -/
def decodeTableWord (nbits w : Nat) : Option Instr :=
  match decode (BitVec.ofNat 32 (w % 2 ^ nbits)) with
  | .ok i => some i
  | .error _ => none

end Sys2Proof
end

