-- ==== Sys2Proof/Config.lean ====
section
/-! DEFINITION. What an implementation fixes (the parameters of rule R7 of spec/00_scope.md) and the free values:
opaque constants with no body, so that no proof can see what they are. -/

namespace Sys2Proof

/-- The two candidate tie rules of the parameter RND (R7, R153). -/
inductive TieRule where
  /-- ties to the even integer -/
  | rne
  /-- ties away from zero -/
  | rha
deriving DecidableEq, Repr

/-- The parameter NUM of R124: the arithmetic of the transform, two functions from 64 f32 patterns to 64. -/
structure Num where
  fdct : Mat Word → Mat Word
  idct : Mat Word → Mat Word

/-- The parameters the source leaves open (R7). BCU 1.0's record is `Sys2Proof.Machine.bcu`. -/
structure Config where
  /-- the base quantization table QBASE (R151), element [i,j] at 8·i + j -/
  qbase : Mat Word
  /-- the zigzag permutation: position k of the sequence holds matrix element zz[k] (R180) -/
  zz : Vector (Fin 8 × Fin 8) 64
  /-- the tie rule of RND (R153) -/
  rnd : TieRule
  /-- the transform arithmetic (R124) -/
  num : Num
  /-- the tolerance of the transform law P-RT (R125) -/
  tolRT : Rat

/-- Free value (R151, U10): the open 8×8 base table, element k = 8·i + j. `Sys2Proof.Machine.qbaseOpen` keeps of it
what the named properties Q-FIN, Q-MIN and Q-MAX admit. Log entry 1. -/
opaque Config.qbaseRaw : Nat → BitVec 32

/-- Free value (R29, R42, R282, U1): the pattern that an element holds after reset and before anything has written it.
Arguments: which reset (the counter `State.freeCount` at that reset), which bank, which element. Log entry 2. -/
opaque Config.powerOn : Nat → Nat → Nat → BitVec 32

/-- Free value (R42, U3): the content of CMDW after reset. Argument: which reset. Log entry 3. -/
opaque Config.powerOnCmdw : Nat → BitVec 32

/-- Free value (R62 case 2, R67, U2): the data that a read refused while BUSY = 1 returns.
Argument: the counter `State.freeCount` at that read. Log entry 4. -/
opaque Config.refusedRead : Nat → BitVec 32

/-- Free value (R12, R120): `val` is given for finite patterns only; what it is of a NaN or an infinity. Log entry 5. -/
opaque Config.nonFiniteVal : BitVec 32 → Rat

/-- Free value (R154): q1 is given for divisors of at least 11; the quotient by a zero divisor. Log entry 5. -/
opaque Config.divByZero : BitVec 32 → Rat

end Sys2Proof
end

