-- ==== Sys2Proof/Machine/State.lean ====
section
/-! DEFINITION. The state of the unit (spec/10_state.md), the agents' schedule and the model's own counters, as plain
data; the reasons a step can stop; reset (R42, R280). -/

namespace Sys2Proof.Machine

/-- The fault codes of R241, in order of their priority. E_ILLCMD is the code of an illegal word (R98). -/
inductive ErrCode where
  /-- 1, E_ILLCMD: the command word is illegal -/
  | illcmd
  /-- 2, E_QMINV: FACTOR = 0 -/
  | qminv
  /-- 3, E_LEN: a length register exceeds 64 -/
  | len
  /-- 4, E_ZLEN: ZLEN is not 64 at ZUNSCAN -/
  | zlen
  /-- 5, E_RLOVF: the run-lengths sum to more than 64 at RLDEC -/
  | rlovf
  /-- 6, E_RUNSUM: the run-lengths do not sum to 64 at a block decode -/
  | runsum
  /-- 7, E_NONFIN: an operand is not a finite float (QUANT: is a NaN) -/
  | nonfin
deriving DecidableEq, Repr

/-- STATUS (R33), by its fields: the reserved bits 7:5 and 31:12 are not storage, they read 0 (U6). -/
structure Status where
  busy : Bool
  done : Bool
  err : Bool
  qsat : Bool
  herr : Bool
  ecode : BitVec 4
deriving DecidableEq, Repr

/-- CTRL (R34), by its fields: the reserved bits 31:2 are not storage. -/
structure Ctrl where
  ieDone : Bool
  ieErr : Bool
deriving DecidableEq, Repr

/-- One bank of 64 elements of n bits (R20). `written` is the mark of R282 and U1: the host or a command has written
the element since the last reset. It is bookkeeping of the model: no unit behaviour depends on it (R29). -/
structure Bank (n : Nat) where
  data : Vector (BitVec n) 64
  written : Vector Bool 64
deriving DecidableEq, Repr

/-- One step of one of the agents of R8: the host's two transactions, the core's completion, reset (R295). -/
inductive Event where
  /-- MemRead(4·a, 4) -/
  | read (a : WordOffset)
  /-- MemWrite(4·a, 4, d) -/
  | write (a : WordOffset) (d : Word)
  /-- the core's completion step, if it is enabled -/
  | core
  /-- reset -/
  | reset
deriving DecidableEq, Repr

/-- Everything the spec gives the unit, and beside it the three fields of the model's own that say what the agents do:
`schedule`, `reply`, `freeCount`. -/
structure State where
  /-- CMDW, the latched command word (R40) -/
  cmdw : Word
  /-- STATUS (R33) -/
  status : Status
  /-- CTRL (R34) -/
  ctrl : Ctrl
  /-- FACTIN (R36) -/
  factin : Word
  /-- FACTOR bits 3:0 (R37) -/
  factor : BitVec 4
  /-- ZLEN (R38) -/
  zlen : Word
  /-- RLN (R39) -/
  rln : Word
  /-- PB (R21) -/
  pb : Bank 32
  /-- CB (R22) -/
  cb : Bank 32
  /-- QM (R26) -/
  qm : Bank 32
  /-- QB (R23) -/
  qb : Bank 16
  /-- ZS (R24) -/
  zs : Bank 16
  /-- RLV (R25) -/
  rlv : Bank 16
  /-- RLC (R25) -/
  rlc : Bank 32
  /-- the model's own: the agents' steps still to come, the next one first (R8, R295) -/
  schedule : List Event
  /-- the model's own: the word the latest MemRead returned to the host (R61) -/
  reply : Option Word
  /-- the model's own: how many free values have been used up -/
  freeCount : Nat
deriving DecidableEq, Repr

/-- Reasons for a fault of the MODEL: there is none, every step of the unit has a next state. A command fault of the
unit (R240) is a next state with STATUS.ERR set. -/
inductive Fault
deriving DecidableEq, Repr

/-- Reasons for a refusal. -/
inductive Refusal where
  /-- raised by an arm of `exec` whose instruction has no meaning yet; safe. No arm raises it. -/
  | notModelled (mnemonic : String)
deriving DecidableEq, Repr

/-- The content of a bank after the reset numbered g: every element unspecified (R29, R42), a free value, and every
mark cleared (R282). -/
def Bank.afterReset (n g bank : Nat) : Bank n :=
  { data := Vector.ofFn fun k => (Config.powerOn g bank k.val).setWidth n
    written := Vector.replicate 64 false }

/-- The reset state of R42, for the reset numbered g; idle, nothing scheduled. -/
def State.resetAt (g : Nat) : State :=
  { cmdw := Config.powerOnCmdw g
    status := { busy := false, done := false, err := false, qsat := false, herr := false, ecode := 0#4 }
    ctrl := { ieDone := false, ieErr := false }
    factin := 5#32
    factor := 0#4
    zlen := 0#32
    rln := 0#32
    pb := Bank.afterReset 32 g 0
    cb := Bank.afterReset 32 g 1
    qm := Bank.afterReset 32 g 2
    qb := Bank.afterReset 16 g 3
    zs := Bank.afterReset 16 g 4
    rlv := Bank.afterReset 16 g 5
    rlc := Bank.afterReset 32 g 6
    schedule := []
    reply := none
    freeCount := g }

/-- The unit right after power-up, which is a reset (R280). -/
def State.reset : State := State.resetAt 0

end Sys2Proof.Machine
end

