-- ==== Sys2Proof/Machine/Operands.lean ====
section
/-! DEFINITION. Bit and integer conversions (R9), the element [i,j] of a matrix (R10), and binary32 (R120, R121) with
the rounding RND and the clamps (R152, R153, R12): every operand form of the commands. -/

namespace Sys2Proof.Machine

/-! ### Words and integers (R9) -/

/-- `sext_32` of a 16-bit pattern. -/
def sext32 (h : Half) : Word := h.signExtend 32

/-- Bits [15:0] of a word. -/
def low16 (w : Word) : Half := w.extractLsb' 0 16

/-- `s16`, the signed value. -/
def s16 (h : Half) : Int := h.toInt

/-- `s32`, the signed value. -/
def s32 (w : Word) : Int := w.toInt

/-- `u32`, the unsigned value. -/
def u32 (w : Word) : Nat := w.toNat

/-- `enc16`, the two's complement pattern of an integer in [-32768, 32767]. -/
def enc16 (n : Int) : Half := BitVec.ofInt 16 n

/-- The byte n of a word in the little-endian order of R66: bits [8n+7 : 8n]. -/
def byteOf (w : Word) (n : Fin 4) : BitVec 8 := w.extractLsb' (8 * n.val) 8

/-! ### Matrices (R10) -/

/-- The linear index 8·i + j. -/
def linear (i j : Fin 8) : Fin 64 := ⟨8 * i.val + j.val, by omega⟩

/-- Element [i,j]. -/
def entry {α : Type} (m : Mat α) (i j : Fin 8) : α := m[linear i j]

/-- The matrix whose element [i,j] is f i j. -/
def tabulate {α : Type} (f : Fin 8 → Fin 8 → α) : Mat α :=
  Vector.ofFn fun k => f ⟨k.val / 8, by omega⟩ ⟨k.val % 8, by omega⟩

/-- Some element satisfies p. -/
def someElem {α : Type} (p : α → Bool) (m : Mat α) : Bool :=
  (List.finRange 64).any fun k => p m[k]

/-! ### binary32 (R120, R121) -/

/-- The sign s = w[31]. -/
def f32Sign (w : Word) : Bool := w.msb

/-- The biased exponent e = w[30:23]. -/
def f32Exp (w : Word) : Nat := (w.extractLsb' 23 8).toNat

/-- The fraction m = w[22:0]. -/
def f32Frac (w : Word) : Nat := (w.extractLsb' 0 23).toNat

/-- e = 255 and m ≠ 0. -/
def isNaN (w : Word) : Bool := f32Exp w == 255 && f32Frac w != 0

/-- e = 255 and m = 0. -/
def isInf (w : Word) : Bool := f32Exp w == 255 && f32Frac w == 0

/-- Neither a NaN nor an infinity. -/
def isFinite (w : Word) : Bool := f32Exp w != 255

/-- The magnitude of a finite pattern in units of 2^-149: m for e = 0, (2^23 + m)·2^(e-1) otherwise. -/
def f32Mag (w : Word) : Nat :=
  if f32Exp w = 0 then f32Frac w else (2 ^ 23 + f32Frac w) * 2 ^ (f32Exp w - 1)

/-- `val(w)`, the value of a finite pattern (R120); a free value otherwise. -/
def val (w : Word) : Rat :=
  if isFinite w then mkRat (if f32Sign w then -(f32Mag w : Int) else (f32Mag w : Int)) (2 ^ 149)
  else Config.nonFiniteVal w

/-- The natural number nearest n/d (d > 0), a tie by the rule: the even one, or the larger one (R153, on magnitudes). -/
def roundMag (rule : TieRule) (n d : Nat) : Nat :=
  if 2 * (n % d) < d then n / d
  else if d < 2 * (n % d) then n / d + 1
  else
    match rule with
    | .rha => n / d + 1
    | .rne => if n / d % 2 = 0 then n / d else n / d + 1

/-- `RND(t)`: the integer nearest t, ties by the parameter RND (R153). -/
def rnd (rule : TieRule) (t : Rat) : Int :=
  if t.num < 0 then -(roundMag rule t.num.natAbs t.den : Int) else (roundMag rule t.num.natAbs t.den : Int)

/-- The integer e with 2^e ≤ n/d < 2^(e+1), for positive n and d. -/
def floorLog2 (n d : Nat) : Int :=
  let k : Int := (n.log2 : Int) - (d.log2 : Int)
  if d * 2 ^ k.toNat ≤ n * 2 ^ (-k).toNat then k else k - 1

/-- The magnitude pattern of RN32 for n/d > 0: the significand at the ulp 2^q with q = max(e - 23, -149), rounded to
nearest even, laid out so that a carry runs into the exponent; from 2^128 on, the infinity (R121). -/
def rn32Mag (n d : Nat) : Nat :=
  let q : Int := max (floorLog2 n d - 23) (-149)
  let m := roundMag .rne (n * 2 ^ (-q).toNat) (d * 2 ^ q.toNat)
  min ((q + 149).toNat * 2 ^ 23 + m) 0x7F800000

/-- `RN32(r)` (R121): +0 for 0, otherwise the sign of r and the rounded magnitude. -/
def rn32 (r : Rat) : Word :=
  if r.num = 0 then 0#32
  else if r.num < 0 then BitVec.ofNat 32 (0x80000000 + rn32Mag r.num.natAbs r.den)
  else BitVec.ofNat 32 (rn32Mag r.num.natAbs r.den)

/-! ### Clamps -/

/-- `clampf(n) = min(max(n, 1), 15)` (R152). -/
def clampf (n : Int) : Int := min (max n 1) 15

end Sys2Proof.Machine
end

