-- ==== Sys2Proof/Machine/Flags.lean ====
section
/-! DEFINITION. The flags: the STATUS and CTRL words, write-1-to-clear, the transitions of STATUS, the interrupt line
(R31, R33, R34 of spec/10_state.md; R241, R246 to R250 of spec/60_exceptions.md). -/

namespace Sys2Proof.Machine

/-- The ECODE of a fault (R241). -/
def ErrCode.code : ErrCode → BitVec 4
  | .illcmd => 1#4
  | .qminv => 2#4
  | .len => 3#4
  | .zlen => 4#4
  | .rlovf => 5#4
  | .runsum => 6#4
  | .nonfin => 7#4

/-- The STATUS word: ECODE at 11:8, HERR, QSAT, ERR, DONE, BUSY at 4 to 0, reserved bits 0 (R33). -/
def Status.word (s : Status) : Word :=
  0#20 ++ s.ecode ++ 0#3 ++ BitVec.ofBool s.herr ++ BitVec.ofBool s.qsat ++ BitVec.ofBool s.err
    ++ BitVec.ofBool s.done ++ BitVec.ofBool s.busy

/-- The CTRL word (R34). -/
def Ctrl.word (c : Ctrl) : Word := 0#30 ++ BitVec.ofBool c.ieErr ++ BitVec.ofBool c.ieDone

/-- A host write d to CTRL: bits 1:0 are stored, the others ignored (R34, R63). -/
def Ctrl.ofWord (d : Word) : Ctrl := { ieDone := d.getLsbD 0, ieErr := d.getLsbD 1 }

/-- A host write d to STATUS: each 1 in bits 1 to 4 clears its flag, ERR together with ECODE (R33, R248). -/
def Status.writeOneToClear (s : Status) (d : Word) : Status :=
  { s with
    done := s.done && !d.getLsbD 1
    err := s.err && !d.getLsbD 2
    ecode := if d.getLsbD 2 then 0#4 else s.ecode
    qsat := s.qsat && !d.getLsbD 3
    herr := s.herr && !d.getLsbD 4 }

/-- Acceptance of a command (R68). -/
def Status.onAccept (s : Status) : Status := { s with busy := true, done := false }

/-- Completion without fault (R249). -/
def Status.onSuccess (s : Status) : Status := { s with busy := false, done := true }

/-- Completion with fault (R246). -/
def Status.onFault (s : Status) (e : ErrCode) : Status := { s with busy := false, err := true, ecode := e.code }

/-- A transaction not honoured (R240, R67 to R70). -/
def Status.onRefused (s : Status) : Status := { s with herr := true }

/-- The report of a clamped coefficient: set if sat, never cleared (R157, R162). -/
def Status.onSaturate (s : Status) (sat : Bool) : Status := { s with qsat := s.qsat || sat }

/-- The interrupt output, a function of the state (R250). -/
def State.irq (s : State) : Bool := (s.status.done && s.ctrl.ieDone) || (s.status.err && s.ctrl.ieErr)

end Sys2Proof.Machine
end

