-- ==== Sys2Proof/Machine/Ops.lean ====
section
/-! DEFINITION. The named operations on banks, on the window and on the command in flight: the two port transactions
(R61 to R70 of spec/20_memory.md), acceptance, the end of a command, the fault entry and the return from it
(R246 to R249 of spec/60_exceptions.md). -/

namespace Sys2Proof.Machine

/-- What a step or a command answers. -/
abbrev Answer := Host.Outcome State Fault Refusal

/-! ### Banks -/

/-- Element k takes the pattern v. -/
def Bank.store {n : Nat} (b : Bank n) (k : Fin 64) (v : BitVec n) : Bank n :=
  { data := b.data.set k v, written := b.written.set k true }

/-- All 64 elements are written. -/
def Bank.fill {n : Nat} (v : Vector (BitVec n) 64) : Bank n :=
  { data := v, written := Vector.replicate 64 true }

/-- The first elements take the list's values; the elements from the list's length on keep what they held
(R199, R200, D28). -/
def Bank.fillPrefix {n : Nat} (b : Bank n) (vs : List (BitVec n)) : Bank n :=
  { data := Vector.ofFn fun k => vs.getD k.val b.data[k]
    written := Vector.ofFn fun k => decide (k.val < vs.length) || b.written[k] }

/-! ### The end of a command -/

/-- Success: STATUS.BUSY <- 0; STATUS.DONE <- 1 (R249). -/
def succeed (s : State) : State := { s with status := s.status.onSuccess }

/-- TAKING A FAULT (R246): STATUS.BUSY <- 0; STATUS.ERR <- 1; STATUS.ECODE <- code(E_X); nothing else. -/
def raiseFault (e : ErrCode) (s : State) : State := { s with status := s.status.onFault e }

/-- THE RETURN FROM A FAULT (R248): the host's write of STATUS with bit 2 set; nothing is restored. -/
def returnFromFault (s : State) : State := { s with status := s.status.writeOneToClear 4#32 }

/-- The completion of a command whose pseudocode gave r on the state s: a `raise` changes s by the fault entry alone,
otherwise all the command's writes and the success flags take effect together (R11, R296). -/
def complete (s : State) (r : Except ErrCode State) : Answer :=
  .next (match r with
    | .ok t => succeed t
    | .error e => raiseFault e s)

/-! ### The window (R60, R65) -/

/-- What stands at an offset of the window. -/
inductive Place where
  | cmd | status | ctrl | factin | factor | zlen | rln
  | reserved
  | elem (b : BankId) (k : Fin 64)
deriving DecidableEq, Repr

/-- The address map of R65, by word offset (byte offset divided by 4): sixteen pages of 64 words. -/
def placeAt (a : WordOffset) : Place :=
  let k : Fin 64 := ⟨a.val % 64, by omega⟩
  match a.val / 64 with
  | 0 =>
    match a.val with
    | 0 => .cmd
    | 1 => .status
    | 2 => .ctrl
    | 3 => .factin
    | 4 => .factor
    | 5 => .zlen
    | 6 => .rln
    | _ => .reserved
  | 1 => .elem .pb k
  | 2 => .elem .cb k
  | 3 => .elem .qm k
  | 4 => .elem .qb k
  | 5 => .elem .zs k
  | 6 => .elem .rlv k
  | 7 => .elem .rlc k
  | _ => .reserved

/-- The first byte offset of a bank (R20, R65). -/
def bankBase : BankId → Nat
  | .pb => 0x100
  | .cb => 0x200
  | .qm => 0x300
  | .qb => 0x400
  | .zs => 0x500
  | .rlv => 0x600
  | .rlc => 0x700

/-- The word of element k of a bank as the host reads it: 16-bit banks sign-extended (R62 case 4). -/
def elemWord (s : State) : BankId → Fin 64 → Word
  | .pb, k => s.pb.data[k]
  | .cb, k => s.cb.data[k]
  | .qm, k => s.qm.data[k]
  | .qb, k => sext32 s.qb.data[k]
  | .zs, k => sext32 s.zs.data[k]
  | .rlv, k => sext32 s.rlv.data[k]
  | .rlc, k => s.rlc.data[k]

/-- The mark of element k of a bank (R282, U1). -/
def elemWritten (s : State) : BankId → Fin 64 → Bool
  | .pb, k => s.pb.written[k]
  | .cb, k => s.cb.written[k]
  | .qm, k => s.qm.written[k]
  | .qb, k => s.qb.written[k]
  | .zs, k => s.zs.written[k]
  | .rlv, k => s.rlv.written[k]
  | .rlc, k => s.rlc.written[k]

/-- The word that stands at a place: CMD and reserved offsets read 0 (R35, R62, R70). -/
def placeWord (s : State) : Place → Word
  | .cmd => 0#32
  | .status => s.status.word
  | .ctrl => s.ctrl.word
  | .factin => s.factin
  | .factor => s.factor.setWidth 32
  | .zlen => s.zlen
  | .rln => s.rln
  | .reserved => 0#32
  | .elem b k => elemWord s b k

/-- The word at an offset, with no side effect. -/
def peek (s : State) (a : WordOffset) : Word := placeWord s (placeAt a)

/-- The byte at a byte offset of the window, in the little-endian order of R66. -/
def peekByte (s : State) (a : WordOffset) (n : Fin 4) : BitVec 8 := byteOf (peek s a) n

/-- Element k of a bank takes the written word d: 16-bit banks take bits [15:0] (R63 case 5). QM is read only to the
host (R69): no transaction reaches that arm. -/
def storeElem (s : State) (b : BankId) (k : Fin 64) (d : Word) : State :=
  match b with
  | .pb => { s with pb := s.pb.store k d }
  | .cb => { s with cb := s.cb.store k d }
  | .qm => s
  | .qb => { s with qb := s.qb.store k (low16 d) }
  | .zs => { s with zs := s.zs.store k (low16 d) }
  | .rlv => { s with rlv := s.rlv.store k (low16 d) }
  | .rlc => { s with rlc := s.rlc.store k d }

/-- HERR <- 1 and nothing else: a transaction not honoured. -/
def refuse (s : State) : State := { s with status := s.status.onRefused }

/-- Acceptance of the word d (R68): CMDW <- d; BUSY <- 1; DONE <- 0. -/
def accept (s : State) (d : Word) : State := { s with cmdw := d, status := s.status.onAccept }

/-- A write of CMD when BUSY = 0 (R68): refused while ERR = 1, accepted otherwise; d is not examined. -/
def writeCmd (s : State) (d : Word) : State := if s.status.err then refuse s else accept s d

/-- MemRead(4·a, 4) of R62: the returned word and the state it leaves. -/
def memRead (s : State) (a : WordOffset) : Word × State :=
  match placeAt a with
  | .status => (s.status.word, s)
  | .ctrl => (s.ctrl.word, s)
  | p =>
    if s.status.busy then (Config.refusedRead s.freeCount, { refuse s with freeCount := s.freeCount + 1 })
    else if p = .reserved then (0#32, refuse s)
    else (placeWord s p, s)

/-- The places a host write does not reach (R63 case 3): reserved offsets, FACTOR, QM. -/
def Place.readOnly : Place → Bool
  | .reserved => true
  | .factor => true
  | .elem .qm _ => true
  | _ => false

/-- A write that R63 cases 4 and 5 perform. -/
def writePlace (s : State) (p : Place) (d : Word) : State :=
  match p with
  | .cmd => writeCmd s d
  | .factin => { s with factin := d }
  | .zlen => { s with zlen := d }
  | .rln => { s with rln := d }
  | .elem b k => storeElem s b k d
  | .status => s
  | .ctrl => s
  | .factor => s
  | .reserved => s

/-- MemWrite(4·a, 4, d) of R63. -/
def memWrite (s : State) (a : WordOffset) (d : Word) : State :=
  match placeAt a with
  | .status => { s with status := s.status.writeOneToClear d }
  | .ctrl => { s with ctrl := Ctrl.ofWord d }
  | p =>
    if s.status.busy then refuse s
    else if p.readOnly then refuse s
    else writePlace s p d

/-! ### The agents' steps other than completion (R295) -/

/-- The host reads: the returned word is its reply. -/
def hostRead (s : State) (a : WordOffset) : State := { (memRead s a).2 with reply := some (memRead s a).1 }

/-- Reset (R280): the whole state is replaced; what the other agents will do next is not the unit's to change. -/
def takeReset (s : State) : State := { State.resetAt (s.freeCount + 1) with schedule := s.schedule }

end Sys2Proof.Machine
end

