-- ==== Sys2Proof/Machine/Quantizer.lean ====
section
/-! DEFINITION. The quantizer family: QBUILD, QBUILDI, QUANT, DEQUANT (R150 to R163 of spec/41_quantizer.md). Every
operation is element-wise. -/

namespace Sys2Proof.Machine

/-- The element QM[i,j] for the clamped factor f: RN32(val(QBASE[i,j]) · f) (R155). -/
def scaledBase (c : Config) (f : Int) : Mat Word := Vector.ofFn fun k => rn32 (val c.qbase[k] * (f : Rat))

/-- The build of R155 and R156 for the requested factor n: f <- clampf(n), QM, FACTOR <- f. -/
def buildMatrix (c : Config) (n : Int) (s : State) : State :=
  { s with qm := Bank.fill (scaledBase c (clampf n)), factor := BitVec.ofInt 4 (clampf n) }

/-- The pseudocode of QBUILD (R155); it cannot fault. -/
def qbuild (c : Config) (s : State) : Except ErrCode State := .ok (buildMatrix c (s32 s.factin) s)

/-- The pseudocode of QBUILDI (R156); it cannot fault. -/
def qbuildi (c : Config) (imm : Half) (s : State) : Except ErrCode State := .ok (buildMatrix c (s16 imm) s)

/-- The real quotient val(c) / val(q) of R154; by a zero divisor, which no built matrix holds, a free value. -/
def quotient (c q : Word) : Rat := if val q = 0 then Config.divByZero c else val c / val q

/-- `q1(c, q)` of R154: the quantized integer and the saturation bit. -/
def q1 (rule : TieRule) (c q : Word) : Int × Bool :=
  if isInf c then (if f32Sign c then (-32768, true) else (32767, true))
  else
    let n := rnd rule (val (rn32 (quotient c q)))
    if n > 32767 then (32767, true)
    else if n < -32768 then (-32768, true)
    else (n, false)

/-- The quantized elements of a coefficient matrix by a quantization matrix (R157). -/
def quantized (rule : TieRule) (coef div : Mat Word) : Mat Half :=
  Vector.ofFn fun k => enc16 (q1 rule coef[k] div[k]).1

/-- Some element was clamped (R157). -/
def saturates (rule : TieRule) (coef div : Mat Word) : Bool :=
  (List.finRange 64).any fun k => (q1 rule coef[k] div[k]).2

/-- The pseudocode of QUANT (R157). -/
def quant (c : Config) (s : State) : Except ErrCode State :=
  if s.factor = 0#4 then .error .qminv
  else if someElem isNaN s.cb.data then .error .nonfin
  else .ok { s with
    qb := Bank.fill (quantized c.rnd s.cb.data s.qm.data)
    status := s.status.onSaturate (saturates c.rnd s.cb.data s.qm.data) }

/-- The elements RN32(s16(QB[u,v]) · val(QM[u,v])) of R158. -/
def dequantized (q : Mat Half) (div : Mat Word) : Mat Word :=
  Vector.ofFn fun k => rn32 ((s16 q[k] : Rat) * val div[k])

/-- The pseudocode of DEQUANT (R158). -/
def dequant (s : State) : Except ErrCode State :=
  if s.factor = 0#4 then .error .qminv
  else .ok { s with cb := Bank.fill (dequantized s.qb.data s.qm.data) }

end Sys2Proof.Machine
end

