-- ==== Sys2Proof/Machine/RunLength.lean ====
section
/-! DEFINITION. The run-length family: enc, dec, RLENC, RLDEC, RLDECB (R195 to R206 of spec/43_rle.md). -/

namespace Sys2Proof.Machine

/-- `enc(S)` of R196: maximal runs of identical adjacent values, left to right; values are 16-bit patterns. -/
def enc : List Half → List (Half × Nat)
  | [] => []
  | v :: rest =>
    match enc rest with
    | [] => [(v, 1)]
    | (w, c) :: runs => if v = w then (w, c + 1) :: runs else (v, 1) :: (w, c) :: runs

/-- `dec(L)` of R198: each value repeated by its run-length. -/
def dec : List (Half × Nat) → List Half
  | [] => []
  | (v, c) :: runs => List.replicate c v ++ dec runs

/-- Σ of the run-lengths, exact (R200). -/
def runTotal : List (Half × Nat) → Nat
  | [] => 0
  | (_, c) :: runs => c + runTotal runs

/-- The first n elements of the sequence bank. -/
def sequence (z : Mat Half) (n : Nat) : List Half := ((List.finRange 64).take n).map fun k => z[k]

/-- The first m pairs of the run-list banks, a run-length read as u32 (R25, R195). -/
def runList (values : Mat Half) (counts : Mat Word) (m : Nat) : List (Half × Nat) :=
  ((List.finRange 64).take m).map fun r => (values[r], u32 counts[r])

/-- The run list of the state: its first RLN pairs. -/
def heldRuns (s : State) : List (Half × Nat) := runList s.rlv.data s.rlc.data (u32 s.rln)

/-- RLV, RLC take the pairs of L, RLN its length; pairs beyond keep what they held (R199). -/
def writeRuns (s : State) (runs : List (Half × Nat)) : State :=
  { s with
    rlv := s.rlv.fillPrefix (runs.map fun p => p.1)
    rlc := s.rlc.fillPrefix (runs.map fun p => BitVec.ofNat 32 p.2)
    rln := BitVec.ofNat 32 runs.length }

/-- ZS takes the elements of S, ZLEN its length; elements beyond keep what they held (R200). -/
def writeSequence (s : State) (z : List Half) : State :=
  { s with zs := s.zs.fillPrefix z, zlen := BitVec.ofNat 32 z.length }

/-- The pseudocode of RLENC (R199). -/
def rlenc (s : State) : Except ErrCode State :=
  if u32 s.zlen > 64 then .error .len
  else .ok (writeRuns s (enc (sequence s.zs.data (u32 s.zlen))))

/-- The pseudocode of RLDEC (R200). -/
def rldec (s : State) : Except ErrCode State :=
  if u32 s.rln > 64 then .error .len
  else if runTotal (heldRuns s) > 64 then .error .rlovf
  else .ok (writeSequence s (dec (heldRuns s)))

/-- The pseudocode of RLDECB (R201). -/
def rldecb (s : State) : Except ErrCode State :=
  if u32 s.rln > 64 then .error .len
  else if runTotal (heldRuns s) ≠ 64 then .error .runsum
  else .ok (writeSequence s (dec (heldRuns s)))

end Sys2Proof.Machine
end

