-- ==== Sys2Proof/Machine/Transform.lean ====
section
/-! DEFINITION. The block transform family: the reference datapath REF, FDCT and IDCT (R124 to R131 of
spec/40_transform.md). -/

namespace Sys2Proof.Machine

/-- The table T[u,x] of R127, row u, column x. -/
def refTable : Vector (Vector Word 8) 8 :=
  #v[#v[0x3EB504F3, 0x3EB504F3, 0x3EB504F3, 0x3EB504F3, 0x3EB504F3, 0x3EB504F3, 0x3EB504F3, 0x3EB504F3],
     #v[0x3EFB14BE, 0x3ED4DB31, 0x3E8E39DA, 0x3DC7C5C2, 0xBDC7C5C2, 0xBE8E39DA, 0xBED4DB31, 0xBEFB14BE],
     #v[0x3EEC835E, 0x3E43EF15, 0xBE43EF15, 0xBEEC835E, 0xBEEC835E, 0xBE43EF15, 0x3E43EF15, 0x3EEC835E],
     #v[0x3ED4DB31, 0xBDC7C5C2, 0xBEFB14BE, 0xBE8E39DA, 0x3E8E39DA, 0x3EFB14BE, 0x3DC7C5C2, 0xBED4DB31],
     #v[0x3EB504F3, 0xBEB504F3, 0xBEB504F3, 0x3EB504F3, 0x3EB504F3, 0xBEB504F3, 0xBEB504F3, 0x3EB504F3],
     #v[0x3E8E39DA, 0xBEFB14BE, 0x3DC7C5C2, 0x3ED4DB31, 0xBED4DB31, 0xBDC7C5C2, 0x3EFB14BE, 0xBE8E39DA],
     #v[0x3E43EF15, 0xBEEC835E, 0x3EEC835E, 0xBE43EF15, 0xBE43EF15, 0x3EEC835E, 0xBEEC835E, 0x3E43EF15],
     #v[0x3DC7C5C2, 0xBE8E39DA, 0x3ED4DB31, 0xBEFB14BE, 0x3EFB14BE, 0xBED4DB31, 0x3E8E39DA, 0xBDC7C5C2]]

/-- val(T[u,x]). -/
def refCoef (u x : Fin 8) : Rat := val refTable[u][x]

/-- The exact sum of eight terms. -/
def sum8 (f : Fin 8 → Rat) : Rat := f 0 + f 1 + f 2 + f 3 + f 4 + f 5 + f 6 + f 7

/-- The exact sum of R128: Σ_x Σ_y val(T[u,x]) · val(p[x,y]) · val(T[v,y]). -/
def forwardSum (p : Mat Word) (u v : Fin 8) : Rat :=
  sum8 fun x => sum8 fun y => refCoef u x * val (entry p x y) * refCoef v y

/-- The exact sum of R129: Σ_u Σ_v val(T[u,x]) · val(c[u,v]) · val(T[v,y]). -/
def inverseSum (c : Mat Word) (x y : Fin 8) : Rat :=
  sum8 fun u => sum8 fun v => refCoef u x * val (entry c u v) * refCoef v y

/-- REF.fdct (R128): one rounding of each exact sum. -/
def refFdct (p : Mat Word) : Mat Word := tabulate fun u v => rn32 (forwardSum p u v)

/-- REF.idct (R129). -/
def refIdct (c : Mat Word) : Mat Word := tabulate fun x y => rn32 (inverseSum c x y)

/-- REF, the arithmetic of BCU 1.0 (R126 to R129). -/
def ref : Num := { fdct := refFdct, idct := refIdct }

/-- The pseudocode of FDCT (R130). -/
def fdct (c : Config) (s : State) : Except ErrCode State :=
  if someElem (fun w => !isFinite w) s.pb.data then .error .nonfin
  else .ok { s with cb := Bank.fill (c.num.fdct s.pb.data) }

/-- The pseudocode of IDCT (R131). -/
def idct (c : Config) (s : State) : Except ErrCode State :=
  if someElem (fun w => !isFinite w) s.cb.data then .error .nonfin
  else .ok { s with pb := Bank.fill (c.num.idct s.cb.data) }

end Sys2Proof.Machine
end

