-- ==== Sys2Proof/Machine/Zigzag.lean ====
section
/-! DEFINITION. The zigzag family: the table ZZ, ZSCAN and ZUNSCAN (R180 to R187 of spec/42_zigzag.md). -/

namespace Sys2Proof.Machine

/-- The table ZZ of R181, position k of the sequence to matrix element (first index, second index). -/
def zzTable : Vector (Fin 8 × Fin 8) 64 :=
  #v[(0,0), (0,1), (1,0), (2,0), (1,1), (0,2), (0,3), (1,2),
     (2,1), (3,0), (4,0), (3,1), (2,2), (1,3), (0,4), (0,5),
     (1,4), (2,3), (3,2), (4,1), (5,0), (6,0), (5,1), (4,2),
     (3,3), (2,4), (1,5), (0,6), (0,7), (1,6), (2,5), (3,4),
     (4,3), (5,2), (6,1), (7,0), (7,1), (6,2), (5,3), (4,4),
     (3,5), (2,6), (1,7), (2,7), (3,6), (4,5), (5,4), (6,3),
     (7,2), (7,3), (6,4), (5,5), (4,6), (3,7), (4,7), (5,6),
     (6,5), (7,4), (7,5), (6,6), (5,7), (6,7), (7,6), (7,7)]

/-- The linear index of position k. -/
def zzIndex (zz : Vector (Fin 8 × Fin 8) 64) (k : Fin 64) : Fin 64 := linear zz[k].1 zz[k].2

/-- scan: for k in 0..63, S[k] is M[a, b] with (a, b) = ZZ[k] (R183). -/
def scan {α : Type} (zz : Vector (Fin 8 × Fin 8) 64) (m : Mat α) : Mat α := Vector.ofFn fun k => m[zzIndex zz k]

/-- unscan: for k in 0..63 in order, M[a, b] <- S[k] with (a, b) = ZZ[k] (R184). -/
def unscan {α : Type} (zz : Vector (Fin 8 × Fin 8) 64) (q : Mat α) (m : Mat α) : Mat α :=
  (List.finRange 64).foldl (fun acc k => acc.set (zzIndex zz k) q[k]) m

/-- The pseudocode of ZSCAN (R183); it cannot fault. -/
def zscan (c : Config) (s : State) : Except ErrCode State :=
  .ok { s with zs := Bank.fill (scan c.zz s.qb.data), zlen := 64#32 }

/-- The pseudocode of ZUNSCAN (R184). -/
def zunscan (c : Config) (s : State) : Except ErrCode State :=
  if u32 s.zlen ≠ 64 then .error .zlen
  else .ok { s with qb := Bank.fill (unscan c.zz s.zs.data s.qb.data) }

end Sys2Proof.Machine
end

