-- ==== Sys2Proof/Machine/Fused.lean ====
section
/-! DEFINITION. The fused block family: ENCBLK and DECBLK (R220 to R226 of spec/44_fused.md). Every condition is tested
before the first write, and everything is computed from the state of the completion step. -/

namespace Sys2Proof.Machine

/-- The pseudocode of ENCBLK (R221). -/
def encblk (c : Config) (s : State) : Except ErrCode State :=
  if s.factor = 0#4 then .error .qminv
  else if someElem (fun w => !isFinite w) s.pb.data then .error .nonfin
  else
    let coef := c.num.fdct s.pb.data
    let n := quantized c.rnd coef s.qm.data
    let z := scan c.zz n
    let t : State :=
      { s with
        cb := Bank.fill coef
        qb := Bank.fill n
        status := s.status.onSaturate (saturates c.rnd coef s.qm.data)
        zs := Bank.fill z
        zlen := 64#32 }
    .ok (writeRuns t (enc (sequence z 64)))

/-- The pseudocode of DECBLK (R222). -/
def decblk (c : Config) (s : State) : Except ErrCode State :=
  if s.factor = 0#4 then .error .qminv
  else if u32 s.rln > 64 then .error .len
  else if runTotal (heldRuns s) ≠ 64 then .error .runsum
  else
    let t := writeSequence s (dec (heldRuns s))
    let q := unscan c.zz t.zs.data s.qb.data
    let coef := dequantized q s.qm.data
    .ok { t with qb := Bank.fill q, cb := Bank.fill coef, pb := Bank.fill (c.num.idct coef) }

end Sys2Proof.Machine
end

