-- ==== Sys2Proof/Machine/Commands.lean ====
section
/-! DEFINITION. BCU 1.0: its parameters (R7 of spec/00_scope.md) and the completion step of each of its thirteen
commands (R296 of spec/70_reset_and_hazards.md), one meaning per command. -/

namespace Sys2Proof.Machine

/-- Q-FIN, Q-MIN and Q-MAX of R151 on one element of the base table: finite, 11 ≤ val ≤ 2^20. -/
def qbaseAdmits (w : Word) : Bool := isFinite w && decide (11 ≤ val w) && decide (val w ≤ 1048576)

/-- The open base table of BCU 1.0 (R151, U10): the free value wherever it has the three named properties, and 11.0
where it has not, so that every table with the properties is a value of it and no other is. Log entry 1. -/
def qbaseOpen : Mat Word :=
  Vector.ofFn fun k => if qbaseAdmits (Config.qbaseRaw k.val) then Config.qbaseRaw k.val else 0x41300000#32

/-- The parameters of BCU 1.0 (R7): QBASE open, ZZ the table of R181, RND = RNE, NUM = REF, TOL_RT = 1e-3. -/
def bcu : Config :=
  { qbase := qbaseOpen, zz := zzTable, rnd := .rne, num := ref, tolRT := mkRat 1 1000 }

/-- FDCT (R130). -/
def execFdct (s : State) : Answer := complete s (fdct bcu s)

/-- IDCT (R131). -/
def execIdct (s : State) : Answer := complete s (idct bcu s)

/-- QBUILD (R155). -/
def execQbuild (s : State) : Answer := complete s (qbuild bcu s)

/-- QBUILDI imm16 (R156). -/
def execQbuildi (imm : Half) (s : State) : Answer := complete s (qbuildi bcu imm s)

/-- QUANT (R157). -/
def execQuant (s : State) : Answer := complete s (quant bcu s)

/-- DEQUANT (R158). -/
def execDequant (s : State) : Answer := complete s (dequant s)

/-- ZSCAN (R183). -/
def execZscan (s : State) : Answer := complete s (zscan bcu s)

/-- ZUNSCAN (R184). -/
def execZunscan (s : State) : Answer := complete s (zunscan bcu s)

/-- RLENC (R199). -/
def execRlenc (s : State) : Answer := complete s (rlenc s)

/-- RLDEC (R200). -/
def execRldec (s : State) : Answer := complete s (rldec s)

/-- RLDECB (R201). -/
def execRldecb (s : State) : Answer := complete s (rldecb s)

/-- ENCBLK (R221). -/
def execEncblk (s : State) : Answer := complete s (encblk bcu s)

/-- DECBLK (R222). -/
def execDecblk (s : State) : Answer := complete s (decblk bcu s)

end Sys2Proof.Machine
end

