-- ==== Sys2Proof/Machine/Dispatch.lean ====
section
/-! DEFINITION. The completion step of a decoded command (R296): one arm per row of spec/opcode_table.json. -/

namespace Sys2Proof.Machine

/-- The completion of command i on the state s. -/
def exec (i : Instr) (s : State) : Host.Outcome State Fault Refusal :=
  match i with
  | .fdct => Sys2Proof.Machine.execFdct s
  | .idct => Sys2Proof.Machine.execIdct s
  | .qbuild => Sys2Proof.Machine.execQbuild s
  | .qbuildi imm => Sys2Proof.Machine.execQbuildi imm s
  | .quant => Sys2Proof.Machine.execQuant s
  | .dequant => Sys2Proof.Machine.execDequant s
  | .zscan => Sys2Proof.Machine.execZscan s
  | .zunscan => Sys2Proof.Machine.execZunscan s
  | .rlenc => Sys2Proof.Machine.execRlenc s
  | .rldec => Sys2Proof.Machine.execRldec s
  | .rldecb => Sys2Proof.Machine.execRldecb s
  | .encblk => Sys2Proof.Machine.execEncblk s
  | .decblk => Sys2Proof.Machine.execDecblk s

end Sys2Proof.Machine
end

