-- ==== Sys2Proof/Machine/Step.lean ====
section
/-! DEFINITION. The step relation (R295, R296 of spec/70_reset_and_hazards.md) as one function: the schedule says which
agent moves next; with nothing scheduled the core completes a pending command (R297) and an idle unit waits (R260). -/

namespace Sys2Proof.Machine

/-- The completion step (R296): decode CMDW; an illegal word faults with E_ILLCMD (R98), a command is executed. -/
def completion (s : State) : Host.Outcome State Fault Refusal :=
  match decode s.cmdw with
  | .ok i => exec i s
  | .error _ => .next (raiseFault .illcmd s)

/-- The core's move: completion is enabled exactly when STATUS.BUSY = 1 (R295). -/
def coreStep (s : State) : Host.Outcome State Fault Refusal :=
  if s.status.busy then completion s else .next s

/-- One step of the unit (R295). -/
def step (s : State) : Host.Outcome State Fault Refusal :=
  match s.schedule with
  | [] => coreStep s
  | .core :: rest => coreStep { s with schedule := rest }
  | .read a :: rest => .next (hostRead { s with schedule := rest } a)
  | .write a d :: rest => .next (memWrite { s with schedule := rest } a d)
  | .reset :: rest => .next (takeReset { s with schedule := rest })

/-- The state in which the very next step completes the command whose word is w: the word latched and pending, as after
its acceptance (R68), no fault standing, and the core the next to move. -/
def State.withFetchWord (s : State) (nbits w : Nat) : State :=
  { s with
    cmdw := BitVec.ofNat 32 (w % 2 ^ nbits)
    status := { s.status with busy := true, done := false, err := false, ecode := 0#4 }
    schedule := .core :: s.schedule }

end Sys2Proof.Machine
end

