-- ==== Sys2Proof/Machine/HostProgram.lean ====
section
/-! DEFINITION. The assembler and the host's program lines: command syntax, transactions and pseudo-instructions turned
into words and into the agents' steps (R99 to R101 of spec/30_encoding.md). -/

namespace Sys2Proof.Machine

/-! ### Command lines (R99) -/

/-- The mnemonic of R94, in upper case. -/
def mnemonic : Instr → List Char
  | .fdct => ['F', 'D', 'C', 'T']
  | .idct => ['I', 'D', 'C', 'T']
  | .qbuild => ['Q', 'B', 'U', 'I', 'L', 'D']
  | .qbuildi _ => ['Q', 'B', 'U', 'I', 'L', 'D', 'I']
  | .quant => ['Q', 'U', 'A', 'N', 'T']
  | .dequant => ['D', 'E', 'Q', 'U', 'A', 'N', 'T']
  | .zscan => ['Z', 'S', 'C', 'A', 'N']
  | .zunscan => ['Z', 'U', 'N', 'S', 'C', 'A', 'N']
  | .rlenc => ['R', 'L', 'E', 'N', 'C']
  | .rldec => ['R', 'L', 'D', 'E', 'C']
  | .rldecb => ['R', 'L', 'D', 'E', 'C', 'B']
  | .encblk => ['E', 'N', 'C', 'B', 'L', 'K']
  | .decblk => ['D', 'E', 'C', 'B', 'L', 'K']

/-- A line without its comment, cut at blanks; a `;` starts a comment (R99). -/
def tokens : List Char → List (List Char)
  | [] => []
  | ch :: rest =>
    if ch = ';' then []
    else if ch = ' ' ∨ ch = '\t' then [] :: tokens rest
    else
      match tokens rest with
      | [] => [[ch]]
      | t :: ts => (ch :: t) :: ts

/-- The value of a digit in the given base (10 or 16). -/
def digit (base : Nat) (ch : Char) : Option Nat :=
  let n := ch.toNat
  let v := if 48 ≤ n ∧ n ≤ 57 then n - 48
    else if 65 ≤ n ∧ n ≤ 70 then n - 55
    else if 97 ≤ n ∧ n ≤ 102 then n - 87
    else 16
  if v < base then some v else none

/-- The number a nonempty digit string writes. -/
def digits (base : Nat) : List Char → Nat → Option Nat
  | [], acc => some acc
  | ch :: rest, acc =>
    match digit base ch with
    | some v => digits base rest (acc * base + v)
    | none => none

/-- `<imm>` of R99: a decimal integer with optional `-`, or `0x` and one to four hex digits, the 16-bit pattern. -/
def immediate : List Char → Option Int
  | '0' :: 'x' :: hex =>
    if 1 ≤ hex.length ∧ hex.length ≤ 4 then
      match digits 16 hex 0 with
      | some v => some (s16 (BitVec.ofNat 16 v))
      | none => none
    else none
  | '-' :: ch :: dec =>
    match digits 10 (ch :: dec) 0 with
    | some v => some (-(v : Int))
    | none => none
  | ch :: dec =>
    match digits 10 (ch :: dec) 0 with
    | some v => some (v : Int)
    | none => none
  | [] => none

/-- One command line (R99): the mnemonic exactly as in R94, and for QBUILDI its immediate. -/
def parseCommand (line : List Char) : Option AsmCommand :=
  match (tokens line).filter fun t => !t.isEmpty with
  | [m] =>
    match c0Table.find? fun row => mnemonic row.2 == m with
    | some row => some (.plain row.2)
    | none => none
  | [m, imm] =>
    if mnemonic (.qbuildi 0#16) = m then
      match immediate imm with
      | some n => some (.qbuildi n)
      | none => none
    else none
  | _ => none

/-- The word a command line assembles to; a line that is not well formed is rejected (R99). -/
def assemble (a : AsmCommand) : Option Word :=
  if a.wf then
    match a with
    | .plain i => some (encode i)
    | .qbuildi n => some (enc16 n ++ 0x0011#16)
  else none

/-! ### Host lines (R100, R101) -/

/-- The word an operand stands for (R100). -/
def operandWord : Operand → Word
  | .word w => w
  | .f32 r => rn32 r
  | .i16 n => (enc16 n).setWidth 32

/-- The transaction offset of a byte offset inside the window. -/
def wordOffset (a : Nat) : WordOffset := ⟨a / 4 % 1024, Nat.mod_lt _ (by decide)⟩

/-- The writes of LD and LDN (R101): `WR base(bank) + 4k, vk` for k = 0, 1, ... in order. -/
def loads (base : Nat) : List Operand → List Event
  | [] => []
  | v :: vs => .write (wordOffset base) (operandWord v) :: loads (base + 4) vs

/-- WAIT (R101) in a run in which the core completes after n polls that still read BUSY = 1 (R297, U9): n reads of
STATUS, the completion, and the read that sees bit 0 = 0. -/
def waits (n : Nat) : List Event := List.replicate n (.read 1) ++ [.core, .read 1]

/-- `CMD command`: the write of its word to offset 0x000. -/
def starts (a : AsmCommand) : Option (List Event) := (assemble a).map fun w => [.write 0 w]

/-- The steps a host line stands for, when the core completes a command in flight after n polls; an ill-formed line is
rejected (R100, R101). -/
def expand (n : Nat) (l : HostLine) : Option (List Event) :=
  if l.wf then
    match l with
    | .wr a v => some [.write (wordOffset a) (operandWord v)]
    | .rd a => some [.read (wordOffset a)]
    | .cmd a => starts a
    | .wait => some (waits n)
    | .run a => (starts a).map fun es => es ++ waits n
    | .clrf mask => some [.write 1 mask]
    | .ld b vs => some (loads (bankBase b) vs)
    | .ldn b _ vs => some (loads (bankBase b) vs)
    | .setFactor k => some [.write 3 (BitVec.ofInt 32 k)]
  else none

end Sys2Proof.Machine
end

