-- ==== Sys2Proof/Properties.lean ====
section
/-! DEFINITION. The named properties of the parameters (R7, R124, R125, R151, R180) and the transform on real numbers
(R122, R123): the mathematics the statements are about, not part of the machine. -/

namespace Sys2Proof.Properties

open Sys2Proof.Machine

/-! ### Named properties -/

/-- Q-FIN, Q-MIN, Q-MAX of R151 for a base table. -/
def QbaseProperties (q : Mat Word) : Prop :=
  ∀ k : Fin 64, isFinite q[k] = true ∧ 11 ≤ val q[k] ∧ val q[k] ≤ 2 ^ 20

/-- ZZ is a bijection between {0..63} and {0..7}×{0..7} (R180). -/
def ZzBijective (zz : Vector (Fin 8 × Fin 8) 64) : Prop := Function.Bijective fun k : Fin 64 => zz[k]

/-- All 64 patterns are finite. -/
def AllFinite (m : Mat Word) : Prop := ∀ k : Fin 64, isFinite m[k] = true

/-- P-NONAN of R124, its first clause: for finite inputs no output is a NaN. -/
def NoNan (f : Mat Word → Mat Word) : Prop := ∀ m, AllFinite m → ∀ k : Fin 64, isNaN (f m)[k] = false

/-- P-ZERO of R124: if every input is a zero of either sign, every output is +0. -/
def ZeroToZero (f : Mat Word → Mat Word) : Prop :=
  ∀ m : Mat Word, (∀ k : Fin 64, m[k] = 0x00000000#32 ∨ m[k] = 0x80000000#32) → ∀ k : Fin 64, (f m)[k] = 0x00000000#32

/-- The transform law P-RT of R125 for one block. -/
def RoundTrips (c : Config) (b : Mat Word) : Prop :=
  ∀ k : Fin 64, |val (c.num.idct (c.num.fdct b))[k] - val b[k]| < c.tolRT

/-! ### The transform on real numbers -/

/-- C(0) = 1/√2 and C(k) = 1 for k = 1..7 (R122). -/
noncomputable def axisScale (k : Fin 8) : ℝ := if k = 0 then 1 / Real.sqrt 2 else 1

/-- cos((2x+1)·u·π/16). -/
noncomputable def cosine (u x : Fin 8) : ℝ := Real.cos ((2 * (x.val : ℝ) + 1) * (u.val : ℝ) * Real.pi / 16)

/-- The basis A[u,x] = 0.5 · C(u) · cos((2x+1)·u·π/16) (R122). -/
noncomputable def basis (u x : Fin 8) : ℝ := 1 / 2 * axisScale u * cosine u x

/-- `DCT_R(f)` of R122. -/
noncomputable def dctReal (f : Fin 8 → Fin 8 → ℝ) (u v : Fin 8) : ℝ :=
  1 / 4 * axisScale u * axisScale v * ∑ x : Fin 8, ∑ y : Fin 8, f x y * cosine u x * cosine v y

/-- `IDCT_R(F)` of R123. -/
noncomputable def idctReal (F : Fin 8 → Fin 8 → ℝ) (x y : Fin 8) : ℝ :=
  1 / 4 * ∑ u : Fin 8, ∑ v : Fin 8, axisScale u * axisScale v * F u v * cosine u x * cosine v y

end Sys2Proof.Properties
end

