-- ==== Sys2Proof/Safety.lean ====
section
/-! DEFINITION. What counts as a safe run, in the terms the statements use: no step uses an element nobody has written
since reset (R29, R282, U1), and no transaction is one the unit does not honour (R67 to R70, R300). Also the invariant
of the unit's state, and agreement of two states on what has been written. -/

namespace Sys2Proof.Safety

open Sys2Proof.Machine

/-- All 64 elements of a bank. -/
def whole (b : BankId) : List (BankId × Fin 64) := (List.finRange 64).map fun k => (b, k)

/-- The first n elements of a bank. -/
def leading (b : BankId) (n : Nat) : List (BankId × Fin 64) := ((List.finRange 64).take n).map fun k => (b, k)

/-- The bank elements whose content the completion of command i uses (the column Reads of R27): none where a check
that comes before them ends the command. -/
def uses (i : Instr) (s : State) : List (BankId × Fin 64) :=
  match i with
  | .fdct => whole .pb
  | .idct => whole .cb
  | .qbuild => []
  | .qbuildi _ => []
  | .quant => if s.factor = 0#4 then [] else whole .cb ++ whole .qm
  | .dequant => if s.factor = 0#4 then [] else whole .qb ++ whole .qm
  | .zscan => whole .qb
  | .zunscan => if u32 s.zlen ≠ 64 then [] else whole .zs
  | .rlenc => if u32 s.zlen > 64 then [] else leading .zs (u32 s.zlen)
  | .rldec => if u32 s.rln > 64 then [] else leading .rlv (u32 s.rln) ++ leading .rlc (u32 s.rln)
  | .rldecb => if u32 s.rln > 64 then [] else leading .rlv (u32 s.rln) ++ leading .rlc (u32 s.rln)
  | .encblk => if s.factor = 0#4 then [] else whole .pb ++ whole .qm
  | .decblk =>
    if s.factor = 0#4 ∨ u32 s.rln > 64 then []
    else leading .rlv (u32 s.rln) ++ leading .rlc (u32 s.rln) ++ whole .qm

/-- The banks in the column Writes of R27. -/
def destinationBanks : Instr → List BankId
  | .fdct => [.cb]
  | .idct => [.pb]
  | .qbuild => [.qm]
  | .qbuildi _ => [.qm]
  | .quant => [.qb]
  | .dequant => [.cb]
  | .zscan => [.zs]
  | .zunscan => [.qb]
  | .rlenc => [.rlv, .rlc]
  | .rldec => [.zs]
  | .rldecb => [.zs]
  | .encblk => [.cb, .qb, .zs, .rlv, .rlc]
  | .decblk => [.zs, .qb, .cb, .pb]

/-- The registers in the column Writes of R27, STATUS apart. -/
def destinationRegisters : Instr → List Place
  | .fdct => []
  | .idct => []
  | .qbuild => [.factor]
  | .qbuildi _ => [.factor]
  | .quant => []
  | .dequant => []
  | .zscan => [.zlen]
  | .zunscan => []
  | .rlenc => [.rln]
  | .rldec => [.zlen]
  | .rldecb => [.zlen]
  | .encblk => [.zlen, .rln]
  | .decblk => [.zlen]

/-- The bank elements the core's next move uses. -/
def coreUses (s : State) : List (BankId × Fin 64) :=
  if s.status.busy then
    match decode s.cmdw with
    | .ok i => uses i s
    | .error _ => []
  else []

/-- The bank elements the next step uses: those of the command completed, or the one the host reads. -/
def nextUses (s : State) : List (BankId × Fin 64) :=
  match s.schedule with
  | [] => coreUses s
  | .core :: _ => coreUses s
  | .read a :: _ =>
    match placeAt a with
    | .elem b k => if s.status.busy then [] else [(b, k)]
    | _ => []
  | .write _ _ :: _ => []
  | .reset :: _ => []

/-- The next step uses written elements only. -/
def usesWritten (s : State) : Bool := (nextUses s).all fun p => elemWritten s p.1 p.2

/-- The next step is not a transaction the unit refuses: one that sets HERR (R67 to R70). -/
def honoured (s : State) : Bool :=
  match s.schedule with
  | [] => true
  | .core :: _ => true
  | .reset :: _ => true
  | .read a :: _ =>
    match placeAt a with
    | .status => true
    | .ctrl => true
    | .reserved => false
    | _ => !s.status.busy
  | .write a _ :: _ =>
    match placeAt a with
    | .status => true
    | .ctrl => true
    | .cmd => !s.status.busy && !s.status.err
    | p => !s.status.busy && !p.readOnly

/-- The next step is safe. -/
def stepSafe (s : State) : Bool := usesWritten s && honoured s

/-- At most one of BUSY, DONE, ERR is 1 (R33); ECODE is 0 when ERR = 0 and one of the codes 1 to 7 when ERR = 1
(R33, R241). -/
def StatusInv (s : State) : Prop :=
  (s.status.busy = true → s.status.done = false ∧ s.status.err = false) ∧
  (s.status.done = true → s.status.err = false) ∧
  (s.status.err = false → s.status.ecode = 0#4) ∧
  (s.status.err = true → 1 ≤ s.status.ecode.toNat ∧ s.status.ecode.toNat ≤ 7)

/-- FACTOR = f in 1..15 means that QM is the matrix built for f, every element of it written (R26, R37). -/
def MatrixInv (s : State) : Prop :=
  s.factor ≠ 0#4 → s.qm = Bank.fill (scaledBase bcu (s.factor.toNat : Int))

/-- The invariant of the unit's state. -/
def StateInv (s : State) : Prop := StatusInv s ∧ MatrixInv s

/-- Two banks agree: the same marks, and the same content wherever the mark is set. -/
def BankAgree {n : Nat} (a b : Bank n) : Prop :=
  a.written = b.written ∧ ∀ k : Fin 64, a.written[k] = true → a.data[k] = b.data[k]

/-- Two states agree on everything but the content of elements nobody has written and, while no command is pending,
CMDW (U1, U3). -/
def AgreeOnWritten (s t : State) : Prop :=
  s.status = t.status ∧ s.ctrl = t.ctrl ∧ s.factin = t.factin ∧ s.factor = t.factor ∧ s.zlen = t.zlen ∧ s.rln = t.rln ∧
  s.schedule = t.schedule ∧ s.reply = t.reply ∧ s.freeCount = t.freeCount ∧
  (s.status.busy = true → s.cmdw = t.cmdw) ∧
  BankAgree s.pb t.pb ∧ BankAgree s.cb t.cb ∧ BankAgree s.qm t.qm ∧ BankAgree s.qb t.qb ∧ BankAgree s.zs t.zs ∧
  BankAgree s.rlv t.rlv ∧ BankAgree s.rlc t.rlc

end Sys2Proof.Safety
end

