-- ==== Sys2Proof/Certificates/Slice0/Obligations.lean ====
section
/-! DEFINITION. The statements for the provers. Each is about the machine of `Sys2Proof.core`; each docstring names the
rule of spec/ it formalises. -/

open Sys2Proof Sys2Proof.Machine Sys2Proof.Safety Sys2Proof.Properties

/-! ### Encoding -/

/-- R94: words written out from the table's columns decode to the commands they stand for. -/
def Obligations.DecodesTableWords : Prop :=
  decode 0x00000001#32 = .ok .fdct ∧ decode 0x00000002#32 = .ok .idct ∧ decode 0x00000010#32 = .ok .qbuild ∧
  decode 0x00050011#32 = .ok (.qbuildi 5#16) ∧ decode 0x00000012#32 = .ok .quant ∧ decode 0x00000013#32 = .ok .dequant ∧
  decode 0x00000020#32 = .ok .zscan ∧ decode 0x00000021#32 = .ok .zunscan ∧ decode 0x00000030#32 = .ok .rlenc ∧
  decode 0x00000031#32 = .ok .rldec ∧ decode 0x00000032#32 = .ok .rldecb ∧ decode 0x00000040#32 = .ok .encblk ∧
  decode 0x00000041#32 = .ok .decblk ∧ decode 0x80000011#32 = .ok (.qbuildi 0x8000#16)

/-- R94, R95: the decoder reads command i from a word exactly when the word is the encoding of i, so decoding an
encoded command gives it back with every bit of its immediate, and each legal word has one meaning. -/
def Obligations.DecodeIsInverseOfEncode : Prop :=
  ∀ (w : Word) (i : Instr), decode w = .ok i ↔ encode i = w

/-- R96: exactly 2^32 - (12 + 65536) words are illegal, the all-zero and the all-ones word among them. -/
def Obligations.IllegalWordsCounted : Prop :=
  Set.ncard {w : Word | ∀ i : Instr, decode w ≠ .ok i} = 2 ^ 32 - (12 + 65536) ∧
  (∀ i : Instr, decode 0x00000000#32 ≠ .ok i) ∧ (∀ i : Instr, decode 0xFFFFFFFF#32 ≠ .ok i)

/-- R99: `QBUILDI n` with n in [-32768, 32767] assembles to a word that decodes to QBUILDI with an immediate whose signed
value is n (R93); any other integer, and a mnemonic of the wrong format, is rejected. -/
def Obligations.AssemblerImmediateRange : Prop :=
  (∀ n : Int, -32768 ≤ n → n ≤ 32767 →
    ∃ (w : Word) (imm : Half), assemble (.qbuildi n) = some w ∧ decode w = .ok (.qbuildi imm) ∧ imm.toInt = n) ∧
  (∀ n : Int, n < -32768 ∨ 32767 < n → assemble (.qbuildi n) = none) ∧
  (∀ i : Instr, assemble (.plain i) = if i.format = .c0 then some (encode i) else none)

/-! ### Numbers -/

/-- R121: RN32(r) is +0 for 0. Below the overflow threshold (2^24 - 1/2)·2^104 it is finite, no finite pattern is nearer
to r, and of two nearest magnitudes it is the one with the even significand (bit 0 of the pattern is 0); from the
threshold on it is the infinity of r's sign; a nonzero r gives a pattern with r's sign. -/
def Obligations.RoundsToNearestBinary32 : Prop :=
  rn32 0 = 0x00000000#32 ∧
  (∀ r : Rat, r ≠ 0 → f32Sign (rn32 r) = decide (r < 0)) ∧
  (∀ r : Rat, |r| < (2 ^ 24 - 1 / 2) * 2 ^ 104 →
    isFinite (rn32 r) = true ∧
    (∀ w : Word, isFinite w = true → |val (rn32 r) - r| ≤ |val w - r|) ∧
    (∀ w : Word, isFinite w = true → |val (rn32 r) - r| = |val w - r| → val w ≠ val (rn32 r) →
      (rn32 r).getLsbD 0 = false)) ∧
  (∀ r : Rat, (2 ^ 24 - 1 / 2) * 2 ^ 104 ≤ |r| → rn32 r = if r < 0 then 0xFF800000#32 else 0x7F800000#32)

/-- R121: a value that binary32 represents is not changed by RN32, but for the sign of a zero. -/
def Obligations.RoundingKeepsRepresentable : Prop :=
  ∀ w : Word, isFinite w = true → w ≠ 0x80000000#32 → rn32 (val w) = w

/-- R153: RND(t) is an integer nearest t; half way between two integers it is the even one under RNE, and the one
farther from zero under RHA. BCU 1.0 takes RNE. -/
def Obligations.RoundsToNearestInteger : Prop :=
  bcu.rnd = .rne ∧
  ∀ (rule : TieRule) (t : Rat),
    |(rnd rule t : Rat) - t| ≤ 1 / 2 ∧
    (|(rnd rule t : Rat) - t| = 1 / 2 →
      (rule = .rne → 2 ∣ rnd rule t) ∧ (rule = .rha → |t| < |(rnd rule t : Rat)|))

/-- R151: the open base table has the properties Q-FIN, Q-MIN and Q-MAX, and so every element of a matrix built from it
for a factor 1..15 is finite and lies between 11 and 15·2^20.
The table is a free value (log entry 1, DESIGN CHOICE). -/
def Obligations.BuiltMatrixIsBounded : Prop :=
  QbaseProperties bcu.qbase ∧
  ∀ (f : Int), 1 ≤ f → f ≤ 15 → ∀ k : Fin 64,
    isFinite (scaledBase bcu f)[k] = true ∧ 11 ≤ val (scaledBase bcu f)[k] ∧ val (scaledBase bcu f)[k] ≤ 15 * 2 ^ 20

/-! ### The transform family -/

/-- R130: FDCT. For finite PB every CB[u,v] is the once rounded exact sum, and nothing else changes but the end of the
command; otherwise the fault E_NONFIN. -/
def Obligations.FdctTransformsBlock : Prop :=
  ∀ s : State,
    (AllFinite s.pb.data → ∃ t, exec .fdct s = .next t ∧
      (∀ u v : Fin 8, entry t.cb.data u v =
        rn32 (∑ x : Fin 8, ∑ y : Fin 8, val refTable[u][x] * val (entry s.pb.data x y) * val refTable[v][y])) ∧
      (∀ k : Fin 64, t.cb.written[k] = true) ∧
      t = { s with cb := t.cb, status := { s.status with busy := false, done := true } }) ∧
    (¬ AllFinite s.pb.data →
      exec .fdct s = .next { s with status := { s.status with busy := false, err := true, ecode := 7#4 } })

/-- R131: IDCT, the same with the banks exchanged and the table used transposed. -/
def Obligations.IdctTransformsCoefficients : Prop :=
  ∀ s : State,
    (AllFinite s.cb.data → ∃ t, exec .idct s = .next t ∧
      (∀ x y : Fin 8, entry t.pb.data x y =
        rn32 (∑ u : Fin 8, ∑ v : Fin 8, val refTable[u][x] * val (entry s.cb.data u v) * val refTable[v][y])) ∧
      (∀ k : Fin 64, t.pb.written[k] = true) ∧
      t = { s with pb := t.pb, status := { s.status with busy := false, done := true } }) ∧
    (¬ AllFinite s.cb.data →
      exec .idct s = .next { s with status := { s.status with busy := false, err := true, ecode := 7#4 } })

/-- R124, R129: REF has P-NONAN and P-ZERO. -/
def Obligations.ReferenceTransformProperties : Prop :=
  NoNan ref.fdct ∧ NoNan ref.idct ∧ ZeroToZero ref.fdct ∧ ZeroToZero ref.idct

/-- R130 corner case (e): a constant block of finite value c gives CB[u,v] = +0 exactly for (u,v) ≠ (0,0) and
CB[0,0] = RN32(64 · val(m0)² · c). -/
def Obligations.ConstantBlockHasOnlyDc : Prop :=
  ∀ (s : State) (w : Word), isFinite w = true → (∀ k : Fin 64, s.pb.data[k] = w) →
    ∃ t, exec .fdct s = .next t ∧
      entry t.cb.data 0 0 = rn32 (64 * val 0x3EB504F3#32 ^ 2 * val w) ∧
      ∀ u v : Fin 8, (u, v) ≠ (0, 0) → entry t.cb.data u v = 0x00000000#32

/-- R125: the transform law P-RT of BCU 1.0 for every constant block in the level-shifted pixel range [-128, 127]. -/
def Obligations.ConstantBlockRoundTrips : Prop :=
  ∀ (b : Mat Word) (w : Word), isFinite w = true → -128 ≤ val w → val w ≤ 127 → (∀ k : Fin 64, b[k] = w) →
    RoundTrips bcu b

/-- R126: every table entry T[u,x] is within half a unit in the last place of the basis A[u,x]. -/
def Obligations.TableRoundsCosineBasis : Prop :=
  ∀ u x : Fin 8, isFinite refTable[u][x] = true ∧
    |((val refTable[u][x] : Rat) : ℝ) - basis u x| ≤ 2 ^ f32Exp refTable[u][x] / 2 ^ 151

/-- R127: the table has the symmetries the rule lists, and its rows for u ≥ 1 cancel exactly. -/
def Obligations.TableRowsCancel : Prop :=
  (∀ u x : Fin 8, u.val % 2 = 1 → val refTable[u][x.rev] = -val refTable[u][x]) ∧
  (∀ u x : Fin 8, u = 2 ∨ u = 6 → val refTable[u][x.rev] = val refTable[u][x] ∧
    (x.val ≤ 3 → val refTable[u][(⟨3 - x.val, by omega⟩ : Fin 8)] = -val refTable[u][x])) ∧
  (∀ x : Fin 8, val refTable[(4 : Fin 8)][x] =
    if x = 0 ∨ x = 3 ∨ x = 4 ∨ x = 7 then val 0x3EB504F3#32 else -val 0x3EB504F3#32) ∧
  (∀ u : Fin 8, u ≠ 0 → ∑ x : Fin 8, val refTable[u][x] = 0) ∧
  ∑ x : Fin 8, val refTable[(0 : Fin 8)][x] = 8 * val 0x3EB504F3#32

/-- R132: on real numbers a block with every element c has DCT_R = 8c at [0,0] and 0 elsewhere. -/
def Obligations.RealTransformOfConstant : Prop :=
  ∀ (c : ℝ) (u v : Fin 8), dctReal (fun _ _ => c) u v = if u = 0 ∧ v = 0 then 8 * c else 0

/-- R123: on real numbers the inverse transform undoes the forward transform exactly. -/
def Obligations.RealTransformInverts : Prop :=
  ∀ (f : Fin 8 → Fin 8 → ℝ) (x y : Fin 8), idctReal (dctReal f) x y = f x y

/-! ### The quantizer family -/

/-- R155: QBUILD builds RN32(val(QBASE[i,j])·f) for f = min(max(s32(FACTIN), 1), 15), records f in FACTOR and cannot
fault. -/
def Obligations.QbuildScalesBaseTable : Prop :=
  ∀ s : State, ∃ t, exec .qbuild s = .next t ∧
    (t.factor.toNat : Int) = min (max s.factin.toInt 1) 15 ∧
    (∀ k : Fin 64, t.qm.data[k] = rn32 (val bcu.qbase[k] * ((min (max s.factin.toInt 1) 15 : Int) : Rat))) ∧
    (∀ k : Fin 64, t.qm.written[k] = true) ∧
    t = { s with qm := t.qm, factor := t.factor, status := { s.status with busy := false, done := true } }

/-- R156: QBUILDI builds for f = min(max(s16(imm16), 1), 15), leaves FACTIN alone and cannot fault. -/
def Obligations.QbuildiScalesBaseTable : Prop :=
  ∀ (imm : Half) (s : State), ∃ t, exec (.qbuildi imm) s = .next t ∧
    (t.factor.toNat : Int) = min (max imm.toInt 1) 15 ∧
    (∀ k : Fin 64, t.qm.data[k] = rn32 (val bcu.qbase[k] * ((min (max imm.toInt 1) 15 : Int) : Rat))) ∧
    (∀ k : Fin 64, t.qm.written[k] = true) ∧
    t = { s with qm := t.qm, factor := t.factor, status := { s.status with busy := false, done := true } }

/-- R159: QBUILDI 0 leaves the state QBUILDI 1 leaves, QBUILDI 99 the one QBUILDI 15 leaves; two builds, by either command,
leave the same QM and FACTOR exactly when their clamped factors are equal. -/
def Obligations.FactorClampLaw : Prop :=
  (∀ s : State, exec (.qbuildi 0#16) s = exec (.qbuildi 1#16) s ∧ exec (.qbuildi 99#16) s = exec (.qbuildi 15#16) s) ∧
  ∀ (s t a b : State),
    (∀ m n : Half, exec (.qbuildi m) s = .next a → exec (.qbuildi n) t = .next b →
      (a.qm = b.qm ∧ a.factor = b.factor ↔ min (max m.toInt 1) 15 = min (max n.toInt 1) 15)) ∧
    (exec .qbuild s = .next a → exec .qbuild t = .next b →
      (a.qm = b.qm ∧ a.factor = b.factor ↔ min (max s.factin.toInt 1) 15 = min (max t.factin.toInt 1) 15)) ∧
    (∀ n : Half, exec .qbuild s = .next a → exec (.qbuildi n) t = .next b →
      (a.qm = b.qm ∧ a.factor = b.factor ↔ min (max s.factin.toInt 1) 15 = min (max n.toInt 1) 15))

/-- R157, R154: QUANT. With a built matrix and no NaN in CB, an infinity gives the bound of its sign, a finite element
the integer RND(RN32(CB/QM)) clamped to [-32768, 32767]; QSAT becomes 1 exactly if it was 1 or an element was clamped;
FACTOR = 0 faults with E_QMINV, and a NaN with a built matrix with E_NONFIN. MatrixInv is the invariant of
StepKeepsInvariant. -/
def Obligations.QuantDividesRoundsClamps : Prop :=
  ∀ s : State,
    (MatrixInv s → s.factor ≠ 0#4 → (∀ k : Fin 64, isNaN s.cb.data[k] = false) → ∃ t, exec .quant s = .next t ∧
      (∀ k : Fin 64,
        (isInf s.cb.data[k] = true → t.qb.data[k].toInt = if f32Sign s.cb.data[k] then -32768 else 32767) ∧
        (isFinite s.cb.data[k] = true →
          t.qb.data[k].toInt = max (-32768) (min 32767 (rnd .rne (val (rn32 (val s.cb.data[k] / val s.qm.data[k]))))))) ∧
      (t.status.qsat = true ↔ s.status.qsat = true ∨ ∃ k : Fin 64, isInf s.cb.data[k] = true ∨
        rnd .rne (val (rn32 (val s.cb.data[k] / val s.qm.data[k]))) < -32768 ∨
        32767 < rnd .rne (val (rn32 (val s.cb.data[k] / val s.qm.data[k])))) ∧
      (∀ k : Fin 64, t.qb.written[k] = true) ∧
      t = { s with qb := t.qb, status := { s.status with busy := false, done := true, qsat := t.status.qsat } }) ∧
    (s.factor = 0#4 →
      exec .quant s = .next { s with status := { s.status with busy := false, err := true, ecode := 2#4 } }) ∧
    (s.factor ≠ 0#4 → (∃ k : Fin 64, isNaN s.cb.data[k] = true) →
      exec .quant s = .next { s with status := { s.status with busy := false, err := true, ecode := 7#4 } })

/-- R158: DEQUANT. With a built matrix every CB element is RN32(s16(QB)·val(QM)); FACTOR = 0 faults with E_QMINV. -/
def Obligations.DequantMultiplies : Prop :=
  ∀ s : State,
    (s.factor ≠ 0#4 → ∃ t, exec .dequant s = .next t ∧
      (∀ k : Fin 64, t.cb.data[k] = rn32 ((s.qb.data[k].toInt : Rat) * val s.qm.data[k])) ∧
      (∀ k : Fin 64, t.cb.written[k] = true) ∧
      t = { s with cb := t.cb, status := { s.status with busy := false, done := true } }) ∧
    (s.factor = 0#4 →
      exec .dequant s = .next { s with status := { s.status with busy := false, err := true, ecode := 2#4 } })

/-- R158 corner cases: with a built matrix every element DEQUANT writes is finite, and +0 where QB is 0. -/
def Obligations.DequantIsFinite : Prop :=
  ∀ s t : State, MatrixInv s → s.factor ≠ 0#4 → exec .dequant s = .next t →
    ∀ k : Fin 64, isFinite t.cb.data[k] = true ∧ (s.qb.data[k] = 0#16 → t.cb.data[k] = 0x00000000#32)

/-- R160: with a built matrix DEQUANT completes, and a QUANT accepted after it completes without fault whatever stands in QB
by then, writes the QB that DEQUANT read and does not set QSAT. -/
def Obligations.QuantUndoesDequant : Prop :=
  ∀ s : State, MatrixInv s → s.factor ≠ 0#4 →
    ∃ a, exec .dequant s = .next a ∧ a.status.done = true ∧ a.status.err = s.status.err ∧
      ∀ q : Bank 16, ∃ b, exec .quant (accept { a with qb := q } (encode .quant)) = .next b ∧
        b.status.done = true ∧ b.status.err = a.status.err ∧
        b.qb.data = s.qb.data ∧ b.status.qsat = s.status.qsat

/-! ### The zigzag family -/

/-- R183: ZSCAN copies QB[ZZ[k]] to ZS[k], sets ZLEN to 64 and cannot fault. -/
def Obligations.ZscanReordersMatrix : Prop :=
  ∀ s : State, ∃ t, exec .zscan s = .next t ∧
    (∀ k : Fin 64, t.zs.data[k] = entry s.qb.data zzTable[k].1 zzTable[k].2) ∧
    (∀ k : Fin 64, t.zs.written[k] = true) ∧ t.zlen = 64#32 ∧
    t = { s with zs := t.zs, zlen := t.zlen, status := { s.status with busy := false, done := true } }

/-- R184: ZUNSCAN with ZLEN = 64 copies ZS[k] to QB[ZZ[k]]; with any other ZLEN it faults with E_ZLEN. -/
def Obligations.ZunscanRebuildsMatrix : Prop :=
  ∀ s : State,
    (s.zlen = 64#32 → ∃ t, exec .zunscan s = .next t ∧
      (∀ k : Fin 64, entry t.qb.data zzTable[k].1 zzTable[k].2 = s.zs.data[k]) ∧
      (∀ k : Fin 64, t.qb.written[k] = true) ∧
      t = { s with qb := t.qb, status := { s.status with busy := false, done := true } }) ∧
    (s.zlen ≠ 64#32 →
      exec .zunscan s = .next { s with status := { s.status with busy := false, err := true, ecode := 4#4 } })

/-- R180, R182: the table is a bijection, begins as the source gives it, and visits the anti-diagonals in increasing
order, the first index increasing on odd ones and decreasing on even ones. -/
def Obligations.ZigzagTableFollowsDiagonals : Prop :=
  ZzBijective zzTable ∧
  zzTable[0] = (0, 0) ∧ zzTable[1] = (0, 1) ∧ zzTable[2] = (1, 0) ∧ zzTable[3] = (2, 0) ∧
  ∀ j k : Fin 64, j < k →
    let a := zzTable[j]; let b := zzTable[k]
    a.1.val + a.2.val < b.1.val + b.2.val ∨
      (a.1.val + a.2.val = b.1.val + b.2.val ∧
        ((a.1.val + a.2.val) % 2 = 1 → a.1 < b.1) ∧ ((a.1.val + a.2.val) % 2 = 0 → b.1 < a.1))

/-- R186: for every bijection ZZ, unscan undoes scan and scan undoes unscan; on the unit, a ZUNSCAN accepted after ZSCAN
completes and rebuilds the QB that ZSCAN read, whatever stands in QB by then, and a ZSCAN accepted after ZUNSCAN with
ZLEN = 64 completes and rebuilds ZS and ZLEN in the same way. -/
def Obligations.ZigzagLaw : Prop :=
  (∀ (zz : Vector (Fin 8 × Fin 8) 64), ZzBijective zz → ∀ m q : Mat Half,
    unscan zz (scan zz m) q = m ∧ scan zz (unscan zz m q) = m) ∧
  (∀ s : State, ∃ a, exec .zscan s = .next a ∧ a.status.done = true ∧ a.status.err = s.status.err ∧
    ∀ q : Bank 16, ∃ b, exec .zunscan (accept { a with qb := q } (encode .zunscan)) = .next b ∧
      b.status.done = true ∧ b.status.err = a.status.err ∧ b.qb.data = s.qb.data) ∧
  (∀ s : State, s.zlen = 64#32 → ∃ a, exec .zunscan s = .next a ∧ a.status.done = true ∧ a.status.err = s.status.err ∧
    ∀ (z : Bank 16) (n : Word), ∃ b, exec .zscan (accept { a with zs := z, zlen := n } (encode .zscan)) = .next b ∧
      b.status.done = true ∧ b.status.err = a.status.err ∧ b.zs.data = s.zs.data ∧ b.zlen = s.zlen)

/-! ### The run-length family -/

/-- R196, R199: RLENC with ZLEN ≤ 64 writes the one list of pairs that expands to the first ZLEN elements of ZS, has no
zero run-length and no two equal values in a row; pairs beyond it keep what they held; ZLEN > 64 faults with E_LEN. -/
def Obligations.RlencEncodesMaximalRuns : Prop :=
  ∀ s : State,
    (s.zlen.toNat ≤ 64 → ∃ (t : State) (runs : List (Half × Nat)), exec .rlenc s = .next t ∧
      (runs.flatMap fun p => List.replicate p.2 p.1) = s.zs.data.toList.take s.zlen.toNat ∧
      (∀ p ∈ runs, 1 ≤ p.2) ∧ (runs.IsChain fun p q => p.1 ≠ q.1) ∧
      t.rln.toNat = runs.length ∧
      (∀ k : Fin 64, ∀ h : k.val < runs.length, t.rlv.data[k] = runs[k.val].1 ∧ t.rlc.data[k].toNat = runs[k.val].2 ∧
        t.rlv.written[k] = true ∧ t.rlc.written[k] = true) ∧
      (∀ k : Fin 64, runs.length ≤ k.val → t.rlv.data[k] = s.rlv.data[k] ∧ t.rlc.data[k] = s.rlc.data[k] ∧
        t.rlv.written[k] = s.rlv.written[k] ∧ t.rlc.written[k] = s.rlc.written[k]) ∧
      t = { s with rlv := t.rlv, rlc := t.rlc, rln := t.rln, status := { s.status with busy := false, done := true } }) ∧
    (64 < s.zlen.toNat →
      exec .rlenc s = .next { s with status := { s.status with busy := false, err := true, ecode := 3#4 } })

/-- R198, R200: RLDEC with RLN ≤ 64 and run-lengths that sum to at most 64 writes the expansion of the pairs and its
length; elements beyond it keep what they held; otherwise E_LEN, or E_RLOVF. -/
def Obligations.RldecExpandsRuns : Prop :=
  ∀ s : State,
    let pairs := (s.rlv.data.toList.zip s.rlc.data.toList).take s.rln.toNat
    let total := (pairs.map fun p => p.2.toNat).sum
    let expansion := pairs.flatMap fun p => List.replicate p.2.toNat p.1
    (s.rln.toNat ≤ 64 → total ≤ 64 → ∃ t, exec .rldec s = .next t ∧
      t.zlen.toNat = total ∧
      (∀ k : Fin 64, ∀ h : k.val < expansion.length, t.zs.data[k] = expansion[k.val] ∧ t.zs.written[k] = true) ∧
      (∀ k : Fin 64, total ≤ k.val → t.zs.data[k] = s.zs.data[k] ∧ t.zs.written[k] = s.zs.written[k]) ∧
      t = { s with zs := t.zs, zlen := t.zlen, status := { s.status with busy := false, done := true } }) ∧
    (s.rln.toNat ≤ 64 → 64 < total →
      exec .rldec s = .next { s with status := { s.status with busy := false, err := true, ecode := 5#4 } }) ∧
    (64 < s.rln.toNat →
      exec .rldec s = .next { s with status := { s.status with busy := false, err := true, ecode := 3#4 } })

/-- R198, R201: RLDECB with RLN ≤ 64 and run-lengths that sum to exactly 64 fills ZS; otherwise E_LEN, or E_RUNSUM. -/
def Obligations.RldecbExpandsBlock : Prop :=
  ∀ s : State,
    let pairs := (s.rlv.data.toList.zip s.rlc.data.toList).take s.rln.toNat
    let total := (pairs.map fun p => p.2.toNat).sum
    (s.rln.toNat ≤ 64 → total = 64 → ∃ t, exec .rldecb s = .next t ∧
      t.zs.data.toList = (pairs.flatMap fun p => List.replicate p.2.toNat p.1) ∧
      (∀ k : Fin 64, t.zs.written[k] = true) ∧ t.zlen = 64#32 ∧
      t = { s with zs := t.zs, zlen := t.zlen, status := { s.status with busy := false, done := true } }) ∧
    (s.rln.toNat ≤ 64 → total ≠ 64 →
      exec .rldecb s = .next { s with status := { s.status with busy := false, err := true, ecode := 6#4 } }) ∧
    (64 < s.rln.toNat →
      exec .rldecb s = .next { s with status := { s.status with busy := false, err := true, ecode := 3#4 } })

/-- R197: the properties of enc(S). -/
def Obligations.EncodedRunProperties : Prop :=
  ∀ z : List Half,
    (∀ p ∈ enc z, 1 ≤ p.2 ∧ p.2 ≤ z.length) ∧
    ((enc z).IsChain fun p q => p.1 ≠ q.1) ∧
    ((enc z).map fun p => p.2).sum = z.length ∧
    (enc z).length ≤ z.length ∧
    ((enc z).length = 0 ↔ z.length = 0) ∧
    ((enc z).length = z.length ↔ z.IsChain fun a b => a ≠ b) ∧
    ((enc z).length = 1 ↔ z ≠ [] ∧ ∀ a ∈ z, ∀ b ∈ z, a = b)

/-- R202: dec(enc(S)) = S, with the three named cases; on the unit, with ZLEN ≤ 64 RLENC completes, and an RLDEC accepted after
it completes without fault and writes ZLEN and the first ZLEN elements of ZS as RLENC read them, whatever stands in ZS and
ZLEN by then; the converse holds exactly for the lists without zero run-lengths and equal neighbours. -/
def Obligations.RunLengthLaw : Prop :=
  (∀ z : List Half, dec (enc z) = z) ∧
  enc [] = [] ∧ enc [7#16] = [(7#16, 1)] ∧ enc [5#16, 5#16, 5#16, 5#16] = [(5#16, 4)] ∧
  (∀ runs : List (Half × Nat), enc (dec runs) = runs ↔ (∀ p ∈ runs, 1 ≤ p.2) ∧ runs.IsChain fun p q => p.1 ≠ q.1) ∧
  ∀ s : State, s.zlen.toNat ≤ 64 →
    ∃ a, exec .rlenc s = .next a ∧ a.status.done = true ∧ a.status.err = s.status.err ∧
      ∀ (z : Bank 16) (n : Word), ∃ b, exec .rldec (accept { a with zs := z, zlen := n } (encode .rldec)) = .next b ∧
        b.status.done = true ∧ b.status.err = a.status.err ∧
        b.zlen = s.zlen ∧ ∀ k : Fin 64, k.val < s.zlen.toNat → b.zs.data[k] = s.zs.data[k]

/-- R204: a quantized matrix with a nonzero DC coefficient and 63 zeros scans and encodes to (DC, 1), (0, 63); one with
all coefficients equal to the one pair (v, 64), and only such a matrix to one pair. -/
def Obligations.DcOnlyBlockHasTwoRuns : Prop :=
  (∀ s : State, s.qb.data[0] ≠ 0#16 → (∀ k : Fin 64, k ≠ 0 → s.qb.data[k] = 0#16) →
    ∃ a b, exec .zscan s = .next a ∧ exec .rlenc a = .next b ∧ b.rln = 2#32 ∧
      b.rlv.data[0] = s.qb.data[0] ∧ b.rlc.data[0] = 1#32 ∧ b.rlv.data[1] = 0#16 ∧ b.rlc.data[1] = 63#32) ∧
  (∀ (s : State) (v : Half), (∀ k : Fin 64, s.qb.data[k] = v) →
    ∃ a b, exec .zscan s = .next a ∧ exec .rlenc a = .next b ∧ b.rln = 1#32 ∧
      b.rlv.data[0] = v ∧ b.rlc.data[0] = 64#32) ∧
  ∀ s a b : State, exec .zscan s = .next a → exec .rlenc a = .next b → b.rln = 1#32 →
    ∀ k : Fin 64, s.qb.data[k] = s.qb.data[0]

/-! ### The fused family -/

/-- R221: ENCBLK. With a built matrix and finite PB it writes every stage of the chain, and nothing else changes but the
end of the command; otherwise E_QMINV, or E_NONFIN. MatrixInv is the invariant of StepKeepsInvariant. -/
def Obligations.EncblkRunsChain : Prop :=
  ∀ s : State,
    (MatrixInv s → s.factor ≠ 0#4 → AllFinite s.pb.data →
      ∃ (t : State) (runs : List (Half × Nat)), exec .encblk s = .next t ∧
      (∀ u v : Fin 8, entry t.cb.data u v =
        rn32 (∑ x : Fin 8, ∑ y : Fin 8, val refTable[u][x] * val (entry s.pb.data x y) * val refTable[v][y])) ∧
      (∀ k : Fin 64,
        (isInf t.cb.data[k] = true → t.qb.data[k].toInt = if f32Sign t.cb.data[k] then -32768 else 32767) ∧
        (isFinite t.cb.data[k] = true →
          t.qb.data[k].toInt = max (-32768) (min 32767 (rnd .rne (val (rn32 (val t.cb.data[k] / val s.qm.data[k]))))))) ∧
      (t.status.qsat = true ↔ s.status.qsat = true ∨ ∃ k : Fin 64, isInf t.cb.data[k] = true ∨
        rnd .rne (val (rn32 (val t.cb.data[k] / val s.qm.data[k]))) < -32768 ∨
        32767 < rnd .rne (val (rn32 (val t.cb.data[k] / val s.qm.data[k])))) ∧
      (∀ k : Fin 64, t.zs.data[k] = entry t.qb.data zzTable[k].1 zzTable[k].2) ∧ t.zlen = 64#32 ∧
      (runs.flatMap fun p => List.replicate p.2 p.1) = t.zs.data.toList ∧
      (∀ p ∈ runs, 1 ≤ p.2) ∧ (runs.IsChain fun p q => p.1 ≠ q.1) ∧ t.rln.toNat = runs.length ∧
      (∀ k : Fin 64, t.cb.written[k] = true ∧ t.qb.written[k] = true ∧ t.zs.written[k] = true) ∧
      (∀ k : Fin 64, ∀ h : k.val < runs.length, t.rlv.data[k] = runs[k.val].1 ∧ t.rlc.data[k].toNat = runs[k.val].2 ∧
        t.rlv.written[k] = true ∧ t.rlc.written[k] = true) ∧
      (∀ k : Fin 64, runs.length ≤ k.val → t.rlv.data[k] = s.rlv.data[k] ∧ t.rlc.data[k] = s.rlc.data[k] ∧
        t.rlv.written[k] = s.rlv.written[k] ∧ t.rlc.written[k] = s.rlc.written[k]) ∧
      t = { s with
        cb := t.cb, qb := t.qb, zs := t.zs, zlen := t.zlen, rlv := t.rlv, rlc := t.rlc, rln := t.rln
        status := { s.status with busy := false, done := true, qsat := t.status.qsat } }) ∧
    (s.factor = 0#4 →
      exec .encblk s = .next { s with status := { s.status with busy := false, err := true, ecode := 2#4 } }) ∧
    (s.factor ≠ 0#4 → ¬ AllFinite s.pb.data →
      exec .encblk s = .next { s with status := { s.status with busy := false, err := true, ecode := 7#4 } })

/-- R222: DECBLK. With a built matrix, RLN ≤ 64 and run-lengths that sum to 64 it writes every stage of the chain; otherwise
the lowest of E_QMINV, E_LEN, E_RUNSUM. -/
def Obligations.DecblkRunsChain : Prop :=
  ∀ s : State,
    let pairs := (s.rlv.data.toList.zip s.rlc.data.toList).take s.rln.toNat
    let total := (pairs.map fun p => p.2.toNat).sum
    (s.factor ≠ 0#4 → s.rln.toNat ≤ 64 → total = 64 → ∃ t, exec .decblk s = .next t ∧
      t.zs.data.toList = (pairs.flatMap fun p => List.replicate p.2.toNat p.1) ∧ t.zlen = 64#32 ∧
      (∀ k : Fin 64, entry t.qb.data zzTable[k].1 zzTable[k].2 = t.zs.data[k]) ∧
      (∀ k : Fin 64, t.cb.data[k] = rn32 ((t.qb.data[k].toInt : Rat) * val s.qm.data[k])) ∧
      (∀ x y : Fin 8, entry t.pb.data x y =
        rn32 (∑ u : Fin 8, ∑ v : Fin 8, val refTable[u][x] * val (entry t.cb.data u v) * val refTable[v][y])) ∧
      (∀ k : Fin 64, t.zs.written[k] = true ∧ t.qb.written[k] = true ∧ t.cb.written[k] = true ∧ t.pb.written[k] = true) ∧
      t = { s with
        zs := t.zs, zlen := t.zlen, qb := t.qb, cb := t.cb, pb := t.pb
        status := { s.status with busy := false, done := true } }) ∧
    (s.factor = 0#4 →
      exec .decblk s = .next { s with status := { s.status with busy := false, err := true, ecode := 2#4 } }) ∧
    (s.factor ≠ 0#4 → 64 < s.rln.toNat →
      exec .decblk s = .next { s with status := { s.status with busy := false, err := true, ecode := 3#4 } }) ∧
    (s.factor ≠ 0#4 → s.rln.toNat ≤ 64 → total ≠ 64 →
      exec .decblk s = .next { s with status := { s.status with busy := false, err := true, ecode := 6#4 } })

/-- R223, its first half: where ENCBLK completes without fault, FDCT, QUANT, ZSCAN and RLENC, each accepted and completed
in that order, reach the same state, but for the latched word, which nothing reads while BUSY = 0 (R40).
The latched word is set aside by log entry 17 (DEDUCED). -/
def Obligations.EncblkEqualsFourCommands : Prop :=
  ∀ s t : State, s.status.err = false → exec .encblk s = .next t → t.status.err = false →
    ∃ a b c d, exec .fdct (accept s (encode .fdct)) = .next a ∧ exec .quant (accept a (encode .quant)) = .next b ∧
      exec .zscan (accept b (encode .zscan)) = .next c ∧ exec .rlenc (accept c (encode .rlenc)) = .next d ∧
      a.status.err = false ∧ b.status.err = false ∧ c.status.err = false ∧
      d = { t with cmdw := encode .rlenc }

/-- R223, its second half: the same of DECBLK and RLDECB, ZUNSCAN, DEQUANT, IDCT. MatrixInv is the invariant of
StepKeepsInvariant: it keeps the dequantized coefficients finite.
The latched word is set aside by log entry 17 (DEDUCED). -/
def Obligations.DecblkEqualsFourCommands : Prop :=
  ∀ s t : State, MatrixInv s → s.status.err = false → exec .decblk s = .next t → t.status.err = false →
    ∃ a b c d, exec .rldecb (accept s (encode .rldecb)) = .next a ∧ exec .zunscan (accept a (encode .zunscan)) = .next b ∧
      exec .dequant (accept b (encode .dequant)) = .next c ∧ exec .idct (accept c (encode .idct)) = .next d ∧
      a.status.err = false ∧ b.status.err = false ∧ c.status.err = false ∧
      d = { t with cmdw := encode .idct }

/-- R224: what ENCBLK does depends on PB, QM and FACTOR only, and what DECBLK does on the run list (its first RLN pairs), QM
and FACTOR only: from two states that agree on these, both complete with the same fault, or both without fault and with
the same results. ENCBLK leaves equal QSAT equal (R27); DECBLK leaves QSAT alone. -/
def Obligations.BlockIndependence : Prop :=
  (∀ s t : State, s.pb.data = t.pb.data → s.qm.data = t.qm.data → s.factor = t.factor →
    ∃ s' t', exec .encblk s = .next s' ∧ exec .encblk t = .next t' ∧
      ((∃ e : BitVec 4, s' = { s with status := { s.status with busy := false, err := true, ecode := e } } ∧
          t' = { t with status := { t.status with busy := false, err := true, ecode := e } }) ∨
        (s'.status = { s.status with busy := false, done := true, qsat := s'.status.qsat } ∧
          t'.status = { t.status with busy := false, done := true, qsat := t'.status.qsat } ∧
          (s.status.qsat = t.status.qsat → s'.status.qsat = t'.status.qsat) ∧
          s'.cb = t'.cb ∧ s'.qb = t'.qb ∧ s'.zs = t'.zs ∧ s'.zlen = t'.zlen ∧ s'.rln = t'.rln ∧
          ∀ k : Fin 64, k.val < s'.rln.toNat → s'.rlv.data[k] = t'.rlv.data[k] ∧ s'.rlc.data[k] = t'.rlc.data[k]))) ∧
  (∀ s t : State, s.rln = t.rln →
    (∀ k : Fin 64, k.val < s.rln.toNat → s.rlv.data[k] = t.rlv.data[k] ∧ s.rlc.data[k] = t.rlc.data[k]) →
    s.qm.data = t.qm.data → s.factor = t.factor →
    ∃ s' t', exec .decblk s = .next s' ∧ exec .decblk t = .next t' ∧
      ((∃ e : BitVec 4, s' = { s with status := { s.status with busy := false, err := true, ecode := e } } ∧
          t' = { t with status := { t.status with busy := false, err := true, ecode := e } }) ∨
        (s'.status = { s.status with busy := false, done := true } ∧
          t'.status = { t.status with busy := false, done := true } ∧
          s'.pb = t'.pb ∧ s'.cb = t'.cb ∧ s'.qb = t'.qb ∧ s'.zs = t'.zs ∧ s'.zlen = t'.zlen)))

/-! ### Completion, faults and the step -/

/-- R27, R246, R249: every command's completion answers a next state. Either it is the fault entry alone, with a code
from 2 to 7; or BUSY <- 0, DONE <- 1, and beside these and QSAT (set by QUANT and ENCBLK only, never cleared) nothing
changes but the banks and registers the table of R27 names as the command's. -/
def Obligations.CompletionIsAllOrNothing : Prop :=
  ∀ (i : Instr) (s : State), ∃ t, exec i s = .next t ∧
    ((∃ e : BitVec 4, 2 ≤ e.toNat ∧ e.toNat ≤ 7 ∧
      t = { s with status := { s.status with busy := false, err := true, ecode := e } }) ∨
     (t.status = { s.status with busy := false, done := true, qsat := t.status.qsat } ∧
      (t.status.qsat = s.status.qsat ∨ (i = .quant ∨ i = .encblk) ∧ t.status.qsat = true) ∧
      (∀ (b : BankId) (k : Fin 64), b ∉ destinationBanks i →
        elemWord t b k = elemWord s b k ∧ elemWritten t b k = elemWritten s b k) ∧
      (t.factor = s.factor ∨ Place.factor ∈ destinationRegisters i) ∧
      (t.zlen = s.zlen ∨ Place.zlen ∈ destinationRegisters i) ∧
      (t.rln = s.rln ∨ Place.rln ∈ destinationRegisters i) ∧
      t.ctrl = s.ctrl ∧ t.factin = s.factin ∧ t.cmdw = s.cmdw ∧
      t.schedule = s.schedule ∧ t.reply = s.reply ∧ t.freeCount = s.freeCount))

/-- R295, R296: with a command pending, the core's move executes the command its latched word decodes to, on the state as
it is at that step; the step itself only takes the move off the schedule.
When the core moves is the model's schedule (log entry 6, DESIGN CHOICE). -/
def Obligations.StepRunsDecodedCommand : Prop :=
  ∀ (s : State) (i : Instr), s.status.busy = true → decode s.cmdw = .ok i →
    (s.schedule = [] → step s = exec i s) ∧
    (∀ rest, s.schedule = .core :: rest → step s = exec i { s with schedule := rest })

/-- R98, R296: an illegal word is accepted like any other; with one pending, the core's move is the fault entry with
ECODE = 1, and nothing else changes. When the core moves is the model's schedule (log entry 6, DESIGN CHOICE): first on
it, or nothing scheduled. -/
def Obligations.IllegalCommandFaults : Prop :=
  (∀ (s : State) (w : Word), s.status.busy = false → s.status.err = false → (∀ i : Instr, decode w ≠ .ok i) →
    memWrite s 0 w = { s with cmdw := w, status := { s.status with busy := true, done := false } }) ∧
  ∀ (s : State), s.status.busy = true → (∀ i : Instr, decode s.cmdw ≠ .ok i) →
    (s.schedule = [] →
      step s = .next { s with status := { s.status with busy := false, err := true, ecode := 1#4 } }) ∧
    (∀ rest, s.schedule = .core :: rest →
      step s = .next { s with
        schedule := rest, status := { s.status with busy := false, err := true, ecode := 1#4 } })

/-- R295: the other steps. An idle unit with nothing scheduled stays as it is; completion is not enabled while BUSY = 0; a
host transaction acts as MemRead or MemWrite; no step ends in a fault or a refusal of the model.
The schedule and the reply are the model's (log entries 6 and 9, DESIGN CHOICE). -/
def Obligations.StepFollowsSchedule : Prop :=
  ∀ (s : State),
    (s.schedule = [] → s.status.busy = false → step s = .next s) ∧
    (∀ rest, s.schedule = .core :: rest → s.status.busy = false → step s = .next { s with schedule := rest }) ∧
    (∀ a rest, s.schedule = .read a :: rest →
      ∃ t, step s = .next t ∧ t.reply = some (memRead { s with schedule := rest } a).1 ∧
        t = { (memRead { s with schedule := rest } a).2 with reply := t.reply }) ∧
    (∀ a d rest, s.schedule = .write a d :: rest → step s = .next (memWrite { s with schedule := rest } a d)) ∧
    ∃ t, step s = .next t

/-- R297: every accepted command completes. From a state with a command pending and no reset scheduled, the unit reaches
within one step more than the schedule's length a state with BUSY = 0, and no step on the way stops.
The schedule is the model's (log entry 6, DESIGN CHOICE). -/
def Obligations.PendingCommandCompletes : Prop :=
  ∀ s : State, s.status.busy = true → Event.reset ∉ s.schedule →
    ∃ n t, n ≤ s.schedule.length + 1 ∧ Host.Core.run core n s = .next t ∧ t.status.busy = false ∧
      (t.status.done = true ∨ t.status.err = true)

/-- R42, R280, R282: reset, from any state and at any time, leaves STATUS = 0, CTRL = 0, FACTIN = 5, FACTOR = 0, ZLEN = 0,
RLN = 0, no element marked written and irq = 0; power-up leaves the same. That a reset keeps the rest of the schedule is the
model's choice (log entry 9, DESIGN CHOICE). -/
def Obligations.ResetState : Prop :=
  (∀ (s : State) (rest : List Event), s.schedule = .reset :: rest → ∃ t, step s = .next t ∧
    t.status.word = 0#32 ∧ t.ctrl.word = 0#32 ∧ t.factin = 5#32 ∧ t.factor = 0#4 ∧ t.zlen = 0#32 ∧ t.rln = 0#32 ∧
    t.irq = false ∧ t.schedule = rest ∧
    ∀ (b : BankId) (k : Fin 64), elemWritten t b k = false) ∧
  State.reset.status.word = 0#32 ∧ State.reset.ctrl.word = 0#32 ∧ State.reset.factin = 5#32 ∧
  State.reset.factor = 0#4 ∧ State.reset.zlen = 0#32 ∧ State.reset.rln = 0#32 ∧ State.reset.irq = false ∧
  ∀ (b : BankId) (k : Fin 64), elemWritten State.reset b k = false

/-- R281: the matrix is not built after reset, and while it is not (FACTOR = 0) the four commands that need it fault with
E_QMINV; QBUILD right after reset builds it for the default factor 5. -/
def Obligations.MatrixMustBeBuiltAfterReset : Prop :=
  State.reset.factor = 0#4 ∧
  (∀ s : State, s.factor = 0#4 → ∀ i ∈ [Instr.quant, .dequant, .encblk, .decblk],
    exec i s = .next { s with status := { s.status with busy := false, err := true, ecode := 2#4 } }) ∧
  ∃ t, exec .qbuild State.reset = .next t ∧ t.status.done = true ∧ t.factor = 5#4 ∧
    ∀ k : Fin 64, t.qm.data[k] = rn32 (val bcu.qbase[k] * 5)

/-- R33, R37: the invariant holds after reset. -/
def Obligations.ResetSatisfiesInvariant : Prop := StateInv State.reset

/-- R33, R37, R241: every step keeps the invariant: BUSY, DONE and ERR exclude one another, ECODE is 0 or one of the seven
codes as ERR says, and FACTOR ≠ 0 means that QM is the matrix built for it. -/
def Obligations.StepKeepsInvariant : Prop :=
  ∀ s t : State, StateInv s → step s = .next t → StateInv t

/-- R29, U1, R298: a step that uses written elements only does not depend on what stands in the others: from two states
that agree on what has been written, it leads to two states that agree on it.
That such elements hold a free value is the model's treatment (log entry 2, DESIGN CHOICE). -/
def Obligations.UnwrittenElementsDoNotMatter : Prop :=
  ∀ s t s' t' : State, AgreeOnWritten s t → usesWritten s = true → step s = .next s' → step t = .next t' →
    AgreeOnWritten s' t'

/-! ### The window and the flags -/

/-- R33: the layout of the STATUS word. -/
def Obligations.StatusWordLayout : Prop :=
  ∀ s : Status,
    s.word.getLsbD 0 = s.busy ∧ s.word.getLsbD 1 = s.done ∧ s.word.getLsbD 2 = s.err ∧ s.word.getLsbD 3 = s.qsat ∧
    s.word.getLsbD 4 = s.herr ∧ s.word.extractLsb' 5 3 = 0#3 ∧ s.word.extractLsb' 8 4 = s.ecode ∧
    s.word.extractLsb' 12 20 = 0#20

/-- R62: MemRead. STATUS and CTRL read in every state with no side effect; anything else while BUSY = 1 sets HERR; a reserved
offset reads 0 and sets HERR; the rest reads as the address map says, with no side effect. That a refused read advances
freeCount is the model's choice (log entry 4, DESIGN CHOICE). -/
def Obligations.WindowReads : Prop :=
  ∀ s : State,
    memRead s 1 = (s.status.word, s) ∧ memRead s 2 = (s.ctrl.word, s) ∧
    (s.status.busy = true → ∀ a : WordOffset, a ≠ 1 → a ≠ 2 →
      (memRead s a).2 = { s with status := { s.status with herr := true }, freeCount := s.freeCount + 1 }) ∧
    (s.status.busy = false →
      (∀ a : WordOffset, (7 ≤ a.val ∧ a.val < 64) ∨ 512 ≤ a.val →
        memRead s a = (0#32, { s with status := { s.status with herr := true } })) ∧
      memRead s 0 = (0#32, s) ∧ memRead s 3 = (s.factin, s) ∧ memRead s 4 = (s.factor.setWidth 32, s) ∧
      memRead s 5 = (s.zlen, s) ∧ memRead s 6 = (s.rln, s) ∧
      ∀ (k : Fin 64) (a : WordOffset),
        (a.val = 64 + k.val → memRead s a = (s.pb.data[k], s)) ∧
        (a.val = 128 + k.val → memRead s a = (s.cb.data[k], s)) ∧
        (a.val = 192 + k.val → memRead s a = (s.qm.data[k], s)) ∧
        (a.val = 256 + k.val → memRead s a = (s.qb.data[k].signExtend 32, s)) ∧
        (a.val = 320 + k.val → memRead s a = (s.zs.data[k].signExtend 32, s)) ∧
        (a.val = 384 + k.val → memRead s a = (s.rlv.data[k].signExtend 32, s)) ∧
        (a.val = 448 + k.val → memRead s a = (s.rlc.data[k], s)))

/-- R63 case 1, R33, R34, R248: a write of STATUS clears exactly the flags whose bits are 1 in it, ERR with ECODE, and a
write of CTRL stores bits 1:0, in every state; nothing else changes. -/
def Obligations.ControlWrites : Prop :=
  ∀ (s : State) (d : Word),
    (∃ t, memWrite s 1 d = t ∧ t = { s with status := t.status } ∧
      t.status.busy = s.status.busy ∧
      (t.status.done = true ↔ s.status.done = true ∧ d.getLsbD 1 = false) ∧
      (t.status.err = true ↔ s.status.err = true ∧ d.getLsbD 2 = false) ∧
      (t.status.ecode = if d.getLsbD 2 then 0#4 else s.status.ecode) ∧
      (t.status.qsat = true ↔ s.status.qsat = true ∧ d.getLsbD 3 = false) ∧
      (t.status.herr = true ↔ s.status.herr = true ∧ d.getLsbD 4 = false)) ∧
    memWrite s 2 d = { s with ctrl := { ieDone := d.getLsbD 0, ieErr := d.getLsbD 1 } }

/-- R68: a write d of CMD when BUSY = 0: refused with HERR while ERR = 1; otherwise accepted, CMDW <- d, BUSY <- 1,
DONE <- 0 and no other change, whatever d is. -/
def Obligations.CommandAcceptance : Prop :=
  ∀ (s : State) (d : Word), s.status.busy = false →
    (s.status.err = true → memWrite s 0 d = { s with status := { s.status with herr := true } }) ∧
    (s.status.err = false → memWrite s 0 d = { s with cmdw := d, status := { s.status with busy := true, done := false } })

/-- R67, R296: while BUSY = 1 every transaction but on STATUS and CTRL only sets HERR, and after a refused one the pending
command completes in the state it would have completed in, but for the HERR that the transaction set. After a host write of
STATUS or CTRL it completes with the same fault, banks and registers; then CTRL and HERR are as that write left them, and
QSAT is 1 if that write left it so or the command itself sets it. That a refused read advances freeCount is the model's
choice (log entry 4, DESIGN CHOICE). -/
def Obligations.BusyWindowIsHarmless : Prop :=
  (∀ (s : State) (a : WordOffset) (d : Word), s.status.busy = true → a ≠ 1 → a ≠ 2 →
    memWrite s a d = { s with status := { s.status with herr := true } } ∧
    (memRead s a).2 = { s with status := { s.status with herr := true }, freeCount := s.freeCount + 1 }) ∧
  (∀ (s x : State) (i : Instr) (a : WordOffset) (d : Word), s.status.busy = true → a ≠ 1 → a ≠ 2 →
    exec i s = .next x →
    exec i (memWrite s a d) = .next { x with status := { x.status with herr := true } } ∧
    exec i (memRead s a).2 =
      .next { x with status := { x.status with herr := true }, freeCount := s.freeCount + 1 }) ∧
  (∀ (s x z : State) (i : Instr) (a : WordOffset) (d : Word), StatusInv s → s.status.busy = true → a = 1 ∨ a = 2 →
    exec i s = .next x → exec i { s with status := { s.status with qsat := false } } = .next z →
    exec i (memWrite s a d) = .next { x with
      ctrl := (memWrite s a d).ctrl
      status := { x.status with
        herr := (memWrite s a d).status.herr
        qsat := (memWrite s a d).status.qsat || z.status.qsat } })

/-- R69, R70: with BUSY = 0 a write of FACTOR, of an element of QM or of a reserved offset only sets HERR; a read of FACTOR
or QM is ordinary, and a read of a reserved offset returns 0 and sets HERR. -/
def Obligations.ReadOnlyWritesRefused : Prop :=
  ∀ (s : State) (a : WordOffset) (d : Word), s.status.busy = false →
    (a.val = 4 ∨ (192 ≤ a.val ∧ a.val < 256) →
      memWrite s a d = { s with status := { s.status with herr := true } } ∧ memRead s a = (peek s a, s)) ∧
    ((7 ≤ a.val ∧ a.val < 64) ∨ 512 ≤ a.val →
      memWrite s a d = { s with status := { s.status with herr := true } } ∧
      memRead s a = (0#32, { s with status := { s.status with herr := true } }))

/-- R28, R63, R74: with BUSY = 0, after a write of FACTIN, ZLEN, RLN or an element of PB, CB, QB, ZS, RLV or RLC, that
offset reads as the written word (a 16-bit element as its low half sign-extended), and every other offset as before. -/
def Obligations.ReadAfterWrite : Prop :=
  ∀ (s : State) (a : WordOffset) (d : Word), s.status.busy = false →
    (a.val = 3 ∨ a.val = 5 ∨ a.val = 6 ∨ (64 ≤ a.val ∧ a.val < 192) ∨ (256 ≤ a.val ∧ a.val < 512)) →
    (peek (memWrite s a d) a =
      if 256 ≤ a.val ∧ a.val < 448 then (d.extractLsb' 0 16).signExtend 32 else d) ∧
    ∀ b : WordOffset, b ≠ a → peek (memWrite s a d) b = peek s b

/-- R72: reading an offset twice in a row with BUSY = 0 returns the same word both times, and a read changes nothing the
host can read but HERR. -/
def Obligations.ReadsAreIdempotent : Prop :=
  ∀ (s : State) (a : WordOffset), s.status.busy = false →
    (memRead (memRead s a).2 a).1 = (memRead s a).1 ∧
    (∀ b : WordOffset, b ≠ 1 → peek (memRead s a).2 b = peek s b) ∧
    (memRead s a).2 = { s with status := { s.status with herr := (memRead s a).2.status.herr } }

/-- R247, R248: while ERR = 1 no command is accepted; the write of STATUS with bit 2 set clears ERR and ECODE and leaves
every bank and register, and then a command is accepted again. -/
def Obligations.FaultHaltsUntilCleared : Prop :=
  ∀ (s : State) (d c : Word), s.status.busy = false → s.status.err = true →
    (memWrite s 0 c).cmdw = s.cmdw ∧ (memWrite s 0 c).status.busy = false ∧ (memWrite s 0 c).status.herr = true ∧
    (d.getLsbD 2 = true →
      (memWrite s 1 d).status.err = false ∧ (memWrite s 1 d).status.ecode = 0#4 ∧
      memWrite s 1 d = { s with status := (memWrite s 1 d).status } ∧
      (memWrite (memWrite s 1 d) 0 c).status.busy = true ∧ (memWrite (memWrite s 1 d) 0 c).cmdw = c)

/-- R250, R251: the interrupt line, and that under the invariant its two sources are never pending together. -/
def Obligations.InterruptLine : Prop :=
  (∀ s : State, s.irq = true ↔
    (s.status.done = true ∧ s.ctrl.ieDone = true) ∨ (s.status.err = true ∧ s.ctrl.ieErr = true)) ∧
  ∀ s : State, StatusInv s → ¬ (s.status.done = true ∧ s.status.err = true)

/-- R101: the 64 writes of LD, scheduled for an idle unit, are 64 steps after which the bank (here PB, and the 16-bit RLV)
holds the operands' words, every element marked written, and nothing else has changed.
The schedule is the model's (log entry 6, DESIGN CHOICE). -/
def Obligations.LoadFillsBank : Prop :=
  ∀ (s : State) (vs : List Operand) (es : List Event), s.status.busy = false → vs.length = 64 →
    (expand 0 (.ld .pb vs) = some es → ∃ t, Host.Core.run core 64 { s with schedule := es } = .next t ∧
      t.pb.data.toList = vs.map operandWord ∧ (∀ k : Fin 64, t.pb.written[k] = true) ∧
      t = { s with pb := t.pb, schedule := [] }) ∧
    (expand 0 (.ld .rlv vs) = some es → ∃ t, Host.Core.run core 64 { s with schedule := es } = .next t ∧
      t.rlv.data.toList = vs.map (fun v => (operandWord v).extractLsb' 0 16) ∧
      (∀ k : Fin 64, t.rlv.written[k] = true) ∧ t = { s with rlv := t.rlv, schedule := [] })
end

