-- ==== Sys2Proof/Laws/State.lean ====
section
/-! SUPPORT. One lemma per field per update of the state and of STATUS, each true by rfl. -/

namespace Sys2Proof.Machine

/-! ### STATUS -/

@[simp] theorem Status.onAccept_busy (s : Status) : s.onAccept.busy = true := rfl
@[simp] theorem Status.onAccept_done (s : Status) : s.onAccept.done = false := rfl
@[simp] theorem Status.onAccept_err (s : Status) : s.onAccept.err = s.err := rfl
@[simp] theorem Status.onAccept_qsat (s : Status) : s.onAccept.qsat = s.qsat := rfl
@[simp] theorem Status.onAccept_herr (s : Status) : s.onAccept.herr = s.herr := rfl
@[simp] theorem Status.onAccept_ecode (s : Status) : s.onAccept.ecode = s.ecode := rfl

@[simp] theorem Status.onSuccess_busy (s : Status) : s.onSuccess.busy = false := rfl
@[simp] theorem Status.onSuccess_done (s : Status) : s.onSuccess.done = true := rfl
@[simp] theorem Status.onSuccess_err (s : Status) : s.onSuccess.err = s.err := rfl
@[simp] theorem Status.onSuccess_qsat (s : Status) : s.onSuccess.qsat = s.qsat := rfl
@[simp] theorem Status.onSuccess_herr (s : Status) : s.onSuccess.herr = s.herr := rfl
@[simp] theorem Status.onSuccess_ecode (s : Status) : s.onSuccess.ecode = s.ecode := rfl

@[simp] theorem Status.onFault_busy (s : Status) (e : ErrCode) : (s.onFault e).busy = false := rfl
@[simp] theorem Status.onFault_done (s : Status) (e : ErrCode) : (s.onFault e).done = s.done := rfl
@[simp] theorem Status.onFault_err (s : Status) (e : ErrCode) : (s.onFault e).err = true := rfl
@[simp] theorem Status.onFault_qsat (s : Status) (e : ErrCode) : (s.onFault e).qsat = s.qsat := rfl
@[simp] theorem Status.onFault_herr (s : Status) (e : ErrCode) : (s.onFault e).herr = s.herr := rfl
@[simp] theorem Status.onFault_ecode (s : Status) (e : ErrCode) : (s.onFault e).ecode = e.code := rfl

@[simp] theorem Status.onRefused_busy (s : Status) : s.onRefused.busy = s.busy := rfl
@[simp] theorem Status.onRefused_done (s : Status) : s.onRefused.done = s.done := rfl
@[simp] theorem Status.onRefused_err (s : Status) : s.onRefused.err = s.err := rfl
@[simp] theorem Status.onRefused_qsat (s : Status) : s.onRefused.qsat = s.qsat := rfl
@[simp] theorem Status.onRefused_herr (s : Status) : s.onRefused.herr = true := rfl
@[simp] theorem Status.onRefused_ecode (s : Status) : s.onRefused.ecode = s.ecode := rfl

@[simp] theorem Status.onSaturate_busy (s : Status) (sat : Bool) : (s.onSaturate sat).busy = s.busy := rfl
@[simp] theorem Status.onSaturate_done (s : Status) (sat : Bool) : (s.onSaturate sat).done = s.done := rfl
@[simp] theorem Status.onSaturate_err (s : Status) (sat : Bool) : (s.onSaturate sat).err = s.err := rfl
@[simp] theorem Status.onSaturate_qsat (s : Status) (sat : Bool) : (s.onSaturate sat).qsat = (s.qsat || sat) := rfl
@[simp] theorem Status.onSaturate_herr (s : Status) (sat : Bool) : (s.onSaturate sat).herr = s.herr := rfl
@[simp] theorem Status.onSaturate_ecode (s : Status) (sat : Bool) : (s.onSaturate sat).ecode = s.ecode := rfl

@[simp] theorem Status.writeOneToClear_busy (s : Status) (d : Word) : (s.writeOneToClear d).busy = s.busy := rfl
@[simp] theorem Status.writeOneToClear_done (s : Status) (d : Word) :
    (s.writeOneToClear d).done = (s.done && !d.getLsbD 1) := rfl
@[simp] theorem Status.writeOneToClear_err (s : Status) (d : Word) :
    (s.writeOneToClear d).err = (s.err && !d.getLsbD 2) := rfl
@[simp] theorem Status.writeOneToClear_qsat (s : Status) (d : Word) :
    (s.writeOneToClear d).qsat = (s.qsat && !d.getLsbD 3) := rfl
@[simp] theorem Status.writeOneToClear_herr (s : Status) (d : Word) :
    (s.writeOneToClear d).herr = (s.herr && !d.getLsbD 4) := rfl
@[simp] theorem Status.writeOneToClear_ecode (s : Status) (d : Word) :
    (s.writeOneToClear d).ecode = (if d.getLsbD 2 then 0#4 else s.ecode) := rfl

/-! ### The end of a command and the refusal of a transaction -/

@[simp] theorem succeed_cmdw (s : State) : (succeed s).cmdw = s.cmdw := rfl
@[simp] theorem succeed_status (s : State) : (succeed s).status = s.status.onSuccess := rfl
@[simp] theorem succeed_ctrl (s : State) : (succeed s).ctrl = s.ctrl := rfl
@[simp] theorem succeed_factin (s : State) : (succeed s).factin = s.factin := rfl
@[simp] theorem succeed_factor (s : State) : (succeed s).factor = s.factor := rfl
@[simp] theorem succeed_zlen (s : State) : (succeed s).zlen = s.zlen := rfl
@[simp] theorem succeed_rln (s : State) : (succeed s).rln = s.rln := rfl
@[simp] theorem succeed_pb (s : State) : (succeed s).pb = s.pb := rfl
@[simp] theorem succeed_cb (s : State) : (succeed s).cb = s.cb := rfl
@[simp] theorem succeed_qm (s : State) : (succeed s).qm = s.qm := rfl
@[simp] theorem succeed_qb (s : State) : (succeed s).qb = s.qb := rfl
@[simp] theorem succeed_zs (s : State) : (succeed s).zs = s.zs := rfl
@[simp] theorem succeed_rlv (s : State) : (succeed s).rlv = s.rlv := rfl
@[simp] theorem succeed_rlc (s : State) : (succeed s).rlc = s.rlc := rfl
@[simp] theorem succeed_schedule (s : State) : (succeed s).schedule = s.schedule := rfl
@[simp] theorem succeed_reply (s : State) : (succeed s).reply = s.reply := rfl
@[simp] theorem succeed_freeCount (s : State) : (succeed s).freeCount = s.freeCount := rfl

@[simp] theorem raiseFault_cmdw (e : ErrCode) (s : State) : (raiseFault e s).cmdw = s.cmdw := rfl
@[simp] theorem raiseFault_status (e : ErrCode) (s : State) : (raiseFault e s).status = s.status.onFault e := rfl
@[simp] theorem raiseFault_ctrl (e : ErrCode) (s : State) : (raiseFault e s).ctrl = s.ctrl := rfl
@[simp] theorem raiseFault_factin (e : ErrCode) (s : State) : (raiseFault e s).factin = s.factin := rfl
@[simp] theorem raiseFault_factor (e : ErrCode) (s : State) : (raiseFault e s).factor = s.factor := rfl
@[simp] theorem raiseFault_zlen (e : ErrCode) (s : State) : (raiseFault e s).zlen = s.zlen := rfl
@[simp] theorem raiseFault_rln (e : ErrCode) (s : State) : (raiseFault e s).rln = s.rln := rfl
@[simp] theorem raiseFault_pb (e : ErrCode) (s : State) : (raiseFault e s).pb = s.pb := rfl
@[simp] theorem raiseFault_cb (e : ErrCode) (s : State) : (raiseFault e s).cb = s.cb := rfl
@[simp] theorem raiseFault_qm (e : ErrCode) (s : State) : (raiseFault e s).qm = s.qm := rfl
@[simp] theorem raiseFault_qb (e : ErrCode) (s : State) : (raiseFault e s).qb = s.qb := rfl
@[simp] theorem raiseFault_zs (e : ErrCode) (s : State) : (raiseFault e s).zs = s.zs := rfl
@[simp] theorem raiseFault_rlv (e : ErrCode) (s : State) : (raiseFault e s).rlv = s.rlv := rfl
@[simp] theorem raiseFault_rlc (e : ErrCode) (s : State) : (raiseFault e s).rlc = s.rlc := rfl
@[simp] theorem raiseFault_schedule (e : ErrCode) (s : State) : (raiseFault e s).schedule = s.schedule := rfl
@[simp] theorem raiseFault_reply (e : ErrCode) (s : State) : (raiseFault e s).reply = s.reply := rfl
@[simp] theorem raiseFault_freeCount (e : ErrCode) (s : State) : (raiseFault e s).freeCount = s.freeCount := rfl

@[simp] theorem refuse_cmdw (s : State) : (refuse s).cmdw = s.cmdw := rfl
@[simp] theorem refuse_status (s : State) : (refuse s).status = s.status.onRefused := rfl
@[simp] theorem refuse_ctrl (s : State) : (refuse s).ctrl = s.ctrl := rfl
@[simp] theorem refuse_factin (s : State) : (refuse s).factin = s.factin := rfl
@[simp] theorem refuse_factor (s : State) : (refuse s).factor = s.factor := rfl
@[simp] theorem refuse_zlen (s : State) : (refuse s).zlen = s.zlen := rfl
@[simp] theorem refuse_rln (s : State) : (refuse s).rln = s.rln := rfl
@[simp] theorem refuse_pb (s : State) : (refuse s).pb = s.pb := rfl
@[simp] theorem refuse_cb (s : State) : (refuse s).cb = s.cb := rfl
@[simp] theorem refuse_qm (s : State) : (refuse s).qm = s.qm := rfl
@[simp] theorem refuse_qb (s : State) : (refuse s).qb = s.qb := rfl
@[simp] theorem refuse_zs (s : State) : (refuse s).zs = s.zs := rfl
@[simp] theorem refuse_rlv (s : State) : (refuse s).rlv = s.rlv := rfl
@[simp] theorem refuse_rlc (s : State) : (refuse s).rlc = s.rlc := rfl
@[simp] theorem refuse_schedule (s : State) : (refuse s).schedule = s.schedule := rfl
@[simp] theorem refuse_reply (s : State) : (refuse s).reply = s.reply := rfl
@[simp] theorem refuse_freeCount (s : State) : (refuse s).freeCount = s.freeCount := rfl

@[simp] theorem accept_cmdw (s : State) (d : Word) : (accept s d).cmdw = d := rfl
@[simp] theorem accept_status (s : State) (d : Word) : (accept s d).status = s.status.onAccept := rfl
@[simp] theorem accept_ctrl (s : State) (d : Word) : (accept s d).ctrl = s.ctrl := rfl
@[simp] theorem accept_factin (s : State) (d : Word) : (accept s d).factin = s.factin := rfl
@[simp] theorem accept_factor (s : State) (d : Word) : (accept s d).factor = s.factor := rfl
@[simp] theorem accept_zlen (s : State) (d : Word) : (accept s d).zlen = s.zlen := rfl
@[simp] theorem accept_rln (s : State) (d : Word) : (accept s d).rln = s.rln := rfl
@[simp] theorem accept_pb (s : State) (d : Word) : (accept s d).pb = s.pb := rfl
@[simp] theorem accept_cb (s : State) (d : Word) : (accept s d).cb = s.cb := rfl
@[simp] theorem accept_qm (s : State) (d : Word) : (accept s d).qm = s.qm := rfl
@[simp] theorem accept_qb (s : State) (d : Word) : (accept s d).qb = s.qb := rfl
@[simp] theorem accept_zs (s : State) (d : Word) : (accept s d).zs = s.zs := rfl
@[simp] theorem accept_rlv (s : State) (d : Word) : (accept s d).rlv = s.rlv := rfl
@[simp] theorem accept_rlc (s : State) (d : Word) : (accept s d).rlc = s.rlc := rfl
@[simp] theorem accept_schedule (s : State) (d : Word) : (accept s d).schedule = s.schedule := rfl
@[simp] theorem accept_reply (s : State) (d : Word) : (accept s d).reply = s.reply := rfl
@[simp] theorem accept_freeCount (s : State) (d : Word) : (accept s d).freeCount = s.freeCount := rfl

@[simp] theorem buildMatrix_cmdw (c : Config) (n : Int) (s : State) : (buildMatrix c n s).cmdw = s.cmdw := rfl
@[simp] theorem buildMatrix_status (c : Config) (n : Int) (s : State) : (buildMatrix c n s).status = s.status := rfl
@[simp] theorem buildMatrix_ctrl (c : Config) (n : Int) (s : State) : (buildMatrix c n s).ctrl = s.ctrl := rfl
@[simp] theorem buildMatrix_factin (c : Config) (n : Int) (s : State) : (buildMatrix c n s).factin = s.factin := rfl
@[simp] theorem buildMatrix_factor (c : Config) (n : Int) (s : State) :
    (buildMatrix c n s).factor = BitVec.ofInt 4 (clampf n) := rfl
@[simp] theorem buildMatrix_zlen (c : Config) (n : Int) (s : State) : (buildMatrix c n s).zlen = s.zlen := rfl
@[simp] theorem buildMatrix_rln (c : Config) (n : Int) (s : State) : (buildMatrix c n s).rln = s.rln := rfl
@[simp] theorem buildMatrix_pb (c : Config) (n : Int) (s : State) : (buildMatrix c n s).pb = s.pb := rfl
@[simp] theorem buildMatrix_cb (c : Config) (n : Int) (s : State) : (buildMatrix c n s).cb = s.cb := rfl
@[simp] theorem buildMatrix_qm (c : Config) (n : Int) (s : State) :
    (buildMatrix c n s).qm = Bank.fill (scaledBase c (clampf n)) := rfl
@[simp] theorem buildMatrix_qb (c : Config) (n : Int) (s : State) : (buildMatrix c n s).qb = s.qb := rfl
@[simp] theorem buildMatrix_zs (c : Config) (n : Int) (s : State) : (buildMatrix c n s).zs = s.zs := rfl
@[simp] theorem buildMatrix_rlv (c : Config) (n : Int) (s : State) : (buildMatrix c n s).rlv = s.rlv := rfl
@[simp] theorem buildMatrix_rlc (c : Config) (n : Int) (s : State) : (buildMatrix c n s).rlc = s.rlc := rfl
@[simp] theorem buildMatrix_schedule (c : Config) (n : Int) (s : State) :
    (buildMatrix c n s).schedule = s.schedule := rfl
@[simp] theorem buildMatrix_reply (c : Config) (n : Int) (s : State) : (buildMatrix c n s).reply = s.reply := rfl
@[simp] theorem buildMatrix_freeCount (c : Config) (n : Int) (s : State) :
    (buildMatrix c n s).freeCount = s.freeCount := rfl

@[simp] theorem writeSequence_cmdw (s : State) (z : List Half) : (writeSequence s z).cmdw = s.cmdw := rfl
@[simp] theorem writeSequence_status (s : State) (z : List Half) : (writeSequence s z).status = s.status := rfl
@[simp] theorem writeSequence_ctrl (s : State) (z : List Half) : (writeSequence s z).ctrl = s.ctrl := rfl
@[simp] theorem writeSequence_factin (s : State) (z : List Half) : (writeSequence s z).factin = s.factin := rfl
@[simp] theorem writeSequence_factor (s : State) (z : List Half) : (writeSequence s z).factor = s.factor := rfl
@[simp] theorem writeSequence_zlen (s : State) (z : List Half) :
    (writeSequence s z).zlen = BitVec.ofNat 32 z.length := rfl
@[simp] theorem writeSequence_rln (s : State) (z : List Half) : (writeSequence s z).rln = s.rln := rfl
@[simp] theorem writeSequence_pb (s : State) (z : List Half) : (writeSequence s z).pb = s.pb := rfl
@[simp] theorem writeSequence_cb (s : State) (z : List Half) : (writeSequence s z).cb = s.cb := rfl
@[simp] theorem writeSequence_qm (s : State) (z : List Half) : (writeSequence s z).qm = s.qm := rfl
@[simp] theorem writeSequence_qb (s : State) (z : List Half) : (writeSequence s z).qb = s.qb := rfl
@[simp] theorem writeSequence_zs (s : State) (z : List Half) : (writeSequence s z).zs = s.zs.fillPrefix z := rfl
@[simp] theorem writeSequence_rlv (s : State) (z : List Half) : (writeSequence s z).rlv = s.rlv := rfl
@[simp] theorem writeSequence_rlc (s : State) (z : List Half) : (writeSequence s z).rlc = s.rlc := rfl
@[simp] theorem writeSequence_schedule (s : State) (z : List Half) : (writeSequence s z).schedule = s.schedule := rfl
@[simp] theorem writeSequence_reply (s : State) (z : List Half) : (writeSequence s z).reply = s.reply := rfl
@[simp] theorem writeSequence_freeCount (s : State) (z : List Half) : (writeSequence s z).freeCount = s.freeCount := rfl

@[simp] theorem writeRuns_cmdw (s : State) (runs : List (Half × Nat)) : (writeRuns s runs).cmdw = s.cmdw := rfl
@[simp] theorem writeRuns_status (s : State) (runs : List (Half × Nat)) : (writeRuns s runs).status = s.status := rfl
@[simp] theorem writeRuns_ctrl (s : State) (runs : List (Half × Nat)) : (writeRuns s runs).ctrl = s.ctrl := rfl
@[simp] theorem writeRuns_factin (s : State) (runs : List (Half × Nat)) : (writeRuns s runs).factin = s.factin := rfl
@[simp] theorem writeRuns_factor (s : State) (runs : List (Half × Nat)) : (writeRuns s runs).factor = s.factor := rfl
@[simp] theorem writeRuns_zlen (s : State) (runs : List (Half × Nat)) : (writeRuns s runs).zlen = s.zlen := rfl
@[simp] theorem writeRuns_rln (s : State) (runs : List (Half × Nat)) :
    (writeRuns s runs).rln = BitVec.ofNat 32 runs.length := rfl
@[simp] theorem writeRuns_pb (s : State) (runs : List (Half × Nat)) : (writeRuns s runs).pb = s.pb := rfl
@[simp] theorem writeRuns_cb (s : State) (runs : List (Half × Nat)) : (writeRuns s runs).cb = s.cb := rfl
@[simp] theorem writeRuns_qm (s : State) (runs : List (Half × Nat)) : (writeRuns s runs).qm = s.qm := rfl
@[simp] theorem writeRuns_qb (s : State) (runs : List (Half × Nat)) : (writeRuns s runs).qb = s.qb := rfl
@[simp] theorem writeRuns_zs (s : State) (runs : List (Half × Nat)) : (writeRuns s runs).zs = s.zs := rfl
@[simp] theorem writeRuns_rlv (s : State) (runs : List (Half × Nat)) :
    (writeRuns s runs).rlv = s.rlv.fillPrefix (runs.map fun p => p.1) := rfl
@[simp] theorem writeRuns_rlc (s : State) (runs : List (Half × Nat)) :
    (writeRuns s runs).rlc = s.rlc.fillPrefix (runs.map fun p => BitVec.ofNat 32 p.2) := rfl
@[simp] theorem writeRuns_schedule (s : State) (runs : List (Half × Nat)) :
    (writeRuns s runs).schedule = s.schedule := rfl
@[simp] theorem writeRuns_reply (s : State) (runs : List (Half × Nat)) : (writeRuns s runs).reply = s.reply := rfl
@[simp] theorem writeRuns_freeCount (s : State) (runs : List (Half × Nat)) :
    (writeRuns s runs).freeCount = s.freeCount := rfl

end Sys2Proof.Machine
end

