-- ==== Sys2Proof/Laws/Banks.lean ====
section
/-! SUPPORT. Banks and matrices: what each operation of Machine/Operands.lean and Machine/Ops.lean leaves at each element. -/

namespace Sys2Proof.Machine

/-! ### Matrices -/

theorem linear_split (k : Fin 64) : linear ⟨k.val / 8, by omega⟩ ⟨k.val % 8, by omega⟩ = k := by
  apply Fin.ext; simp only [linear]; omega

theorem linear_injective (i j i' j' : Fin 8) (h : linear i j = linear i' j') : i = i' ∧ j = j' := by
  have := congrArg Fin.val h
  simp only [linear] at this
  constructor <;> apply Fin.ext <;> omega

@[simp] theorem entry_tabulate {α : Type} (f : Fin 8 → Fin 8 → α) (i j : Fin 8) : entry (tabulate f) i j = f i j := by
  simp only [entry, tabulate, linear, Fin.getElem_fin, Vector.getElem_ofFn]
  congr 1 <;> apply Fin.ext <;> simp only [] <;> omega

theorem entry_ofFn {α : Type} (f : Fin 64 → α) (i j : Fin 8) : entry (Vector.ofFn f) i j = f (linear i j) := by
  simp [entry]

theorem getElem_eq_entry {α : Type} (m : Mat α) (k : Fin 64) :
    m[k] = entry m ⟨k.val / 8, by omega⟩ ⟨k.val % 8, by omega⟩ := by
  simp only [entry, linear_split]

theorem someElem_iff {α : Type} (p : α → Bool) (m : Mat α) : someElem p m = true ↔ ∃ k : Fin 64, p m[k] = true := by
  simp [someElem]

theorem someElem_false_iff {α : Type} (p : α → Bool) (m : Mat α) :
    someElem p m = false ↔ ∀ k : Fin 64, p m[k] = false := by
  simp [someElem]

theorem mat_ext {α : Type} {a b : Mat α} (h : ∀ k : Fin 64, a[k] = b[k]) : a = b := by
  apply Vector.ext; intro i hi; exact h ⟨i, hi⟩

/-! ### Banks -/

@[simp] theorem fill_data {n : Nat} (v : Vector (BitVec n) 64) : (Bank.fill v).data = v := rfl

@[simp] theorem fill_written {n : Nat} (v : Vector (BitVec n) 64) (i : Nat) (h : i < 64) :
    (Bank.fill v).written[i] = true := by
  simp [Bank.fill]

theorem bank_eq_fill {n : Nat} (b : Bank n) (v : Vector (BitVec n) 64) (h : b.data = v)
    (hw : ∀ k : Fin 64, b.written[k] = true) : b = Bank.fill v := by
  cases b with
  | mk d w =>
    subst h
    have : w = Vector.replicate 64 true := mat_ext fun k => by simpa using hw k
    simp [Bank.fill, this]

theorem store_data {n : Nat} (b : Bank n) (k j : Fin 64) (v : BitVec n) :
    (b.store k v).data[j] = if j = k then v else b.data[j] := by
  simp only [Bank.store, Fin.getElem_fin, Vector.getElem_set]
  by_cases h : j = k
  · simp [h]
  · have : k.val ≠ j.val := fun e => h (Fin.ext e.symm)
    simp [h, this]

theorem store_written {n : Nat} (b : Bank n) (k j : Fin 64) (v : BitVec n) :
    (b.store k v).written[j] = (decide (j = k) || b.written[j]) := by
  simp only [Bank.store, Fin.getElem_fin, Vector.getElem_set]
  by_cases h : j = k
  · simp [h]
  · have : k.val ≠ j.val := fun e => h (Fin.ext e.symm)
    simp [h, this]

theorem fillPrefix_data_lt {n : Nat} (b : Bank n) (vs : List (BitVec n)) (k : Fin 64) (h : k.val < vs.length) :
    (b.fillPrefix vs).data[k] = vs[k.val] := by
  simp [Bank.fillPrefix, h]

theorem fillPrefix_data_ge {n : Nat} (b : Bank n) (vs : List (BitVec n)) (k : Fin 64) (h : vs.length ≤ k.val) :
    (b.fillPrefix vs).data[k] = b.data[k] := by
  simp [Bank.fillPrefix, h]

theorem fillPrefix_written {n : Nat} (b : Bank n) (vs : List (BitVec n)) (k : Fin 64) :
    (b.fillPrefix vs).written[k] = (decide (k.val < vs.length) || b.written[k]) := by
  simp [Bank.fillPrefix]

/-- A prefix of full length is a fill. -/
theorem fillPrefix_full {n : Nat} (b : Bank n) (v : Vector (BitVec n) 64) : b.fillPrefix v.toList = Bank.fill v := by
  apply bank_eq_fill
  · exact mat_ext fun k => by rw [fillPrefix_data_lt _ _ _ (by simp)]; simp
  · intro k; rw [fillPrefix_written]; simp

/-! ### The end of a command -/

theorem complete_ok (s t : State) : complete s (.ok t) = .next (succeed t) := rfl

theorem complete_error (s : State) (e : ErrCode) : complete s (.error e) = .next (raiseFault e s) := rfl

/-- Everything the completion of a command can answer: the fault entry on the state before it, or the success flags on
the state its pseudocode wrote. -/
theorem complete_cases (s t : State) (r : Except ErrCode State) (h : complete s r = .next t) :
    (∃ e, r = .error e ∧ t = raiseFault e s) ∨ ∃ u, r = .ok u ∧ t = succeed u := by
  cases r with
  | error e => exact .inl ⟨e, rfl, by simpa [complete] using h.symm⟩
  | ok u => exact .inr ⟨u, rfl, by simpa [complete] using h.symm⟩

end Sys2Proof.Machine
end

