-- ==== Sys2Proof/Laws/Window.lean ====
section
/-! SUPPORT. The address map and the two port transactions: where each offset lies, and everything a transaction can do. -/

namespace Sys2Proof.Machine

/-! ### The address map -/

@[simp] theorem placeAt_cmd : placeAt 0 = .cmd := rfl
@[simp] theorem placeAt_status : placeAt 1 = .status := rfl
@[simp] theorem placeAt_ctrl : placeAt 2 = .ctrl := rfl
@[simp] theorem placeAt_factin : placeAt 3 = .factin := rfl
@[simp] theorem placeAt_factor : placeAt 4 = .factor := rfl
@[simp] theorem placeAt_zlen : placeAt 5 = .zlen := rfl
@[simp] theorem placeAt_rln : placeAt 6 = .rln := rfl

/-- The offset of element k of a bank (R65). -/
def elemOffset (b : BankId) (k : Fin 64) : WordOffset :=
  ⟨bankBase b / 4 + k.val, by cases b <;> simp only [bankBase] <;> omega⟩

@[simp] theorem placeAt_elemOffset (b : BankId) (k : Fin 64) : placeAt (elemOffset b k) = .elem b k := by
  cases b <;> revert k <;> decide +kernel

/-- Every offset is one of the seven registers, reserved, or an element of a bank (R65). -/
theorem placeAt_cases (a : WordOffset) :
    (a = 0 ∨ a = 1 ∨ a = 2 ∨ a = 3 ∨ a = 4 ∨ a = 5 ∨ a = 6) ∨
    (((7 ≤ a.val ∧ a.val < 64) ∨ 512 ≤ a.val) ∧ placeAt a = .reserved) ∨ ∃ b k, a = elemOffset b k := by
  have small : ∀ n, ∀ h : n < 64, 7 ≤ n → placeAt ⟨n, by omega⟩ = .reserved := by decide +kernel
  have large : ∀ n, ∀ h : n < 512, placeAt ⟨512 + n, by omega⟩ = .reserved := by decide +kernel
  obtain ⟨a, ha⟩ := a
  by_cases h0 : a < 7
  · left; simp only [Fin.ext_iff]; simp; omega
  by_cases h1 : a < 64
  · right; left; exact ⟨.inl ⟨by simp; omega, h1⟩, small a h1 (by omega)⟩
  by_cases h2 : 512 ≤ a
  · right; left; refine ⟨.inr h2, ?_⟩
    have := large (a - 512) (by omega)
    simpa [Nat.add_sub_cancel' h2] using this
  right; right
  have hk : a % 64 < 64 := by omega
  have hp : a / 64 = 1 ∨ a / 64 = 2 ∨ a / 64 = 3 ∨ a / 64 = 4 ∨ a / 64 = 5 ∨ a / 64 = 6 ∨ a / 64 = 7 := by omega
  rcases hp with h | h | h | h | h | h | h
  · exact ⟨.pb, ⟨a % 64, hk⟩, Fin.ext (by simp [elemOffset, bankBase]; omega)⟩
  · exact ⟨.cb, ⟨a % 64, hk⟩, Fin.ext (by simp [elemOffset, bankBase]; omega)⟩
  · exact ⟨.qm, ⟨a % 64, hk⟩, Fin.ext (by simp [elemOffset, bankBase]; omega)⟩
  · exact ⟨.qb, ⟨a % 64, hk⟩, Fin.ext (by simp [elemOffset, bankBase]; omega)⟩
  · exact ⟨.zs, ⟨a % 64, hk⟩, Fin.ext (by simp [elemOffset, bankBase]; omega)⟩
  · exact ⟨.rlv, ⟨a % 64, hk⟩, Fin.ext (by simp [elemOffset, bankBase]; omega)⟩
  · exact ⟨.rlc, ⟨a % 64, hk⟩, Fin.ext (by simp [elemOffset, bankBase]; omega)⟩

theorem placeAt_status_iff (a : WordOffset) : placeAt a = .status ↔ a = 1 := by
  rcases placeAt_cases a with (h | h | h | h | h | h | h) | ⟨h, e⟩ | ⟨b, k, h⟩
  all_goals first | (subst h; simp) | skip
  · rw [e]; simp only [reduceCtorEq, false_iff]; rintro rfl; simp at h
  · simp only [Fin.ext_iff, elemOffset]
    cases b <;> simp [bankBase] <;> omega

theorem placeAt_ctrl_iff (a : WordOffset) : placeAt a = .ctrl ↔ a = 2 := by
  rcases placeAt_cases a with (h | h | h | h | h | h | h) | ⟨h, e⟩ | ⟨b, k, h⟩
  all_goals first | (subst h; simp) | skip
  · rw [e]; simp only [reduceCtorEq, false_iff]; rintro rfl; simp at h
  · simp only [Fin.ext_iff, elemOffset]
    cases b <;> simp [bankBase] <;> omega

/-- No two offsets share a place but the reserved ones: banks and registers are disjoint storage (R28). -/
theorem placeAt_injective (a b : WordOffset) (h : placeAt a = placeAt b) (hr : placeAt a ≠ .reserved) : a = b := by
  rcases placeAt_cases a with (e | e | e | e | e | e | e) | ⟨-, e⟩ | ⟨c, k, e⟩
  all_goals first | exact absurd e hr | skip
  all_goals rcases placeAt_cases b with (f | f | f | f | f | f | f) | ⟨-, f⟩ | ⟨c', k', f⟩
  all_goals first
    | (subst e; subst f; first | rfl | (simp at h))
    | (subst e; rw [f] at h; simp at h)
  obtain ⟨rfl, rfl⟩ := h; rfl

/-! ### The transactions -/

theorem memRead_status (s : State) : memRead s 1 = (s.status.word, s) := rfl

theorem memRead_ctrl (s : State) : memRead s 2 = (s.ctrl.word, s) := rfl

/-- A read of anything but STATUS and CTRL while BUSY = 1 (R62 case 2). -/
theorem memRead_busy (s : State) (a : WordOffset) (h : s.status.busy = true) (h1 : a ≠ 1) (h2 : a ≠ 2) :
    memRead s a = (Config.refusedRead s.freeCount, { refuse s with freeCount := s.freeCount + 1 }) := by
  have e1 : placeAt a ≠ .status := fun e => h1 ((placeAt_status_iff a).mp e)
  have e2 : placeAt a ≠ .ctrl := fun e => h2 ((placeAt_ctrl_iff a).mp e)
  unfold memRead
  split
  · exact absurd (by assumption) e1
  · exact absurd (by assumption) e2
  · simp [h]

/-- A read while BUSY = 0 (R62 cases 1, 3 and 4). -/
theorem memRead_idle (s : State) (a : WordOffset) (h : s.status.busy = false) :
    memRead s a = if placeAt a = .reserved then (0#32, refuse s) else (peek s a, s) := by
  unfold memRead peek
  split <;> rename_i e
  · simp [e, placeWord]
  · simp [e, placeWord]
  · simp [h]

/-- Everything a MemRead can do to the state: nothing, set HERR, or set HERR and use up a free value while BUSY = 1. -/
theorem memRead_cases (s : State) (a : WordOffset) :
    (memRead s a).2 = s ∨ (s.status.busy = false ∧ (memRead s a).2 = refuse s) ∨
    (s.status.busy = true ∧ (memRead s a).2 = { refuse s with freeCount := s.freeCount + 1 }) := by
  by_cases h1 : a = 1
  · subst h1; exact .inl rfl
  by_cases h2 : a = 2
  · subst h2; exact .inl rfl
  cases hb : s.status.busy
  · rw [memRead_idle s a hb]
    split <;> simp
  · rw [memRead_busy s a hb h1 h2]
    simp

theorem memWrite_status (s : State) (d : Word) : memWrite s 1 d = { s with status := s.status.writeOneToClear d } := rfl

theorem memWrite_ctrl (s : State) (d : Word) : memWrite s 2 d = { s with ctrl := Ctrl.ofWord d } := rfl

/-- A write of anything but STATUS and CTRL while BUSY = 1 (R63 case 2). -/
theorem memWrite_busy (s : State) (a : WordOffset) (d : Word) (h : s.status.busy = true) (h1 : a ≠ 1) (h2 : a ≠ 2) :
    memWrite s a d = refuse s := by
  have e1 : placeAt a ≠ .status := fun e => h1 ((placeAt_status_iff a).mp e)
  have e2 : placeAt a ≠ .ctrl := fun e => h2 ((placeAt_ctrl_iff a).mp e)
  unfold memWrite
  split
  · exact absurd (by assumption) e1
  · exact absurd (by assumption) e2
  · simp [h]

/-- A write of anything but STATUS and CTRL while BUSY = 0 (R63 cases 3 to 5). -/
theorem memWrite_idle (s : State) (a : WordOffset) (d : Word) (h : s.status.busy = false) (h1 : a ≠ 1) (h2 : a ≠ 2) :
    memWrite s a d = if (placeAt a).readOnly then refuse s else writePlace s (placeAt a) d := by
  have e1 : placeAt a ≠ .status := fun e => h1 ((placeAt_status_iff a).mp e)
  have e2 : placeAt a ≠ .ctrl := fun e => h2 ((placeAt_ctrl_iff a).mp e)
  unfold memWrite
  split
  · exact absurd (by assumption) e1
  · exact absurd (by assumption) e2
  · simp [h]

theorem memWrite_cmd (s : State) (d : Word) (h : s.status.busy = false) : memWrite s 0 d = writeCmd s d := by
  simp [memWrite, h, Place.readOnly, writePlace]

theorem memWrite_elem (s : State) (b : BankId) (k : Fin 64) (d : Word) (h : s.status.busy = false) :
    memWrite s (elemOffset b k) d = if b = .qm then refuse s else storeElem s b k d := by
  simp only [memWrite, placeAt_elemOffset, h]
  cases b <;> simp [Place.readOnly, writePlace]

/-- Everything a MemWrite can do: change STATUS or CTRL, accept a command, set HERR, store a register or an element. -/
theorem memWrite_cases (s : State) (a : WordOffset) (d : Word) :
    memWrite s a d = { s with status := s.status.writeOneToClear d } ∨
    memWrite s a d = { s with ctrl := Ctrl.ofWord d } ∨
    memWrite s a d = refuse s ∨
    (s.status.busy = false ∧ s.status.err = false ∧ a = 0 ∧ memWrite s a d = accept s d) ∨
    (s.status.busy = false ∧ (memWrite s a d = { s with factin := d } ∨ memWrite s a d = { s with zlen := d } ∨
      memWrite s a d = { s with rln := d } ∨ ∃ b k, b ≠ .qm ∧ memWrite s a d = storeElem s b k d)) := by
  by_cases h1 : a = 1
  · subst h1; exact .inl rfl
  by_cases h2 : a = 2
  · subst h2; exact .inr (.inl rfl)
  cases hb : s.status.busy
  · rw [memWrite_idle s a d hb h1 h2]
    rcases placeAt_cases a with (h | h | h | h | h | h | h) | ⟨-, e⟩ | ⟨b, k, h⟩
    · subst h
      cases he : s.status.err <;> simp [Place.readOnly, writePlace, writeCmd, he]
    · exact absurd h h1
    · exact absurd h h2
    · subst h; simp [Place.readOnly, writePlace]
    · subst h; simp [Place.readOnly]
    · subst h; simp [Place.readOnly, writePlace]
    · subst h; simp [Place.readOnly, writePlace]
    · simp [e, Place.readOnly]
    · subst h
      rw [placeAt_elemOffset]
      by_cases hq : b = .qm
      · subst hq; simp [Place.readOnly]
      · have ro : (Place.elem b k).readOnly = false := by cases b <;> simp_all [Place.readOnly]
        rw [ro]
        exact .inr (.inr (.inr (.inr ⟨rfl, .inr (.inr (.inr ⟨b, k, hq, rfl⟩))⟩)))
  · exact .inr (.inr (.inl (memWrite_busy s a d hb h1 h2)))

end Sys2Proof.Machine
end

