-- ==== Sys2Proof/Laws/Step.lean ====
section
/-! SUPPORT. Everything a step can do, said once: the completion of each command by its pseudocode, and the inversion of
`exec`, of the core's move and of `step`. -/

namespace Sys2Proof.Machine

/-- The pseudocode of each command with the parameters of BCU 1.0. -/
def pseudocode : Instr → State → Except ErrCode State
  | .fdct => fdct bcu
  | .idct => idct bcu
  | .qbuild => qbuild bcu
  | .qbuildi imm => qbuildi bcu imm
  | .quant => quant bcu
  | .dequant => dequant
  | .zscan => zscan bcu
  | .zunscan => zunscan bcu
  | .rlenc => rlenc
  | .rldec => rldec
  | .rldecb => rldecb
  | .encblk => encblk bcu
  | .decblk => decblk bcu

/-- Every command is the completion of its pseudocode. -/
theorem exec_eq_complete (i : Instr) (s : State) : exec i s = complete s (pseudocode i s) := by
  cases i <;> rfl

/-- Everything the completion of a command can answer. -/
theorem exec_cases (i : Instr) (s t : State) (h : exec i s = .next t) :
    (∃ e, pseudocode i s = .error e ∧ t = raiseFault e s) ∨ ∃ u, pseudocode i s = .ok u ∧ t = succeed u :=
  complete_cases s t _ (by rw [← exec_eq_complete, h])

/-- Everything the completion step can answer. -/
theorem completion_cases (s t : State) (h : completion s = .next t) :
    (∃ i, decode s.cmdw = .ok i ∧ exec i s = .next t) ∨
    ((∃ e, decode s.cmdw = .error e) ∧ t = raiseFault .illcmd s) := by
  unfold completion at h
  split at h
  · exact .inl ⟨_, by assumption, h⟩
  · exact .inr ⟨⟨_, by assumption⟩, by simpa using h.symm⟩

/-- Everything the core's move can answer. -/
theorem coreStep_cases (s t : State) (h : coreStep s = .next t) :
    (s.status.busy = false ∧ t = s) ∨ (s.status.busy = true ∧ completion s = .next t) := by
  unfold coreStep at h
  split at h
  · exact .inr ⟨by assumption, h⟩
  · exact .inl ⟨by simp_all, by simpa using h.symm⟩

/-- Everything a step can do: the core's move, a MemRead, a MemWrite, or a reset. -/
theorem step_cases (s t : State) (h : step s = .next t) :
    (s.schedule = [] ∧ coreStep s = .next t) ∨
    (∃ rest, s.schedule = .core :: rest ∧ coreStep { s with schedule := rest } = .next t) ∨
    (∃ a rest, s.schedule = .read a :: rest ∧ t = hostRead { s with schedule := rest } a) ∨
    (∃ a d rest, s.schedule = .write a d :: rest ∧ t = memWrite { s with schedule := rest } a d) ∨
    (∃ rest, s.schedule = .reset :: rest ∧ t = takeReset { s with schedule := rest }) := by
  unfold step at h
  split at h
  · exact .inl ⟨by assumption, h⟩
  · exact .inr (.inl ⟨_, by assumption, h⟩)
  · exact .inr (.inr (.inl ⟨_, _, by assumption, by simpa using h.symm⟩))
  · exact .inr (.inr (.inr (.inl ⟨_, _, _, by assumption, by simpa using h.symm⟩)))
  · exact .inr (.inr (.inr (.inr ⟨_, by assumption, by simpa using h.symm⟩)))

end Sys2Proof.Machine
end

