-- ==== Sys2Proof/Laws/Commands.lean ====
section
/-! SUPPORT. The pseudocode of each command that can fault, by cases: which check ends it, or which banks and registers it
writes. Also what follows for every command: a completed pseudocode touches neither the flags but QSAT nor the model's own
fields, and keeps the matrix and FACTOR in step. -/

namespace Sys2Proof.Machine

/-! ### One lemma per command -/

theorem fdct_cases (c : Config) (s : State) :
    (someElem (fun w => !isFinite w) s.pb.data = true ∧ fdct c s = .error .nonfin) ∨
    (someElem (fun w => !isFinite w) s.pb.data = false ∧ fdct c s = .ok { s with cb := Bank.fill (c.num.fdct s.pb.data) }) := by
  unfold fdct
  cases h : someElem (fun w => !isFinite w) s.pb.data <;> simp

theorem idct_cases (c : Config) (s : State) :
    (someElem (fun w => !isFinite w) s.cb.data = true ∧ idct c s = .error .nonfin) ∨
    (someElem (fun w => !isFinite w) s.cb.data = false ∧ idct c s = .ok { s with pb := Bank.fill (c.num.idct s.cb.data) }) := by
  unfold idct
  cases h : someElem (fun w => !isFinite w) s.cb.data <;> simp

theorem quant_cases (c : Config) (s : State) :
    (s.factor = 0#4 ∧ quant c s = .error .qminv) ∨
    (s.factor ≠ 0#4 ∧ someElem isNaN s.cb.data = true ∧ quant c s = .error .nonfin) ∨
    (s.factor ≠ 0#4 ∧ someElem isNaN s.cb.data = false ∧ quant c s = .ok { s with
      qb := Bank.fill (quantized c.rnd s.cb.data s.qm.data)
      status := s.status.onSaturate (saturates c.rnd s.cb.data s.qm.data) }) := by
  unfold quant
  by_cases hf : s.factor = 0#4
  · simp [hf]
  · cases h : someElem isNaN s.cb.data <;> simp [hf]

theorem dequant_cases (s : State) :
    (s.factor = 0#4 ∧ dequant s = .error .qminv) ∨
    (s.factor ≠ 0#4 ∧ dequant s = .ok { s with cb := Bank.fill (dequantized s.qb.data s.qm.data) }) := by
  unfold dequant
  by_cases hf : s.factor = 0#4 <;> simp [hf]

theorem zunscan_cases (c : Config) (s : State) :
    (u32 s.zlen ≠ 64 ∧ zunscan c s = .error .zlen) ∨
    (u32 s.zlen = 64 ∧ zunscan c s = .ok { s with qb := Bank.fill (unscan c.zz s.zs.data s.qb.data) }) := by
  unfold zunscan
  by_cases h : u32 s.zlen = 64 <;> simp [h]

theorem rlenc_cases (s : State) :
    (64 < u32 s.zlen ∧ rlenc s = .error .len) ∨
    (u32 s.zlen ≤ 64 ∧ rlenc s = .ok (writeRuns s (enc (sequence s.zs.data (u32 s.zlen))))) := by
  unfold rlenc
  by_cases h : 64 < u32 s.zlen
  · simp [h]
  · simp [h, Nat.le_of_not_lt h]

theorem rldec_cases (s : State) :
    (64 < u32 s.rln ∧ rldec s = .error .len) ∨
    (u32 s.rln ≤ 64 ∧ 64 < runTotal (heldRuns s) ∧ rldec s = .error .rlovf) ∨
    (u32 s.rln ≤ 64 ∧ runTotal (heldRuns s) ≤ 64 ∧ rldec s = .ok (writeSequence s (dec (heldRuns s)))) := by
  unfold rldec
  by_cases h : 64 < u32 s.rln
  · simp [h]
  · by_cases ht : 64 < runTotal (heldRuns s)
    · simp [h, ht, Nat.le_of_not_lt h]
    · simp [h, ht, Nat.le_of_not_lt h, Nat.le_of_not_lt ht]

theorem rldecb_cases (s : State) :
    (64 < u32 s.rln ∧ rldecb s = .error .len) ∨
    (u32 s.rln ≤ 64 ∧ runTotal (heldRuns s) ≠ 64 ∧ rldecb s = .error .runsum) ∨
    (u32 s.rln ≤ 64 ∧ runTotal (heldRuns s) = 64 ∧ rldecb s = .ok (writeSequence s (dec (heldRuns s)))) := by
  unfold rldecb
  by_cases h : 64 < u32 s.rln
  · simp [h]
  · by_cases ht : runTotal (heldRuns s) = 64 <;> simp [h, ht, Nat.le_of_not_lt h]

/-- The state ENCBLK writes (R221). -/
def encoded (c : Config) (s : State) : State :=
  let coef := c.num.fdct s.pb.data
  let n := quantized c.rnd coef s.qm.data
  writeRuns { s with
    cb := Bank.fill coef
    qb := Bank.fill n
    status := s.status.onSaturate (saturates c.rnd coef s.qm.data)
    zs := Bank.fill (scan c.zz n)
    zlen := 64#32 } (enc (sequence (scan c.zz n) 64))

/-- The state DECBLK writes (R222). -/
def decoded (c : Config) (s : State) : State :=
  let t := writeSequence s (dec (heldRuns s))
  let q := unscan c.zz t.zs.data s.qb.data
  let coef := dequantized q s.qm.data
  { t with qb := Bank.fill q, cb := Bank.fill coef, pb := Bank.fill (c.num.idct coef) }

theorem encblk_cases (c : Config) (s : State) :
    (s.factor = 0#4 ∧ encblk c s = .error .qminv) ∨
    (s.factor ≠ 0#4 ∧ someElem (fun w => !isFinite w) s.pb.data = true ∧ encblk c s = .error .nonfin) ∨
    (s.factor ≠ 0#4 ∧ someElem (fun w => !isFinite w) s.pb.data = false ∧ encblk c s = .ok (encoded c s)) := by
  unfold encblk encoded
  by_cases hf : s.factor = 0#4
  · simp [hf]
  · cases h : someElem (fun w => !isFinite w) s.pb.data <;> simp [hf]

theorem decblk_cases (c : Config) (s : State) :
    (s.factor = 0#4 ∧ decblk c s = .error .qminv) ∨
    (s.factor ≠ 0#4 ∧ 64 < u32 s.rln ∧ decblk c s = .error .len) ∨
    (s.factor ≠ 0#4 ∧ u32 s.rln ≤ 64 ∧ runTotal (heldRuns s) ≠ 64 ∧ decblk c s = .error .runsum) ∨
    (s.factor ≠ 0#4 ∧ u32 s.rln ≤ 64 ∧ runTotal (heldRuns s) = 64 ∧ decblk c s = .ok (decoded c s)) := by
  unfold decblk decoded
  by_cases hf : s.factor = 0#4
  · simp [hf]
  · by_cases h : 64 < u32 s.rln
    · simp [hf, h]
    · by_cases ht : runTotal (heldRuns s) = 64 <;> simp [hf, h, ht, Nat.le_of_not_lt h]

/-! ### What holds of every command -/

/-- The state that a command's pseudocode leaves where no check ends it. -/
def outcome : Instr → State → State
  | .fdct, s => { s with cb := Bank.fill (bcu.num.fdct s.pb.data) }
  | .idct, s => { s with pb := Bank.fill (bcu.num.idct s.cb.data) }
  | .qbuild, s => buildMatrix bcu (s32 s.factin) s
  | .qbuildi imm, s => buildMatrix bcu (s16 imm) s
  | .quant, s => { s with
      qb := Bank.fill (quantized bcu.rnd s.cb.data s.qm.data)
      status := s.status.onSaturate (saturates bcu.rnd s.cb.data s.qm.data) }
  | .dequant, s => { s with cb := Bank.fill (dequantized s.qb.data s.qm.data) }
  | .zscan, s => { s with zs := Bank.fill (scan bcu.zz s.qb.data), zlen := 64#32 }
  | .zunscan, s => { s with qb := Bank.fill (unscan bcu.zz s.zs.data s.qb.data) }
  | .rlenc, s => writeRuns s (enc (sequence s.zs.data (u32 s.zlen)))
  | .rldec, s => writeSequence s (dec (heldRuns s))
  | .rldecb, s => writeSequence s (dec (heldRuns s))
  | .encblk, s => encoded bcu s
  | .decblk, s => decoded bcu s

/-- A pseudocode that is not ended by a check leaves the outcome. -/
theorem pseudocode_ok (i : Instr) (s u : State) (h : pseudocode i s = .ok u) : u = outcome i s := by
  cases i <;> simp only [pseudocode] at h
  case fdct => have := fdct_cases bcu s; simp_all [outcome]
  case idct => have := idct_cases bcu s; simp_all [outcome]
  case qbuild => cases h; rfl
  case qbuildi => cases h; rfl
  case quant => have := quant_cases bcu s; simp_all [outcome]
  case dequant => have := dequant_cases s; simp_all [outcome]
  case zscan => cases h; rfl
  case zunscan => have := zunscan_cases bcu s; simp_all [outcome]
  case rlenc => have := rlenc_cases s; simp_all [outcome]
  case rldec => have := rldec_cases s; simp_all [outcome]
  case rldecb => have := rldecb_cases s; simp_all [outcome]
  case encblk => have := encblk_cases bcu s; simp_all [outcome]
  case decblk => have := decblk_cases bcu s; simp_all [outcome]

/-- What a completed pseudocode leaves alone, whatever the command (R27, R31, R36). -/
structure KeepsControl (s u : State) : Prop where
  cmdw : u.cmdw = s.cmdw
  busy : u.status.busy = s.status.busy
  done : u.status.done = s.status.done
  err : u.status.err = s.status.err
  herr : u.status.herr = s.status.herr
  ecode : u.status.ecode = s.status.ecode
  ctrl : u.ctrl = s.ctrl
  factin : u.factin = s.factin
  schedule : u.schedule = s.schedule
  reply : u.reply = s.reply
  freeCount : u.freeCount = s.freeCount

theorem outcome_keepsControl (i : Instr) (s : State) : KeepsControl s (outcome i s) := by
  cases i <;> constructor <;> simp [outcome, encoded, decoded]

/-- A command builds the matrix, or leaves QM and FACTOR alone (R26, R37). -/
theorem outcome_matrix (i : Instr) (s : State) :
    (∃ n, outcome i s = buildMatrix bcu n s) ∨ ((outcome i s).qm = s.qm ∧ (outcome i s).factor = s.factor) := by
  cases i
  case qbuild => exact .inl ⟨_, rfl⟩
  case qbuildi => exact .inl ⟨_, rfl⟩
  all_goals exact .inr (by simp [outcome, encoded, decoded])

/-- FACTOR after a build is the clamped factor (R37, R152). -/
theorem buildMatrix_clampedFactor (c : Config) (n : Int) (s : State) : ((buildMatrix c n s).factor.toNat : Int) = clampf n := by
  have h : 1 ≤ clampf n ∧ clampf n ≤ 15 := by simp only [clampf]; omega
  simp only [buildMatrix]
  generalize clampf n = f at h ⊢
  obtain ⟨h1, h2⟩ := h
  interval_cases f <;> rfl

end Sys2Proof.Machine
end

