-- ==== Sys2Proof/Laws/PerInstr.lean ====
section
/-! SUPPORT. Statements about every command as syntax, one lemma per constructor. -/

namespace Sys2Proof.Laws.EncodingFormat

/-- The three fields of a word laid out as imm16 ++ zero ++ op. -/
theorem fields_of_layout (imm : Half) (z o : BitVec 8) :
    immField (imm ++ z ++ o) = imm ∧ zeroField (imm ++ z ++ o) = z ∧ opField (imm ++ z ++ o) = o := by
  refine ⟨?_, ?_, ?_⟩ <;> apply BitVec.eq_of_getLsbD_eq <;> intro i hi <;>
    simp only [immField, zeroField, opField, BitVec.getLsbD_extractLsb', BitVec.getLsbD_append, hi, decide_true, Bool.true_and]
  · simp [show ¬ (16 + i < 8) by omega, show ¬ (16 + i - 8 < 8) by omega, show 16 + i - 8 - 8 = i by omega]
  · simp [show ¬ (8 + i < 8) by omega, hi]
  · simp [hi]

/-- R91, R92: the word of a command has its opcode in bits 7:0 and zeros in bits 15:8; a command of format C0 has
zeros in bits 31:16 too, the one of format CI its immediate; and the high hex digit of the opcode names the family (R94). -/
def Statement (i : Instr) : Prop :=
  opField (encode i) = i.opcode ∧ zeroField (encode i) = 0x00#8 ∧
  (i.format = .c0 → immField (encode i) = 0x0000#16) ∧
  (i.format = .ci → ∃ imm, i = .qbuildi imm ∧ immField (encode i) = imm) ∧
  (i.opcode.toNat / 16 = match i.family with
    | .transform => 0
    | .quantizer => 1
    | .zigzag => 2
    | .runLength => 3
    | .fused => 4)

/-- A command without operand. -/
theorem of_c0 (i : Instr) (hf : i.format = .c0) (hi : i.imm16 = 0x0000#16)
    (hd : i.opcode.toNat / 16 = match i.family with
      | .transform => 0
      | .quantizer => 1
      | .zigzag => 2
      | .runLength => 3
      | .fused => 4) : Statement i := by
  obtain ⟨h1, h2, h3⟩ := fields_of_layout i.imm16 0#8 i.opcode
  exact ⟨h3, h2, fun _ => h1.trans hi, fun h => by simp [hf] at h, hd⟩

theorem fdct : Statement .fdct := of_c0 _ rfl rfl rfl
theorem idct : Statement .idct := of_c0 _ rfl rfl rfl
theorem qbuild : Statement .qbuild := of_c0 _ rfl rfl rfl
theorem qbuildi (imm : Half) : Statement (.qbuildi imm) := by
  obtain ⟨h1, h2, h3⟩ := fields_of_layout imm 0#8 0x11#8
  exact ⟨h3, h2, fun h => by simp [Instr.format] at h, fun _ => ⟨imm, rfl, h1⟩, by simp [Instr.opcode, Instr.family]⟩
theorem quant : Statement .quant := of_c0 _ rfl rfl rfl
theorem dequant : Statement .dequant := of_c0 _ rfl rfl rfl
theorem zscan : Statement .zscan := of_c0 _ rfl rfl rfl
theorem zunscan : Statement .zunscan := of_c0 _ rfl rfl rfl
theorem rlenc : Statement .rlenc := of_c0 _ rfl rfl rfl
theorem rldec : Statement .rldec := of_c0 _ rfl rfl rfl
theorem rldecb : Statement .rldecb := of_c0 _ rfl rfl rfl
theorem encblk : Statement .encblk := of_c0 _ rfl rfl rfl
theorem decblk : Statement .decblk := of_c0 _ rfl rfl rfl

end Sys2Proof.Laws.EncodingFormat
end

