-- ==== Sys2Proof/Laws/Rounding.lean ====
section
/-! SUPPORT. binary32 and rounding: the value of a pattern, the grid of the finite magnitudes, and what RN32 and RND
answer (R120, R121, R153). -/

namespace Sys2Proof.Machine

/-! ### Rounding to an integer -/

/-- roundMag is a nearest natural number. -/
theorem roundMag_near (rule : TieRule) (n d : Nat) (hd : 0 < d) :
    2 * roundMag rule n d * d ≤ 2 * n + d ∧ 2 * n ≤ 2 * roundMag rule n d * d + d := by
  have h1 := Nat.div_add_mod n d
  have h2 := Nat.mod_lt n hd
  generalize hq : n / d = q at *
  generalize hr : n % d = r at *
  have key : ∀ m, m = q ∧ 2 * r ≤ d ∨ m = q + 1 ∧ d ≤ 2 * r → 2 * m * d ≤ 2 * n + d ∧ 2 * n ≤ 2 * m * d + d := by
    rintro m (⟨rfl, h⟩ | ⟨rfl, h⟩) <;> subst h1 <;> constructor <;> nlinarith
  apply key
  unfold roundMag
  rw [hq, hr]
  split
  · left; exact ⟨rfl, by omega⟩
  · split
    · right; exact ⟨rfl, by omega⟩
    · cases rule
      · dsimp only; split
        · left; exact ⟨rfl, by omega⟩
        · right; exact ⟨rfl, by omega⟩
      · right; exact ⟨rfl, by omega⟩

/-- Half way between two integers the rule decides. -/
theorem roundMag_tie (rule : TieRule) (n d : Nat) (hd : 0 < d)
    (h : 2 * roundMag rule n d * d = 2 * n + d ∨ 2 * n = 2 * roundMag rule n d * d + d) :
    (rule = .rne → roundMag rule n d % 2 = 0) ∧ (rule = .rha → n < roundMag rule n d * d) := by
  have h1 := Nat.div_add_mod n d
  have h2 := Nat.mod_lt n hd
  unfold roundMag at h ⊢
  generalize hq : n / d = q at *
  generalize hr : n % d = r at *
  subst h1
  by_cases c1 : 2 * r < d
  · exfalso; simp only [c1, if_true] at h
    rcases h with h | h <;> nlinarith
  by_cases c2 : d < 2 * r
  · exfalso; simp only [c1, c2, if_true, if_false] at h
    rcases h with h | h <;> nlinarith
  simp only [c1, c2, if_false] at h ⊢
  cases rule
  · simp only [true_implies, reduceCtorEq, false_implies, and_true]
    split <;> omega
  · simp only [reduceCtorEq, false_implies, true_implies, true_and]
    nlinarith

/-! ### The grid of magnitudes -/

/-- The magnitude of the pattern with its sign bit taken off, in units of 2^-149. -/
def patternMag (p : Nat) : Nat :=
  if p / 2 ^ 23 = 0 then p % 2 ^ 23 else (2 ^ 23 + p % 2 ^ 23) * 2 ^ (p / 2 ^ 23 - 1)

theorem f32Exp_eq (w : Word) : f32Exp w = w.toNat % 2 ^ 31 / 2 ^ 23 := by
  simp only [f32Exp, BitVec.extractLsb'_toNat, Nat.shiftRight_eq_div_pow]; omega

theorem f32Frac_eq (w : Word) : f32Frac w = w.toNat % 2 ^ 31 % 2 ^ 23 := by
  simp only [f32Frac, BitVec.extractLsb'_toNat, Nat.shiftRight_eq_div_pow]; omega

theorem f32Mag_eq (w : Word) : f32Mag w = patternMag (w.toNat % 2 ^ 31) := by
  simp only [f32Mag, patternMag, f32Exp_eq, f32Frac_eq]

theorem f32Sign_eq (w : Word) : f32Sign w = decide (2 ^ 31 ≤ w.toNat) := by
  simp [f32Sign, BitVec.msb_eq_decide]

theorem isFinite_iff (w : Word) : isFinite w = true ↔ w.toNat % 2 ^ 31 < 0x7F800000 := by
  simp only [isFinite, f32Exp_eq, bne_iff_ne, ne_eq]; omega

/-- A significand m at the unit 2^Q lies on the grid where the pattern Q·2^23 + m says, a carry included. -/
theorem patternMag_layout (Q m : Nat) (hm : m ≤ 2 ^ 24) (hQ : Q = 0 ∨ 2 ^ 23 ≤ m) :
    patternMag (Q * 2 ^ 23 + m) = m * 2 ^ Q := by
  unfold patternMag
  by_cases h : m < 2 ^ 23
  · obtain rfl : Q = 0 := by omega
    rw [Nat.zero_mul, Nat.zero_add, if_pos (Nat.div_eq_of_lt h), Nat.mod_eq_of_lt h, pow_zero, mul_one]
  by_cases h' : m = 2 ^ 24
  · subst h'
    have e1 : (Q * 2 ^ 23 + 2 ^ 24) / 2 ^ 23 = Q + 2 := by omega
    have e2 : (Q * 2 ^ 23 + 2 ^ 24) % 2 ^ 23 = 0 := by omega
    rw [e1, e2, if_neg (by omega), show Q + 2 - 1 = Q + 1 by omega, pow_succ 2 Q]; ring
  · have e1 : (Q * 2 ^ 23 + m) / 2 ^ 23 = Q + 1 := by omega
    have e2 : (Q * 2 ^ 23 + m) % 2 ^ 23 = m - 2 ^ 23 := by omega
    rw [e1, e2, if_neg (by omega), Nat.add_sub_cancel' (by omega), Nat.add_sub_cancel]

/-- Every pattern is such a layout. -/
theorem pattern_layout (p : Nat) : ∃ Q m, p = Q * 2 ^ 23 + m ∧ m < 2 ^ 24 ∧ (Q = 0 ∨ 2 ^ 23 ≤ m) := by
  by_cases h : p < 2 ^ 23
  · exact ⟨0, p, by omega, by omega, .inl rfl⟩
  · exact ⟨p / 2 ^ 23 - 1, p % 2 ^ 23 + 2 ^ 23, by omega, by omega, .inr (by omega)⟩

/-- The value of a finite pattern: its sign and its magnitude. -/
theorem val_eq (w : Word) (h : isFinite w = true) :
    val w = (if f32Sign w then -1 else 1) * (f32Mag w : Rat) / 2 ^ 149 := by
  rw [val, if_pos h, Rat.mkRat_eq_div]
  split <;> push_cast <;> ring

theorem abs_val (w : Word) (h : isFinite w = true) : |val w| = (f32Mag w : Rat) / 2 ^ 149 := by
  rw [val_eq w h, abs_div, abs_mul]
  split <;> simp

/-! ### RN32 -/

/-- floorLog2 is the binary exponent of n/d. -/
theorem floorLog2_spec (n d : Nat) (hn : 0 < n) (hd : 0 < d) :
    (2 : Rat) ^ floorLog2 n d ≤ n / d ∧ (n : Rat) / d < 2 ^ (floorLog2 n d + 1) := by
  have n1 : ((2 ^ n.log2 : Nat) : Rat) ≤ n := by exact_mod_cast Nat.log2_self_le (by omega)
  have n2 : (n : Rat) < ((2 ^ (n.log2 + 1) : Nat) : Rat) := by exact_mod_cast Nat.lt_log2_self
  have d1 : ((2 ^ d.log2 : Nat) : Rat) ≤ d := by exact_mod_cast Nat.log2_self_le (by omega)
  have d2 : (d : Rat) < ((2 ^ (d.log2 + 1) : Nat) : Rat) := by exact_mod_cast Nat.lt_log2_self
  push_cast at n1 n2 d1 d2
  have dp : (0 : Rat) < d := by exact_mod_cast hd
  have np : (0 : Rat) < n := by exact_mod_cast hn
  have up : (n : Rat) / d < 2 ^ ((n.log2 : Int) - d.log2 + 1) := by
    rw [div_lt_iff₀ dp]
    calc (n : Rat) < 2 ^ (n.log2 + 1) := n2
      _ = 2 ^ ((n.log2 : Int) - d.log2 + 1) * 2 ^ d.log2 := by
        rw [← zpow_natCast, ← zpow_natCast, ← zpow_add₀ (by norm_num)]; congr 1; push_cast; ring
      _ ≤ _ := by gcongr
  have lo : (2 : Rat) ^ ((n.log2 : Int) - d.log2 - 1) ≤ n / d := by
    rw [le_div_iff₀ dp]
    calc (2 : Rat) ^ ((n.log2 : Int) - d.log2 - 1) * d
        ≤ 2 ^ ((n.log2 : Int) - d.log2 - 1) * 2 ^ (d.log2 + 1) := by gcongr
      _ = 2 ^ n.log2 := by
        rw [← zpow_natCast, ← zpow_natCast, ← zpow_add₀ (by norm_num)]; congr 1; push_cast; ring
      _ ≤ n := n1
  have test : d * 2 ^ ((n.log2 : Int) - d.log2).toNat ≤ n * 2 ^ (-((n.log2 : Int) - d.log2)).toNat ↔
      (2 : Rat) ^ ((n.log2 : Int) - d.log2) ≤ n / d := by
    generalize (n.log2 : Int) - d.log2 = k
    rw [le_div_iff₀ dp, ← @Nat.cast_le Rat]
    push_cast
    have e : (2 : Rat) ^ k * 2 ^ (-k).toNat = 2 ^ k.toNat := by
      rw [← zpow_natCast, ← zpow_natCast, ← zpow_add₀ (by norm_num)]; congr 1; omega
    rw [← e]
    have p : (0 : Rat) < 2 ^ (-k).toNat := by positivity
    constructor
    · intro h; nlinarith
    · intro h; nlinarith
  unfold floorLog2
  dsimp only
  split
  · rename_i h; exact ⟨test.mp h, up⟩
  · rename_i h; rw [test, not_le] at h; exact ⟨lo, by simpa using h⟩

/-- What rn32Mag answers for x = n/d in units of 2^-149: a significand m at a unit 2^Q within half a unit of x, the even
one on a tie, and x above the binade's floor; the infinity where the layout runs past the finite patterns. -/
theorem rn32Mag_spec (n d : Nat) (hn : 0 < n) (hd : 0 < d) :
    ∃ Q m : Nat, rn32Mag n d = min (Q * 2 ^ 23 + m) 0x7F800000 ∧ m ≤ 2 ^ 24 ∧ (Q = 0 ∨ 2 ^ 23 ≤ m) ∧
      |(n : Rat) / d * 2 ^ 149 - m * 2 ^ Q| ≤ 2 ^ Q / 2 ∧
      (|(n : Rat) / d * 2 ^ 149 - m * 2 ^ Q| = 2 ^ Q / 2 → m % 2 = 0) ∧
      (Q = 0 ∨ 2 ^ 23 * 2 ^ Q ≤ (n : Rat) / d * 2 ^ 149) ∧ (n : Rat) / d * 2 ^ 149 < 2 ^ 24 * 2 ^ Q := by
  obtain ⟨l, u⟩ := floorLog2_spec n d hn hd
  have dp : (0 : Rat) < d := by exact_mod_cast hd
  generalize hq : max (floorLog2 n d - 23) (-149) = q
  have hq1 : -149 ≤ q := by omega
  obtain ⟨Q, hQ⟩ : ∃ Q : Nat, q = (Q : Int) - 149 := ⟨(q + 149).toNat, by omega⟩
  generalize hA : n * 2 ^ (-q).toNat = A
  generalize hD : d * 2 ^ q.toNat = D
  have Dp : 0 < D := by rw [← hD]; positivity
  have Dp' : (0 : Rat) < D := by exact_mod_cast Dp
  -- the quotient that is rounded
  have quot : (A : Rat) / D * 2 ^ Q = (n : Rat) / d * 2 ^ 149 := by
    rw [← hA, ← hD]; push_cast
    have e : (2 : Rat) ^ (-q).toNat * 2 ^ Q = 2 ^ 149 * 2 ^ q.toNat := by
      rw [← pow_add, ← pow_add]; congr 1; omega
    rw [div_mul_eq_mul_div, div_mul_eq_mul_div, div_eq_div_iff (by positivity) (by positivity)]
    linear_combination (n : Rat) * d * e
  have Qp : (0 : Rat) < 2 ^ Q := by positivity
  have near := roundMag_near .rne A D Dp
  have tie := (roundMag_tie .rne A D Dp)
  have up : (n : Rat) / d * 2 ^ 149 < 2 ^ 24 * 2 ^ Q := by
    have : (2 : Rat) ^ (floorLog2 n d + 1) ≤ 2 ^ (q + 24) := zpow_le_zpow_right₀ (by norm_num) (by omega)
    have e : (2 : Rat) ^ (q + 24) * 2 ^ 149 = 2 ^ 24 * 2 ^ Q := by
      rw [hQ, ← zpow_natCast (2 : Rat) 149, ← zpow_natCast (2 : Rat) 24, ← zpow_natCast (2 : Rat) Q,
        ← zpow_add₀ (by norm_num), ← zpow_add₀ (by norm_num)]
      congr 1; push_cast; ring
    rw [← e]; have := lt_of_lt_of_le u this; nlinarith [pow_pos (show (0:Rat) < 2 by norm_num) 149]
  have lo : Q = 0 ∨ 2 ^ 23 * 2 ^ Q ≤ (n : Rat) / d * 2 ^ 149 := by
    by_cases h : Q = 0
    · exact .inl h
    · right
      have hf : floorLog2 n d - 23 = q := by omega
      have e : (2 : Rat) ^ (q + 23) * 2 ^ 149 = 2 ^ 23 * 2 ^ Q := by
        rw [hQ, ← zpow_natCast (2 : Rat) 149, ← zpow_natCast (2 : Rat) 23, ← zpow_natCast (2 : Rat) Q,
          ← zpow_add₀ (by norm_num), ← zpow_add₀ (by norm_num)]
        congr 1; push_cast; ring
      have hl : (2 : Rat) ^ (q + 23) ≤ n / d := by rw [← hf]; simpa using l
      rw [← e]; exact mul_le_mul_of_nonneg_right hl (by positivity)
  rw [← quot] at up lo
  have near1 : 2 * (roundMag .rne A D : Rat) * D ≤ 2 * A + D := by exact_mod_cast near.1
  have near2 : 2 * (A : Rat) ≤ 2 * roundMag .rne A D * D + D := by exact_mod_cast near.2
  have quot' : (A : Rat) / D * D = A := by field_simp
  have layout : rn32Mag n d = min (Q * 2 ^ 23 + roundMag .rne A D) 0x7F800000 := by
    unfold rn32Mag; dsimp only; rw [hq, hA, hD]; congr 3; omega
  rw [← quot]
  generalize (A : Rat) / D = x at *
  have n1 : (roundMag .rne A D : Rat) ≤ x + 1 / 2 := by
    rw [← quot'] at near1; nlinarith
  have n2 : x ≤ roundMag .rne A D + 1 / 2 := by
    rw [← quot'] at near2; nlinarith
  have up' : x < 2 ^ 24 := lt_of_mul_lt_mul_right up Qp.le
  refine ⟨Q, roundMag .rne A D, layout, ?_, ?_, ?_, ?_, lo, up⟩
  · have : (roundMag .rne A D : Rat) < 2 ^ 24 + 1 := by linarith
    have : roundMag .rne A D < 2 ^ 24 + 1 := by exact_mod_cast this
    omega
  · rcases lo with h | h
    · exact .inl h
    · right
      have h' : (2 : Rat) ^ 23 ≤ x := le_of_mul_le_mul_right h Qp
      have : (2 : Rat) ^ 23 - 1 < roundMag .rne A D := by linarith
      have : (2 : Rat) ^ 23 < roundMag .rne A D + 1 := by linarith
      have : 2 ^ 23 < roundMag .rne A D + 1 := by exact_mod_cast this
      omega
  · rw [← sub_mul, abs_mul, abs_of_pos Qp]
    have : |x - roundMag .rne A D| ≤ 1 / 2 := by rw [abs_le]; constructor <;> linarith
    nlinarith
  · intro h
    rw [← sub_mul, abs_mul, abs_of_pos Qp] at h
    have h' : |x - roundMag .rne A D| = 1 / 2 := by
      have : |x - roundMag .rne A D| * 2 ^ Q = 1 / 2 * 2 ^ Q := by linarith
      exact mul_right_cancel₀ Qp.ne' this
    refine (tie ?_).1 rfl
    rcases (abs_eq (by norm_num)).mp h' with e | e
    · right
      have : 2 * (A : Rat) = 2 * roundMag .rne A D * D + D := by rw [← quot']; rw [sub_eq_iff_eq_add] at e; rw [e]; ring
      exact_mod_cast this
    · left
      have : 2 * (roundMag .rne A D : Rat) * D = 2 * A + D := by rw [← quot']; rw [sub_eq_iff_eq_add] at e; rw [e]; ring
      exact_mod_cast this

theorem rn32_zero : rn32 0 = 0#32 := rfl

/-- What RN32 answers for a nonzero real: r's sign, and for |r| in units of 2^-149 the layout of `rn32Mag_spec`. -/
theorem rn32_spec (r : Rat) (hr : r ≠ 0) :
    ∃ Q m : Nat, (rn32 r).toNat = (if r < 0 then 2 ^ 31 else 0) + min (Q * 2 ^ 23 + m) 0x7F800000 ∧
      m ≤ 2 ^ 24 ∧ (Q = 0 ∨ 2 ^ 23 ≤ m) ∧
      |(|r| * 2 ^ 149 - m * 2 ^ Q)| ≤ 2 ^ Q / 2 ∧
      (|(|r| * 2 ^ 149 - m * 2 ^ Q)| = 2 ^ Q / 2 → m % 2 = 0) ∧
      (Q = 0 ∨ 2 ^ 23 * 2 ^ Q ≤ |r| * 2 ^ 149) ∧ |r| * 2 ^ 149 < 2 ^ 24 * 2 ^ Q := by
  have hn : r.num ≠ 0 := Rat.num_ne_zero.mpr hr
  have habs : |r| = (r.num.natAbs : Rat) / r.den := by
    rw [Rat.abs_def, Rat.divInt_eq_div]; simp
  obtain ⟨Q, m, h, h1, h2, h3, h4, h5, h6⟩ := rn32Mag_spec r.num.natAbs r.den (by omega) r.den_pos
  rw [← habs] at h3 h4 h5 h6
  refine ⟨Q, m, ?_, h1, h2, h3, h4, h5, h6⟩
  rw [← h]
  have hb : rn32Mag r.num.natAbs r.den ≤ 0x7F800000 := h ▸ min_le_right _ _
  unfold rn32
  rw [if_neg hn]
  by_cases hs : r < 0
  · rw [if_pos (Rat.num_neg.mpr hs), if_pos hs, BitVec.toNat_ofNat]; omega
  · rw [if_neg (fun e => hs (Rat.num_neg.mp e)), if_neg hs, BitVec.toNat_ofNat]; omega

/-- Where the layout stays below the infinity, the result is finite and its value is r's sign times m·2^Q·2^-149. -/
theorem val_of_layout (w : Word) (neg : Bool) (Q m : Nat) (hm : m ≤ 2 ^ 24) (hQ : Q = 0 ∨ 2 ^ 23 ≤ m)
    (hp : Q * 2 ^ 23 + m < 0x7F800000) (hw : w.toNat = (if neg then 2 ^ 31 else 0) + (Q * 2 ^ 23 + m)) :
    isFinite w = true ∧ f32Sign w = neg ∧ val w = (if neg then -1 else 1) * ((m : Rat) * 2 ^ Q) / 2 ^ 149 := by
  have hmod : w.toNat % 2 ^ 31 = Q * 2 ^ 23 + m := by rw [hw]; split <;> omega
  have hf : isFinite w = true := by rw [isFinite_iff, hmod]; exact hp
  have hs : f32Sign w = neg := by
    rw [f32Sign_eq, hw]
    cases neg
    · simp; omega
    · simp
  refine ⟨hf, hs, ?_⟩
  rw [val_eq w hf, hs, f32Mag_eq, hmod, patternMag_layout Q m hm hQ]
  push_cast; rfl

/-- RN32 never gives a NaN. -/
theorem rn32_not_nan (r : Rat) : isNaN (rn32 r) = false := by
  by_cases hr : r = 0
  · subst hr; rfl
  · obtain ⟨Q, m, h, -⟩ := rn32_spec r hr
    simp only [isNaN, f32Exp_eq, f32Frac_eq, h, Bool.and_eq_false_iff, beq_eq_false_iff_ne, bne_eq_false_iff_eq]
    split <;> omega

end Sys2Proof.Machine
end

