-- ==== Sys2Proof/Laws/Sequences.lean ====
section
/-! SUPPORT. The run-length functions enc and dec, the sequence and the run list that the banks hold, and the zigzag
reorderings. -/

namespace Sys2Proof.Machine

/-! ### enc and dec -/

/-- The two forms of enc on a nonempty sequence: the head joins the first run of the rest, or begins a run of its own. -/
theorem enc_cons (v : Half) (z : List Half) :
    (∃ c runs, enc z = (v, c) :: runs ∧ enc (v :: z) = (v, c + 1) :: runs) ∨
    ((∀ p ∈ (enc z).head?, v ≠ p.1) ∧ enc (v :: z) = (v, 1) :: enc z) := by
  cases h : enc z with
  | nil => right; simp [enc, h]
  | cons p runs =>
    obtain ⟨w, c⟩ := p
    by_cases hv : v = w
    · left; subst hv; exact ⟨c, runs, rfl, by simp [enc, h]⟩
    · right; simp [enc, h, hv]

theorem dec_enc (z : List Half) : dec (enc z) = z := by
  induction z with
  | nil => rfl
  | cons v z ih =>
    obtain ⟨c, runs, h, h'⟩ | ⟨-, h'⟩ := enc_cons v z
    · rw [h'] ; rw [h] at ih; simp only [dec] at ih ⊢; simp [List.replicate_succ, ih]
    · rw [h']; simp [dec, ih]

theorem dec_length (runs : List (Half × Nat)) : (dec runs).length = runTotal runs := by
  induction runs with
  | nil => rfl
  | cons p runs ih => simp [dec, runTotal, ih]

theorem dec_eq_flatMap (runs : List (Half × Nat)) : dec runs = runs.flatMap fun p => List.replicate p.2 p.1 := by
  induction runs with
  | nil => rfl
  | cons p runs ih => simp [dec, ih]

theorem runTotal_eq_sum (runs : List (Half × Nat)) : runTotal runs = (runs.map fun p => p.2).sum := by
  induction runs with
  | nil => rfl
  | cons p runs ih => simp [runTotal, ih]

theorem runTotal_enc (z : List Half) : runTotal (enc z) = z.length := by rw [← dec_length, dec_enc]

theorem enc_counts_pos (z : List Half) : ∀ p ∈ enc z, 1 ≤ p.2 := by
  induction z with
  | nil => simp [enc]
  | cons v z ih =>
    obtain ⟨c, runs, h, h'⟩ | ⟨-, h'⟩ := enc_cons v z
    · rw [h']; rw [h] at ih; simp only [List.mem_cons, forall_eq_or_imp] at ih ⊢; exact ⟨by omega, ih.2⟩
    · rw [h']; simpa using ih

theorem enc_values_differ (z : List Half) : (enc z).IsChain fun p q => p.1 ≠ q.1 := by
  induction z with
  | nil => simp [enc]
  | cons v z ih =>
    obtain ⟨c, runs, h, h'⟩ | ⟨hn, h'⟩ := enc_cons v z
    · rw [h']; rw [h] at ih
      cases runs with
      | nil => simp
      | cons q runs => simpa using ih
    · rw [h']
      cases he : enc z with
      | nil => simp
      | cons q runs => rw [he] at ih hn; simp only [List.isChain_cons_cons]; exact ⟨by simpa using hn, ih⟩

theorem enc_length_le (z : List Half) : (enc z).length ≤ z.length := by
  induction z with
  | nil => simp [enc]
  | cons v z ih =>
    obtain ⟨c, runs, h, h'⟩ | ⟨-, h'⟩ := enc_cons v z
    · rw [h']; rw [h] at ih; simp at ih ⊢; omega
    · rw [h']; simpa using ih

theorem enc_count_le (z : List Half) : ∀ p ∈ enc z, p.2 ≤ z.length := by
  intro p hp
  rw [← runTotal_enc z, runTotal_eq_sum]
  exact List.single_le_sum (by simp) _ (List.mem_map.mpr ⟨p, hp, rfl⟩)

theorem enc_replicate (v : Half) (n : Nat) : enc (List.replicate (n + 1) v) = [(v, n + 1)] := by
  induction n with
  | zero => rfl
  | succ n ih => rw [List.replicate_succ]; simp [enc, ih]

/-! ### What the banks hold -/

theorem sequence_eq_take (z : Mat Half) (n : Nat) : sequence z n = z.toList.take n := by
  have : z.toList = (List.finRange 64).map fun k => z[k] := by
    apply List.ext_getElem <;> simp
  rw [this, ← List.map_take]; rfl

theorem sequence_length (z : Mat Half) (n : Nat) (h : n ≤ 64) : (sequence z n).length = n := by
  simp [sequence_eq_take]; omega

theorem sequence_getElem (z : Mat Half) (n : Nat) (k : Fin 64) (h : k.val < (sequence z n).length) :
    (sequence z n)[k.val] = z[k] := by
  simp [sequence_eq_take]

theorem sequence_full (z : Mat Half) : sequence z 64 = z.toList := by
  rw [sequence_eq_take]; exact List.take_of_length_le (by simp)

theorem runList_eq_zip (values : Mat Half) (counts : Mat Word) (m : Nat) :
    runList values counts m = ((values.toList.zip counts.toList).take m).map fun p => (p.1, p.2.toNat) := by
  have : (values.toList.zip counts.toList).map (fun p => (p.1, p.2.toNat)) =
      (List.finRange 64).map fun k => (values[k], u32 counts[k]) := by
    apply List.ext_getElem <;> simp [u32]
  rw [List.map_take, this, ← List.map_take]; rfl

theorem runList_length (values : Mat Half) (counts : Mat Word) (m : Nat) (h : m ≤ 64) :
    (runList values counts m).length = m := by
  simp [runList]; omega

theorem runList_getElem (values : Mat Half) (counts : Mat Word) (m : Nat) (k : Fin 64)
    (h : k.val < (runList values counts m).length) :
    (runList values counts m)[k.val] = (values[k], u32 counts[k]) := by
  simp [runList]

/-- What RLENC writes is what RLDEC and the block decoders read back. -/
theorem heldRuns_writeRuns (s : State) (runs : List (Half × Nat)) (h : runs.length ≤ 64)
    (hc : ∀ p ∈ runs, p.2 < 2 ^ 32) : heldRuns (writeRuns s runs) = runs := by
  have hn : u32 (BitVec.ofNat 32 runs.length) = runs.length := by simp [u32]; omega
  unfold heldRuns
  rw [writeRuns_rlv, writeRuns_rlc, writeRuns_rln, hn]
  apply List.ext_getElem (runList_length _ _ _ h)
  intro i h1 h2
  have hi : i < 64 := by omega
  rw [runList_getElem _ _ _ ⟨i, hi⟩ h1, fillPrefix_data_lt _ _ ⟨i, hi⟩ (by simpa using h2),
    fillPrefix_data_lt _ _ ⟨i, hi⟩ (by simpa using h2)]
  have := hc runs[i] (List.getElem_mem h2)
  refine Prod.ext (by simp) ?_
  simp only [u32, List.getElem_map, BitVec.toNat_ofNat]
  exact Nat.mod_eq_of_lt this

/-! ### Zigzag -/

theorem zzIndex_injective (zz : Vector (Fin 8 × Fin 8) 64) (h : Function.Injective fun k : Fin 64 => zz[k]) :
    Function.Injective (zzIndex zz) := by
  intro j k e
  obtain ⟨h1, h2⟩ := linear_injective _ _ _ _ e
  exact h (Prod.ext h1 h2)

theorem zzIndex_bijective (zz : Vector (Fin 8 × Fin 8) 64) (h : Function.Injective fun k : Fin 64 => zz[k]) :
    Function.Bijective (zzIndex zz) := Finite.injective_iff_bijective.mp (zzIndex_injective zz h)

theorem scan_getElem {α : Type} (zz : Vector (Fin 8 × Fin 8) 64) (m : Mat α) (k : Fin 64) :
    (scan zz m)[k] = m[zzIndex zz k] := by simp [scan]

theorem foldl_set_notMem {α : Type} (f : Fin 64 → Fin 64) (q : Mat α) (ks : List (Fin 64)) (m : Mat α) (i : Fin 64)
    (h : ∀ k ∈ ks, f k ≠ i) : (ks.foldl (fun acc k => acc.set (f k) q[k]) m)[i] = m[i] := by
  induction ks generalizing m with
  | nil => rfl
  | cons k ks ih =>
    rw [List.foldl_cons, ih _ fun j hj => h j (by simp [hj])]
    have := h k (by simp)
    simp only [Fin.getElem_fin]
    rw [Vector.getElem_set_ne]
    exact fun e => this (Fin.ext e)

theorem foldl_set_mem {α : Type} (f : Fin 64 → Fin 64) (hf : Function.Injective f) (q : Mat α) (ks : List (Fin 64))
    (m : Mat α) (k : Fin 64) (hk : k ∈ ks) (hd : ks.Nodup) :
    (ks.foldl (fun acc k => acc.set (f k) q[k]) m)[f k] = q[k] := by
  induction ks generalizing m with
  | nil => simp at hk
  | cons j ks ih =>
    rw [List.foldl_cons]
    rw [List.nodup_cons] at hd
    rcases List.mem_cons.mp hk with rfl | hk'
    · rw [foldl_set_notMem f q ks _ _ fun i hi e => hd.1 (by rwa [hf e] at hi)]
      simp
    · exact ih _ hk' hd.2

theorem unscan_getElem {α : Type} (zz : Vector (Fin 8 × Fin 8) 64) (h : Function.Injective fun k : Fin 64 => zz[k])
    (q m : Mat α) (k : Fin 64) : (unscan zz q m)[zzIndex zz k] = q[k] :=
  foldl_set_mem _ (zzIndex_injective zz h) q _ m k (List.mem_finRange k) (List.nodup_finRange 64)

theorem zzTable_injective : Function.Injective fun k : Fin 64 => zzTable[k] := by
  have h : ∀ j k : Fin 64, zzTable[j] = zzTable[k] → j = k := by decide +kernel
  exact fun j k e => h j k e

end Sys2Proof.Machine
end

