-- ==== Sys2Proof/Tests/Slice0.lean ====
section
/-! SUPPORT. Tests and witnesses. Expected values are the spec's: each test names the vector of spec/95_test_vectors.md or
the rule it is taken from. A `witness_` theorem shows values that meet the hypotheses of the obligation it is named after. -/

namespace Sys2Proof.Tests

open Sys2Proof.Machine Sys2Proof.Safety Sys2Proof.Properties

-- A hundred kernel evaluations at once would need a thread each: check these theorems one after another.
set_option Elab.async false

/-! ### Small states -/

/-- A bank with the pattern v in every element. -/
def flat {n : Nat} (v : BitVec n) : Bank n := Bank.fill (Vector.replicate 64 v)

/-- The idle unit with every bank zeroed by the host and no matrix built. -/
def blank : State :=
  { State.reset with
    cmdw := 0x00000000#32, pb := flat 0#32, cb := flat 0#32, qm := flat 0#32, qb := flat 0#16, zs := flat 0#16
    rlv := flat 0#16, rlc := flat 0#32 }

/-- The blank unit with the matrix of the open base table built for the factor 5. -/
def built : State := buildMatrix bcu 5 blank

/-- The blank unit holding 16.0 in every element of QM and FACTOR = 1 (the column q of V3.4). -/
def sixteen : State := { blank with qm := flat 0x41800000#32, factor := 1#4 }

/-- The table QBASE_T of the vectors: 16 + 2·(i + j). -/
def qbaseT : Mat Word := tabulate fun i j => rn32 (16 + 2 * ((i.val + j.val : Nat) : Rat))

/-- The blank unit holding the matrix V1.2: QBASE_T built for the factor 5. -/
def matrixT : State := { blank with qm := Bank.fill (scaledBase { bcu with qbase := qbaseT } 5), factor := 5#4 }

/-- A unit with command i accepted, the core next to move. -/
def pending (i : Instr) (s : State) : State := accept s (encode i)

/-- A bank with some elements changed. -/
def withElems {n : Nat} (b : Bank n) (l : List (Fin 64 × BitVec n)) : Bank n :=
  l.foldl (fun b p => b.store p.1 p.2) b

/-- A state with the run list of the given pairs. -/
def withRuns (l : List (Half × Word)) (s : State) : State :=
  { s with
    rlv := s.rlv.fillPrefix (l.map fun p => p.1), rlc := s.rlc.fillPrefix (l.map fun p => p.2)
    rln := BitVec.ofNat 32 l.length }

/-- Command i completes without fault on s, in a state with p. -/
def succeedsWith (i : Instr) (s : State) (p : State → Bool) : Bool :=
  match exec i s with
  | .next t => !t.status.busy && t.status.done && !t.status.err && p t
  | .fault _ => false
  | .refused _ => false

/-- Command i faults on s with the given STATUS word. -/
def faultsWith (i : Instr) (s : State) (w : Word) : Bool :=
  match exec i s with
  | .next t => t.status.word == w
  | .fault _ => false
  | .refused _ => false

/-! ### Well-formedness: an ill-formed term for each check -/

theorem test_plain_qbuildi_refused : (AsmCommand.plain (.qbuildi 5#16)).wf = false := by decide
theorem test_immediate_too_large_refused : (AsmCommand.qbuildi 32768).wf = false := by decide
theorem test_immediate_too_small_refused : (AsmCommand.qbuildi (-32769)).wf = false := by decide
theorem test_i16_operand_out_of_range_refused : (Operand.i16 32768).wf = false := by decide
theorem test_misaligned_write_refused : (HostLine.wr 0x102 (.word 0#32)).wf = false := by decide
theorem test_write_with_bad_operand_refused : (HostLine.wr 0x100 (.i16 (-32769))).wf = false := by decide
theorem test_read_outside_window_refused : (HostLine.rd 0x1000).wf = false := by decide
theorem test_cmd_line_refused : (HostLine.cmd (.qbuildi 99999)).wf = false := by decide
theorem test_run_line_refused : (HostLine.run (.plain (.qbuildi 1#16))).wf = false := by decide
theorem test_ld_of_63_values_refused : (HostLine.ld .pb (List.replicate 63 (.word 0#32))).wf = false := by decide
theorem test_ldn_count_mismatch_refused : (HostLine.ldn .zs 2 [.i16 1]).wf = false := by decide
theorem test_ldn_of_65_refused : (HostLine.ldn .rlc 65 (List.replicate 65 (.word 0#32))).wf = false := by decide
theorem test_factor_beyond_32_bits_refused : (HostLine.setFactor 2147483648).wf = false := by decide
theorem test_well_formed_lines : (HostLine.wr 0xFFC (.i16 (-32768))).wf && (HostLine.rd 0x004).wf && HostLine.wait.wf &&
    (HostLine.clrf 0x1E#32).wf && (HostLine.ldn .rlv 0 []).wf && (HostLine.setFactor (-2147483648)).wf = true := by decide
theorem test_commands_well_formed : Instr.fdct.wf && (Instr.qbuildi 0x8000#16).wf = true := by decide

/-! ### Decoding: every row of R94, its word as the table writes it, most significant bit first -/

theorem test_decode_fdct : decode 0b00000000000000000000000000000001#32 = .ok .fdct := by decide
theorem test_decode_idct : decode 0b00000000000000000000000000000010#32 = .ok .idct := by decide
theorem test_decode_qbuild : decode 0b00000000000000000000000000010000#32 = .ok .qbuild := by decide
theorem test_decode_qbuildi : decode 0b11111111111110010000000000010001#32 = .ok (.qbuildi (-7)) := by decide
theorem test_decode_quant : decode 0b00000000000000000000000000010010#32 = .ok .quant := by decide
theorem test_decode_dequant : decode 0b00000000000000000000000000010011#32 = .ok .dequant := by decide
theorem test_decode_zscan : decode 0b00000000000000000000000000100000#32 = .ok .zscan := by decide
theorem test_decode_zunscan : decode 0b00000000000000000000000000100001#32 = .ok .zunscan := by decide
theorem test_decode_rlenc : decode 0b00000000000000000000000000110000#32 = .ok .rlenc := by decide
theorem test_decode_rldec : decode 0b00000000000000000000000000110001#32 = .ok .rldec := by decide
theorem test_decode_rldecb : decode 0b00000000000000000000000000110010#32 = .ok .rldecb := by decide
theorem test_decode_encblk : decode 0b00000000000000000000000001000000#32 = .ok .encblk := by decide
theorem test_decode_decblk : decode 0b00000000000000000000000001000001#32 = .ok .decblk := by decide

/-- The illegal words of R96 and program P6, each by the check that rejects it. -/
theorem test_decode_illegal :
    decode 0x00000000#32 = .error .opcode ∧ decode 0xFFFFFFFF#32 = .error .zeroField ∧
    decode 0x00000003#32 = .error .opcode ∧ decode 0x00010001#32 = .error .immField ∧
    decode 0x00050111#32 = .error .zeroField := by decide

theorem test_encode_qbuildi : encode (.qbuildi 99#16) = 0x00630011#32 := by decide
theorem test_decodeTableWord : decodeTableWord 32 0x00050011 = some (.qbuildi 5#16) ∧ decodeTableWord 32 0x51 = none := by decide

/-! ### The assembler and the host's lines (R99 to R101) -/

/-- `QBUILDI -7 ; c` -/
theorem test_parse_decimal :
    parseCommand ['Q', 'B', 'U', 'I', 'L', 'D', 'I', ' ', '-', '7', ' ', ';', 'c'] = some (.qbuildi (-7)) := by decide
/-- `QBUILDI 0xFFF9`: hex digits are the 16-bit pattern. -/
theorem test_parse_hex :
    parseCommand ['Q', 'B', 'U', 'I', 'L', 'D', 'I', ' ', '0', 'x', 'F', 'F', 'F', '9'] = some (.qbuildi (-7)) := by decide
theorem test_parse_plain : parseCommand ['Z', 'S', 'C', 'A', 'N'] = some (.plain .zscan) := by decide
theorem test_parse_lower_case_refused : parseCommand ['z', 's', 'c', 'a', 'n'] = none := by decide
/-- V3.2: `QBUILDI -32768` = 80000011. -/
theorem test_assemble_qbuildi : assemble (.qbuildi (-32768)) = some 0x80000011#32 := by decide
/-- R101: `RUN ZSCAN` is the write of 0x20 to CMD and the polls of STATUS. -/
theorem test_expand_run :
    expand 1 (.run (.plain .zscan)) = some [.write 0 0x00000020#32, .read 1, .core, .read 1] := by decide
theorem test_expand_ldn :
    expand 0 (.ldn .rlv 2 [.i16 7, .i16 (-13)]) = some [.write 384 0x00000007#32, .write 385 0x0000FFF3#32] := by decide
theorem test_expand_setFactor : expand 0 (.setFactor (-7)) = some [.write 3 0xFFFFFFF9#32] := by decide

/-! ### binary32 and rounding -/

/-- V2.1, V2.10, R121: an inexact value, the tie at 2^-150, a subnormal, the overflow threshold. -/
theorem test_rn32 :
    rn32 (-16777215 / 2 ^ 14) = 0xC47FFFFF#32 ∧ rn32 (1 / 2 ^ 150) = 0x00000000#32 ∧ rn32 (-1 / 2 ^ 150) = 0x80000000#32 ∧
    rn32 (3 / 2 ^ 150) = 0x00000002#32 ∧ rn32 ((2 ^ 24 - 1) * 2 ^ 104) = 0x7F7FFFFF#32 ∧
    rn32 ((2 ^ 24 - 1 / 2) * 2 ^ 104) = 0x7F800000#32 ∧ rn32 (1 / 10) = 0x3DCCCCCD#32 := by decide +kernel

/-- R120. -/
theorem test_val : val 0xC47FFFFF#32 = -16777215 / 2 ^ 14 ∧ val 0x00000001#32 = 1 / 2 ^ 149 ∧ val 0x80000000#32 = 0 := by
  decide +kernel

/-- V3.4: the ties of RND under the two rules. -/
theorem test_rnd :
    rnd .rne (1 / 2) = 0 ∧ rnd .rne (3 / 2) = 2 ∧ rnd .rne (-5 / 2) = -2 ∧
    rnd .rha (1 / 2) = 1 ∧ rnd .rha (3 / 2) = 2 ∧ rnd .rha (-5 / 2) = -3 := by decide +kernel

/-! ### The transform family -/

/-- The ramp of V2.4. -/
def ramp : Bank 32 := Bank.fill (Vector.ofFn fun k => rn32 ((k.val : Rat) - 32))

/-- V2.4. -/
theorem test_fdct_ramp : succeedsWith .fdct { blank with pb := ramp } (fun t =>
    entry t.cb.data 0 0 == 0xC07FFFFF#32 && entry t.cb.data 0 1 == 0xC191C5EB#32 && entry t.cb.data 1 0 == 0xC311C5EB#32 &&
    entry t.cb.data 7 0 == 0xBF92D97A#32 && entry t.cb.data 3 5 == 0#32) = true := by decide +kernel

/-- V2.11. -/
theorem test_fdct_nan : faultsWith .fdct { blank with pb := withElems (flat 0#32) [(27, 0x7FC00000#32)] } 0x00000704#32 = true := by
  decide +kernel

/-- The nonzero coefficients of V2.4. -/
def rampCoefficients : List (Fin 64 × Word) :=
  [(0, 0xC07FFFFF#32), (1, 0xC191C5EB#32), (3, 0xBFF3D111#32), (5, 0xBF117825#32), (7, 0xBE12D97A#32), (8, 0xC311C5EB#32),
   (24, 0xC173D111#32), (40, 0xC0917825#32), (56, 0xBF92D97A#32)]

/-- V2.4, the round trip of the ramp. -/
theorem test_idct_ramp : succeedsWith .idct { blank with cb := withElems (flat 0#32) rampCoefficients } (fun t =>
    entry t.pb.data 0 1 == 0xC1F7FFFE#32 && entry t.pb.data 1 0 == 0xC1BFFFFE#32 && entry t.pb.data 4 0 == 0x3511A941#32) = true := by
  decide +kernel

/-- V2.11. -/
theorem test_idct_nan : faultsWith .idct { blank with cb := withElems (flat 0#32) [(63, 0x7F800001#32)] } 0x00000704#32 = true := by
  decide +kernel

/-! ### The quantizer family -/

/-- V3.3. -/
theorem test_qbuild_clamps : succeedsWith .qbuild { blank with factin := 0x80000000#32 } (fun t =>
    t.factor == 1#4 && t.factin == 0x80000000#32) = true := by decide +kernel

/-- V3.2. -/
theorem test_qbuildi_clamps : succeedsWith (.qbuildi 99#16) blank (fun t => t.factor == 15#4 && t.factin == 5#32) = true := by
  decide +kernel

/-- V1.2. -/
theorem test_matrix_of_qbaseT : entry matrixT.qm.data 0 0 = 0x42A00000#32 ∧ entry matrixT.qm.data 7 7 = 0x435C0000#32 := by
  decide +kernel

/-- Coefficients of V3.4: 24, -40, -524304, infinity. -/
def coefficients : List (Fin 64 × Word) := [(1, 0x41C00000#32), (2, 0xC2200000#32), (3, 0xC9000100#32), (4, 0x7F800000#32)]

/-- V3.4; QSAT (V3.10). -/
theorem test_quant_rounds_and_clamps : succeedsWith .quant { sixteen with cb := withElems (flat 0#32) coefficients } (fun t =>
    t.qb.data[0] == 0#16 && t.qb.data[1] == 2#16 && t.qb.data[2] == 0xFFFE#16 && t.qb.data[3] == 0x8000#16 &&
    t.qb.data[4] == 0x7FFF#16 && t.status.word == 0x0000000A#32) = true := by decide +kernel

/-- V3.9: E_QMINV before E_NONFIN. -/
theorem test_quant_lowest_code : faultsWith .quant { blank with cb := flat 0x7FC00000#32 } 0x00000204#32 = true := by decide +kernel

/-- V3.7: -8·18 = -144, and 0 gives +0. -/
theorem test_dequant : succeedsWith .dequant { sixteen with
    qm := withElems (flat 0x41800000#32) [(8, 0x41900000#32)], qb := withElems (flat 0#16) [(8, 0xFFF8#16)] } (fun t =>
    t.cb.data[8] == 0xC3100000#32 && t.cb.data[9] == 0#32) = true := by decide +kernel

/-! ### The zigzag family -/

/-- V4.1. -/
theorem test_zscan : succeedsWith .zscan { blank with qb := Bank.fill (Vector.ofFn fun k => BitVec.ofNat 16 k.val) } (fun t =>
    t.zs.data[1] == 1#16 && t.zs.data[2] == 8#16 && t.zs.data[3] == 16#16 && t.zs.data[62] == 62#16 &&
    t.zlen == 64#32) = true := by decide +kernel

/-- V4.2. -/
theorem test_zunscan : succeedsWith .zunscan { blank with
    zlen := 64#32, zs := Bank.fill (Vector.ofFn fun k => BitVec.ofNat 16 k.val) } (fun t =>
    entry t.qb.data 0 1 == 1#16 && entry t.qb.data 0 2 == 5#16 && entry t.qb.data 1 0 == 2#16 &&
    entry t.qb.data 7 0 == 35#16) = true := by decide +kernel

/-- V4.5. -/
theorem test_zunscan_length : faultsWith .zunscan { blank with zlen := 63#32 } 0x00000404#32 = true := by decide +kernel

/-! ### The run-length family -/

/-- V5.6. -/
theorem test_rlenc : succeedsWith .rlenc { blank with
    zlen := 6#32, zs := (flat 0#16).fillPrefix [1#16, 1#16, 2#16, 3#16, 3#16, 3#16] } (fun t =>
    t.rln == 3#32 && t.rlv.data[1] == 2#16 && t.rlc.data[1] == 1#32 && t.rlv.data[2] == 3#16 && t.rlc.data[2] == 3#32 &&
    t.rlc.data[3] == 0#32) = true := by decide +kernel

/-- V5.10. -/
theorem test_rlenc_length : faultsWith .rlenc { blank with zlen := 65#32 } 0x00000304#32 = true := by decide +kernel

/-- V5.8: a zero run-length is skipped. -/
theorem test_rldec : succeedsWith .rldec (withRuns [(4#16, 0#32), (9#16, 2#32), (9#16, 1#32)] blank) (fun t =>
    t.zlen == 3#32 && t.zs.data[0] == 9#16 && t.zs.data[2] == 9#16 && t.zs.data[3] == 0#16) = true := by decide +kernel

/-- V5.9: the sum 2^32 + 64 does not wrap to 64. -/
theorem test_rldec_sum_is_exact : faultsWith .rldec
    { blank with rln := 64#32, rlc := flat 0x04000001#32 } 0x00000504#32 = true := by decide +kernel

/-- V5.11. -/
theorem test_rldecb : succeedsWith .rldecb (withRuns [(7#16, 1#32), (0#16, 63#32)] { blank with zs := flat 5#16 }) (fun t =>
    t.zlen == 64#32 && t.zs.data[0] == 7#16 && t.zs.data[1] == 0#16 && t.zs.data[63] == 0#16) = true := by decide +kernel

/-- V5.11. -/
theorem test_rldecb_short : faultsWith .rldecb (withRuns [(7#16, 1#32), (0#16, 62#32)] blank) 0x00000604#32 = true := by
  decide +kernel

/-! ### The fused family -/

/-- V6.1, the row 200 (program P1). -/
theorem test_encblk : succeedsWith .encblk { matrixT with pb := flat 0x42900000#32 } (fun t =>
    t.cb.data[0] == 0x44100000#32 && t.qb.data[0] == 7#16 && t.rln == 2#32 && t.rlv.data[0] == 7#16 && t.rlc.data[0] == 1#32 &&
    t.rlv.data[1] == 0#16 && t.rlc.data[1] == 63#32) = true := by decide +kernel

/-- V6.1, the row 0 (program P2). -/
theorem test_decblk : succeedsWith .decblk (withRuns [(0xFFF3#16, 1#32), (0#16, 63#32)] matrixT) (fun t =>
    t.cb.data[0] == 0xC4820000#32 && t.pb.data[0] == 0xC3020000#32 && t.pb.data[63] == 0xC3020000#32 &&
    t.qb.data[0] == 0xFFF3#16 && t.zlen == 64#32) = true := by decide +kernel

/-- V5.10: E_QMINV before E_LEN. -/
theorem test_decblk_lowest_code : faultsWith .decblk { blank with rln := 65#32 } 0x00000204#32 = true := by decide +kernel

/-! ### The window, acceptance and the step -/

/-- R62, R63: a 16-bit element keeps the low half of the written word and reads sign-extended (program P2). -/
theorem test_element_write_and_read :
    (memRead (memWrite blank 384 0x0000FFF3#32) 384).1 = 0xFFFFFFF3#32 ∧
    (memWrite blank 384 0x1234FFF3#32).rlv.data[0] = 0xFFF3#16 := by decide +kernel

/-- R69, R70: QM, FACTOR and reserved offsets. -/
theorem test_read_only_writes :
    (memWrite sixteen 192 0#32).status.herr = true ∧ (memWrite sixteen 192 0#32).qm = sixteen.qm ∧
    (memWrite sixteen 4 3#32).factor = 1#4 ∧ (memRead blank 7).1 = 0#32 ∧ (memRead blank 512).2.status.herr = true := by
  decide +kernel

/-- R66: byte 0 is the least significant one. -/
theorem test_byte_order : peekByte { blank with factin := 0x12345678#32 } 3 0 = 0x78#8 := by decide +kernel

/-- R68, R296: acceptance, then the completion of QBUILDI 5. -/
theorem test_accept_and_complete :
    (match step (memWrite blank 0 0x00050011#32) with
      | .next t => t.status.word == 0x00000002#32 && t.factor == 5#4
      | .fault _ => false
      | .refused _ => false) = true := by decide +kernel

/-- R98, program P6: an illegal word faults at its completion. -/
theorem test_illegal_word_faults :
    (match step (memWrite blank 0 0x00010001#32) with
      | .next t => t.status.word == 0x00000104#32
      | .fault _ => false
      | .refused _ => false) = true := by decide +kernel

/-- The word given to withFetchWord is the first command to complete after reset. -/
theorem test_fetch_from_reset :
    (match step (State.reset.withFetchWord 32 0x00630011) with
      | .next t => t.status.word == 0x00000002#32 && t.factor == 15#4 && t.schedule == []
      | .fault _ => false
      | .refused _ => false) = true := by decide +kernel

/-- R250. -/
theorem test_irq : State.irq { blank with
    status := { blank.status with err := true, ecode := 6#4 }, ctrl := Ctrl.ofWord 2#32 } = true := by decide

/-! ### Witnesses: values that meet the hypotheses of each obligation, clause by clause -/

/-- The matrix invariant holds of the built unit. -/
theorem built_matrixInv : MatrixInv built := fun _ => rfl

theorem built_factor : built.factor ≠ 0#4 := by decide

/-- The built unit with a saturating, an infinite and an ordinary coefficient. -/
def builtCoefficients : State := { built with cb := withElems (flat 0#32) coefficients }

/-- The built unit with the run list (7, 1), (0, 63). -/
def builtRuns : State := withRuns [(7#16, 1#32), (0#16, 63#32)] built

/-- The blank unit with a NaN in PB and CB. -/
def tainted : State := { built with pb := flat 0x7FC00000#32, cb := flat 0x7FC00000#32 }

theorem all_finite_of_check {m : Mat Word} (h : someElem (fun w => !isFinite w) m = false) : AllFinite m := by
  intro k
  have := List.any_eq_false.mp h k (List.mem_finRange k)
  simpa using this

theorem blank_block_finite : AllFinite blank.pb.data := all_finite_of_check (by decide +kernel)

theorem blank_coefficients_finite : AllFinite blank.cb.data := all_finite_of_check (by decide +kernel)

theorem witness_AssemblerImmediateRange :
    (-32768 ≤ (-32768 : Int) ∧ (-32768 : Int) ≤ 32767) ∧ (-32768 ≤ (32767 : Int) ∧ (32767 : Int) ≤ 32767) ∧
    ((-32769 : Int) < -32768) ∧ (32767 < (32768 : Int)) := by decide

/-- 1 + 2^-24 lies half way between 0x3F800000 and 0x3F800001; the threshold itself overflows. -/
theorem witness_RoundsToNearestBinary32 :
    (1 + 1 / 2 ^ 24 : Rat) ≠ 0 ∧ |(1 + 1 / 2 ^ 24 : Rat)| < (2 ^ 24 - 1 / 2) * 2 ^ 104 ∧
    isFinite 0x3F800001#32 = true ∧
    |val (rn32 (1 + 1 / 2 ^ 24)) - (1 + 1 / 2 ^ 24)| = |val 0x3F800001#32 - (1 + 1 / 2 ^ 24)| ∧
    val 0x3F800001#32 ≠ val (rn32 (1 + 1 / 2 ^ 24)) ∧
    (2 ^ 24 - 1 / 2) * 2 ^ 104 ≤ |((2 ^ 24 - 1 / 2) * 2 ^ 104 : Rat)| := by decide +kernel

theorem witness_RoundingKeepsRepresentable :
    isFinite 0x7F7FFFFF#32 = true ∧ (0x7F7FFFFF#32 : Word) ≠ 0x80000000#32 ∧ isFinite 0x00000001#32 = true := by decide

theorem witness_RoundsToNearestInteger :
    |(rnd .rne (5 / 2) : Rat) - 5 / 2| = 1 / 2 ∧ |(rnd .rha (-5 / 2) : Rat) - -5 / 2| = 1 / 2 := by decide +kernel

theorem witness_BuiltMatrixIsBounded : (1 ≤ (1 : Int) ∧ (1 : Int) ≤ 15) ∧ (1 ≤ (15 : Int) ∧ (15 : Int) ≤ 15) := by decide

theorem witness_FdctTransformsBlock : AllFinite blank.pb.data ∧ ¬ AllFinite tainted.pb.data :=
  ⟨blank_block_finite, fun h => absurd (h 0) (by decide +kernel)⟩

theorem witness_IdctTransformsCoefficients : AllFinite blank.cb.data ∧ ¬ AllFinite tainted.cb.data :=
  ⟨blank_coefficients_finite, fun h => absurd (h 0) (by decide +kernel)⟩

theorem witness_ConstantBlockHasOnlyDc :
    isFinite 0xC3000000#32 = true ∧
    ∀ k : Fin 64, ({ blank with pb := flat 0xC3000000#32 } : State).pb.data[k] = 0xC3000000#32 := by decide +kernel

theorem witness_ConstantBlockRoundTrips :
    isFinite 0xC3000000#32 = true ∧ -128 ≤ val 0xC3000000#32 ∧ val 0xC3000000#32 ≤ 127 ∧
    ∀ k : Fin 64, (Vector.replicate 64 0xC3000000#32)[k] = 0xC3000000#32 := by decide +kernel

/-- Each clause applies to a row of the table. -/
theorem witness_TableRowsCancel : (1 : Fin 8).val % 2 = 1 ∧ (0 : Fin 8).val ≤ 3 ∧ (3 : Fin 8).val ≤ 3 ∧ (4 : Fin 8) ≠ 0 := by
  decide

/-- Two builds of each kind, by the same clamped factor and by different ones. -/
theorem witness_FactorClampLaw :
    (∃ a b, exec (.qbuildi 0#16) blank = .next a ∧ exec (.qbuildi 1#16) built = .next b) ∧
    (∃ a b, exec .qbuild { blank with factin := 15#32 } = .next a ∧ exec .qbuild built = .next b) ∧
    (∃ a b, exec .qbuild built = .next a ∧ exec (.qbuildi 5#16) blank = .next b) ∧
    min (max (0#16 : Half).toInt 1) 15 = min (max (1#16 : Half).toInt 1) 15 ∧
    min (max (15#32 : Word).toInt 1) 15 ≠ min (max built.factin.toInt 1) 15 :=
  ⟨⟨_, _, rfl, rfl⟩, ⟨_, _, rfl, rfl⟩, ⟨_, _, rfl, rfl⟩, by decide, by decide⟩

theorem witness_QuantDividesRoundsClamps :
    (MatrixInv builtCoefficients ∧ builtCoefficients.factor ≠ 0#4 ∧
      (∀ k : Fin 64, isNaN builtCoefficients.cb.data[k] = false) ∧
      isInf builtCoefficients.cb.data[4] = true ∧ isFinite builtCoefficients.cb.data[1] = true) ∧
    blank.factor = 0#4 ∧ (tainted.factor ≠ 0#4 ∧ isNaN tainted.cb.data[0] = true) :=
  ⟨⟨fun _ => rfl, by decide +kernel, by decide +kernel, by decide +kernel, by decide +kernel⟩, by decide, by decide +kernel⟩

theorem witness_MatrixMustBeBuiltAfterReset : blank.factor = 0#4 ∧ Instr.decblk ∈ [Instr.quant, .dequant, .encblk, .decblk] := by
  decide

theorem witness_DequantMultiplies : built.factor ≠ 0#4 ∧ blank.factor = 0#4 := by decide

theorem witness_DequantIsFinite :
    MatrixInv built ∧ built.factor ≠ 0#4 ∧ (∃ t, exec .dequant built = .next t) ∧ built.qb.data[63] = 0#16 :=
  ⟨built_matrixInv, built_factor, ⟨_, rfl⟩, by decide +kernel⟩

theorem witness_QuantUndoesDequant : MatrixInv built ∧ built.factor ≠ 0#4 := ⟨built_matrixInv, built_factor⟩

theorem witness_ZunscanRebuildsMatrix : ({ blank with zlen := 64#32 } : State).zlen = 64#32 ∧
    ({ blank with zlen := 65#32 } : State).zlen ≠ 64#32 := by decide

theorem witness_ZigzagLaw : ZzBijective zzTable ∧ ({ blank with zlen := 64#32 } : State).zlen = 64#32 := by
  refine ⟨⟨?_, ?_⟩, rfl⟩
  · have h : ∀ j k : Fin 64, zzTable[j] = zzTable[k] → j = k := by decide +kernel
    exact fun j k => h j k
  · have h : ∀ a b : Fin 8, ∃ k : Fin 64, zzTable[k] = (a, b) := by decide +kernel
    exact fun p => h p.1 p.2

theorem witness_RlencEncodesMaximalRuns : ({ blank with zlen := 64#32 } : State).zlen.toNat ≤ 64 ∧
    64 < ({ blank with zlen := 65#32 } : State).zlen.toNat := by decide

/-- A list that sums to 64, one that sums to 65, and too many pairs. -/
theorem witness_RldecExpandsRuns :
    (builtRuns.rln.toNat ≤ 64 ∧
      (((builtRuns.rlv.data.toList.zip builtRuns.rlc.data.toList).take 2).map fun p => p.2.toNat).sum = 64) ∧
    ((withRuns [(1#16, 64#32), (2#16, 1#32)] blank).rln.toNat ≤ 64 ∧
      64 < ((((withRuns [(1#16, 64#32), (2#16, 1#32)] blank).rlv.data.toList.zip
        (withRuns [(1#16, 64#32), (2#16, 1#32)] blank).rlc.data.toList).take 2).map fun p => p.2.toNat).sum) ∧
    64 < ({ blank with rln := 65#32 } : State).rln.toNat := by decide +kernel

/-- RLN = 0 has the total 0, which is not 64. -/
theorem witness_RldecbExpandsBlock :
    (builtRuns.rln.toNat ≤ 64 ∧
      (((builtRuns.rlv.data.toList.zip builtRuns.rlc.data.toList).take 2).map fun p => p.2.toNat).sum = 64) ∧
    (blank.rln.toNat ≤ 64 ∧
      (((blank.rlv.data.toList.zip blank.rlc.data.toList).take 0).map fun p => p.2.toNat).sum ≠ 64) ∧
    64 < ({ blank with rln := 65#32 } : State).rln.toNat := by decide +kernel

theorem witness_RunLengthLaw : ({ blank with zlen := 64#32 } : State).zlen.toNat ≤ 64 := by decide

theorem witness_DcOnlyBlockHasTwoRuns :
    (({ blank with qb := withElems (flat 0#16) [(0, 7#16)] } : State).qb.data[0] ≠ 0#16 ∧
      ∀ k : Fin 64, k ≠ 0 → ({ blank with qb := withElems (flat 0#16) [(0, 7#16)] } : State).qb.data[k] = 0#16) ∧
    (∀ k : Fin 64, ({ blank with qb := flat 0x8000#16 } : State).qb.data[k] = 0x8000#16) ∧
    (match exec .zscan { blank with qb := flat 0x8000#16 } with
      | .next a => succeedsWith .rlenc a fun b => b.rln == 1#32
      | .fault _ => false
      | .refused _ => false) = true := by decide +kernel

theorem witness_EncblkRunsChain :
    (MatrixInv built ∧ built.factor ≠ 0#4 ∧ AllFinite built.pb.data) ∧ blank.factor = 0#4 ∧
    (tainted.factor ≠ 0#4 ∧ ¬ AllFinite tainted.pb.data) :=
  ⟨⟨built_matrixInv, built_factor, blank_block_finite⟩, by decide, by decide +kernel,
    fun h => absurd (h 0) (by decide +kernel)⟩

theorem witness_DecblkRunsChain :
    (builtRuns.factor ≠ 0#4 ∧ builtRuns.rln.toNat ≤ 64 ∧
      (((builtRuns.rlv.data.toList.zip builtRuns.rlc.data.toList).take 2).map fun p => p.2.toNat).sum = 64) ∧
    blank.factor = 0#4 ∧
    (built.factor ≠ 0#4 ∧ 64 < ({ built with rln := 65#32 } : State).rln.toNat) ∧
    (built.factor ≠ 0#4 ∧ built.rln.toNat ≤ 64 ∧
      (((built.rlv.data.toList.zip built.rlc.data.toList).take 0).map fun p => p.2.toNat).sum ≠ 64) := by decide +kernel

/-- ENCBLK completes on the built unit. -/
theorem encblk_completes : ∃ t, exec .encblk built = .next t ∧ t.status.err = false := by
  have h : succeedsWith .encblk built (fun _ => true) = true := by decide +kernel
  revert h
  unfold succeedsWith
  split <;> simp_all

/-- DECBLK completes on the built unit with a run list. -/
theorem decblk_completes : ∃ t, exec .decblk builtRuns = .next t ∧ t.status.err = false := by
  have h : succeedsWith .decblk builtRuns (fun _ => true) = true := by decide +kernel
  revert h
  unfold succeedsWith
  split <;> simp_all

theorem witness_EncblkEqualsFourCommands :
    built.status.err = false ∧ ∃ t, exec .encblk built = .next t ∧ t.status.err = false :=
  ⟨rfl, encblk_completes⟩

theorem witness_DecblkEqualsFourCommands :
    MatrixInv builtRuns ∧ builtRuns.status.err = false ∧ ∃ t, exec .decblk builtRuns = .next t ∧ t.status.err = false :=
  ⟨fun _ => rfl, rfl, decblk_completes⟩

/-- The two states of each half may differ in what the result does not depend on, pairs beyond RLN among it; equal QSAT. -/
theorem witness_BlockIndependence :
    (({ built with qb := flat 3#16 } : State).pb.data = built.pb.data ∧ ({ built with qb := flat 3#16 } : State) ≠ built ∧
      ({ built with qb := flat 3#16 } : State).status.qsat = built.status.qsat) ∧
    let t : State := { builtRuns with rlv := builtRuns.rlv.store 63 5#16 }
    t.rln = builtRuns.rln ∧ t.rlv.data[63] ≠ builtRuns.rlv.data[63] ∧ t.qm.data = builtRuns.qm.data ∧
    ∀ k : Fin 64, k.val < builtRuns.rln.toNat →
      builtRuns.rlv.data[k] = t.rlv.data[k] ∧ builtRuns.rlc.data[k] = t.rlc.data[k] := by
  refine ⟨⟨rfl, fun h => ?_, rfl⟩, rfl, by decide +kernel, rfl, by decide +kernel⟩
  have h0 := congrArg (fun s : State => s.qb.data[0]) h
  exact absurd h0 (by decide +kernel)

theorem witness_StepRunsDecodedCommand :
    (pending .zscan blank).status.busy = true ∧ decode (pending .zscan blank).cmdw = .ok .zscan ∧
    (pending .zscan blank).schedule = [] ∧
    ({ pending .zscan blank with schedule := [.core, .read 1] } : State).schedule = .core :: [.read 1] := by decide

theorem witness_IllegalCommandFaults :
    blank.status.busy = false ∧ blank.status.err = false ∧ (accept blank 0xFFFFFFFF#32).status.busy = true ∧
    (accept blank 0xFFFFFFFF#32).schedule = [] ∧
    ({ accept blank 0xFFFFFFFF#32 with schedule := [.core, .reset] } : State).schedule = .core :: [.reset] ∧
    ∀ i : Instr, decode (accept blank 0xFFFFFFFF#32).cmdw ≠ .ok i := by
  refine ⟨rfl, rfl, rfl, rfl, rfl, fun i h => ?_⟩
  rw [show decode (accept blank 0xFFFFFFFF#32).cmdw = .error .zeroField by decide] at h
  cases h

theorem witness_StepFollowsSchedule :
    (blank.schedule = [] ∧ blank.status.busy = false) ∧
    ({ blank with schedule := [.core] } : State).schedule = .core :: [] ∧
    ({ blank with schedule := [.read 1023] } : State).schedule = .read 1023 :: [] ∧
    ({ blank with schedule := [.write 0 0#32] } : State).schedule = .write 0 0#32 :: [] := by decide

theorem witness_PendingCommandCompletes :
    ({ pending .fdct blank with schedule := waits 2 } : State).status.busy = true ∧
    Event.reset ∉ ({ pending .fdct blank with schedule := waits 2 } : State).schedule := by decide

theorem witness_ResetState : ({ built with schedule := [.reset, .core] } : State).schedule = .reset :: [.core] := by decide

theorem witness_StepKeepsInvariant :
    StateInv (pending .quant built) ∧ ∃ t, step (pending .quant built) = .next t :=
  ⟨⟨by simp [StatusInv, pending, accept, Status.onAccept, built, buildMatrix, blank, State.reset, State.resetAt],
    fun _ => rfl⟩, ⟨_, rfl⟩⟩

/-- Two units that agree on what has been written and differ in an element of CB nobody has written; the completion of
FDCT uses PB only. -/
theorem witness_UnwrittenElementsDoNotMatter :
    let s : State := { pending .fdct blank with cb := { data := Vector.replicate 64 0#32, written := Vector.replicate 64 false } }
    let t : State := { pending .fdct blank with cb := { data := Vector.replicate 64 1#32, written := Vector.replicate 64 false } }
    AgreeOnWritten s t ∧ s ≠ t ∧ usesWritten s = true ∧ (∃ a, step s = .next a) ∧ ∃ b, step t = .next b := by
  refine ⟨⟨rfl, rfl, rfl, rfl, rfl, rfl, rfl, rfl, rfl, fun _ => rfl, ⟨rfl, fun _ _ => rfl⟩, ⟨rfl, fun k h => ?_⟩,
    ⟨rfl, fun _ _ => rfl⟩, ⟨rfl, fun _ _ => rfl⟩, ⟨rfl, fun _ _ => rfl⟩, ⟨rfl, fun _ _ => rfl⟩, rfl, fun _ _ => rfl⟩,
    fun h => ?_, by decide +kernel, ⟨_, rfl⟩, ⟨_, rfl⟩⟩
  · simp at h
  · have h0 := congrArg (fun s : State => s.cb.data[0]) h
    exact absurd h0 (by decide +kernel)

/-- BUSY = 1 and 0; the reserved offsets at their ends; the first and the last element of the first and the last bank. -/
theorem witness_WindowReads :
    (pending .fdct blank).status.busy = true ∧ (3 : WordOffset) ≠ 1 ∧ (3 : WordOffset) ≠ 2 ∧ blank.status.busy = false ∧
    (7 ≤ (7 : WordOffset).val ∧ (63 : WordOffset).val < 64) ∧ (512 ≤ (512 : WordOffset).val ∧ 512 ≤ (1023 : WordOffset).val) ∧
    (64 : WordOffset).val = 64 + (0 : Fin 64).val ∧ (511 : WordOffset).val = 448 + (63 : Fin 64).val := by decide

theorem witness_CommandAcceptance :
    (blank.status.busy = false ∧ blank.status.err = false) ∧
    ((raiseFault .len blank).status.busy = false ∧ (raiseFault .len blank).status.err = true) := by decide

/-- QUANT pending; a refused offset, and the two that may be accessed. -/
theorem witness_BusyWindowIsHarmless :
    let s := pending .quant built
    StatusInv s ∧ s.status.busy = true ∧ (64 : WordOffset) ≠ 1 ∧ (64 : WordOffset) ≠ 2 ∧ (0 : WordOffset) ≠ 1 ∧
    ((1 : WordOffset) = 1 ∨ (1 : WordOffset) = 2) ∧ ((2 : WordOffset) = 1 ∨ (2 : WordOffset) = 2) ∧
    (∃ x, exec .quant s = .next x) ∧ ∃ z, exec .quant { s with status := { s.status with qsat := false } } = .next z :=
  ⟨by simp [StatusInv, pending, accept, Status.onAccept, built, buildMatrix, blank, State.reset, State.resetAt], rfl,
    by decide, by decide, by decide, by decide, by decide, ⟨_, rfl⟩, ⟨_, rfl⟩⟩

/-- The ends of each range. -/
theorem witness_ReadOnlyWritesRefused :
    blank.status.busy = false ∧ (4 : WordOffset).val = 4 ∧ (192 ≤ (192 : WordOffset).val ∧ (255 : WordOffset).val < 256) ∧
    (7 ≤ (7 : WordOffset).val ∧ (63 : WordOffset).val < 64) ∧ 512 ≤ (512 : WordOffset).val := by decide

/-- The ends of each range, and another offset. -/
theorem witness_ReadAfterWrite :
    blank.status.busy = false ∧ (3 : WordOffset).val = 3 ∧ (64 ≤ (64 : WordOffset).val ∧ (191 : WordOffset).val < 192) ∧
    (256 ≤ (256 : WordOffset).val ∧ (447 : WordOffset).val < 448 ∧ (511 : WordOffset).val < 512) ∧ (4 : WordOffset) ≠ 3 := by
  decide

theorem witness_ReadsAreIdempotent : blank.status.busy = false ∧ (0 : WordOffset) ≠ 1 := by decide

theorem witness_FaultHaltsUntilCleared :
    (raiseFault .runsum blank).status.busy = false ∧ (raiseFault .runsum blank).status.err = true ∧
    (0x00000004#32 : Word).getLsbD 2 = true := by decide

theorem witness_InterruptLine : StatusInv blank := by
  simp [StatusInv, blank, State.reset, State.resetAt]

/-- 64 words for PB, 64 i16 operands for RLV. -/
theorem witness_LoadFillsBank :
    blank.status.busy = false ∧ (List.replicate 64 (Operand.f32 72)).length = 64 ∧
    (∃ es, expand 0 (.ld .pb (List.replicate 64 (.f32 72))) = some es) ∧
    ∃ es, expand 0 (.ld .rlv (List.replicate 64 (.i16 (-13)))) = some es :=
  ⟨rfl, rfl, ⟨_, rfl⟩, ⟨_, rfl⟩⟩

end Sys2Proof.Tests
end

section
/-! SUPPORT. The invariant of the unit's state (R33, R37, R241): each operation that a step is made of keeps it, and so
does every step. -/

namespace Sys2Proof.Proofs

open Sys2Proof.Machine Sys2Proof.Safety

/-! ### The flags -/

theorem errCode_code_bounds (e : ErrCode) : 1 ≤ e.code.toNat ∧ e.code.toNat ≤ 7 := by
  cases e <;> decide

/-- STATUS is all that StatusInv speaks of, and of STATUS neither QSAT nor HERR. -/
theorem statusInv_of_flags_eq {s t : State} (hs : StatusInv s) (busy : t.status.busy = s.status.busy)
    (done : t.status.done = s.status.done) (err : t.status.err = s.status.err)
    (ecode : t.status.ecode = s.status.ecode) : StatusInv t := by
  unfold StatusInv
  rw [busy, done, err, ecode]
  exact hs

theorem statusInv_refuse {s : State} (hs : StatusInv s) : StatusInv (refuse s) :=
  statusInv_of_flags_eq hs rfl rfl rfl rfl

/-- A fault is raised by a pending command, so DONE is 0 (R246). -/
theorem statusInv_raiseFault {s : State} (hs : StatusInv s) (hb : s.status.busy = true) (e : ErrCode) :
    StatusInv (raiseFault e s) := by
  obtain ⟨hbusy, -, -, -⟩ := hs
  obtain ⟨hdone, -⟩ := hbusy hb
  have hcode := errCode_code_bounds e
  simp [StatusInv, hdone, hcode]

/-- A command succeeds from a pending one, so ERR is 0 (R249). -/
theorem statusInv_succeed {s : State} (hs : StatusInv s) (hb : s.status.busy = true) : StatusInv (succeed s) := by
  obtain ⟨hbusy, -, hnone, -⟩ := hs
  obtain ⟨-, herr⟩ := hbusy hb
  have hecode : s.status.ecode = 0#4 := hnone herr
  simp [StatusInv, herr, hecode]

theorem statusInv_accept {s : State} (hs : StatusInv s) (herr : s.status.err = false) (d : Word) :
    StatusInv (accept s d) := by
  obtain ⟨-, -, hnone, -⟩ := hs
  have hecode : s.status.ecode = 0#4 := hnone herr
  simp [StatusInv, herr, hecode]

/-- Clearing flags keeps them exclusive, and ERR is cleared together with ECODE (R33). -/
theorem statusInv_writeOneToClear {s : State} (hs : StatusInv s) (d : Word) :
    StatusInv { s with status := s.status.writeOneToClear d } := by
  obtain ⟨hbusy, hdone, hnone, hcode⟩ := hs
  cases h2 : d.getLsbD 2 <;> simp_all [StatusInv]

/-! ### The matrix -/

/-- MatrixInv speaks of FACTOR and QM only. -/
theorem matrixInv_of_eq {s t : State} (hs : MatrixInv s) (factor : t.factor = s.factor) (qm : t.qm = s.qm) :
    MatrixInv t := by
  unfold MatrixInv
  rw [factor, qm]
  exact hs

/-- A build puts FACTOR and QM in step (R155, R156). -/
theorem matrixInv_buildMatrix (n : Int) (s : State) : MatrixInv (buildMatrix bcu n s) := fun _ => by
  rw [buildMatrix_clampedFactor, buildMatrix_qm]

theorem matrixInv_outcome {s : State} (hs : MatrixInv s) (i : Instr) : MatrixInv (outcome i s) := by
  obtain ⟨n, h⟩ | ⟨hqm, hfactor⟩ := outcome_matrix i s
  · rw [h]; exact matrixInv_buildMatrix n s
  · exact matrixInv_of_eq hs hfactor hqm

/-! ### The steps -/

theorem stateInv_exec {s t : State} (hs : StateInv s) (hb : s.status.busy = true) (i : Instr)
    (h : exec i s = .next t) : StateInv t := by
  obtain ⟨hstatus, hmatrix⟩ := hs
  obtain ⟨e, -, rfl⟩ | ⟨u, hu, rfl⟩ := exec_cases i s t h
  · exact ⟨statusInv_raiseFault hstatus hb e, matrixInv_of_eq hmatrix rfl rfl⟩
  · obtain rfl := pseudocode_ok i s u hu
    have keeps := outcome_keepsControl i s
    have hinv : StatusInv (outcome i s) := statusInv_of_flags_eq hstatus keeps.busy keeps.done keeps.err keeps.ecode
    exact ⟨statusInv_succeed hinv (keeps.busy.trans hb), matrixInv_of_eq (matrixInv_outcome hmatrix i) rfl rfl⟩

theorem stateInv_coreStep {s t : State} (hs : StateInv s) (h : coreStep s = .next t) : StateInv t := by
  obtain ⟨-, rfl⟩ | ⟨hb, hc⟩ := coreStep_cases s t h
  · exact hs
  · obtain ⟨i, -, he⟩ | ⟨-, rfl⟩ := completion_cases s t hc
    · exact stateInv_exec hs hb i he
    · obtain ⟨hstatus, hmatrix⟩ := hs
      exact ⟨statusInv_raiseFault hstatus hb .illcmd, matrixInv_of_eq hmatrix rfl rfl⟩

theorem stateInv_hostRead {s : State} (hs : StateInv s) (a : WordOffset) : StateInv (hostRead s a) := by
  have h : StateInv (memRead s a).2 := by
    have hrefuse : StateInv (refuse s) := ⟨statusInv_refuse hs.1, matrixInv_of_eq hs.2 rfl rfl⟩
    obtain h | ⟨-, h⟩ | ⟨-, h⟩ := memRead_cases s a <;> rw [h]
    · exact hs
    · exact hrefuse
    · exact hrefuse
  exact h

/-- The host's stores leave QM alone (R69), and STATUS and FACTOR. -/
theorem storeElem_frame (s : State) (b : BankId) (k : Fin 64) (d : Word) :
    (storeElem s b k d).status = s.status ∧ (storeElem s b k d).factor = s.factor ∧ (storeElem s b k d).qm = s.qm := by
  cases b <;> exact ⟨rfl, rfl, rfl⟩

theorem stateInv_memWrite {s : State} (hs : StateInv s) (a : WordOffset) (d : Word) : StateInv (memWrite s a d) := by
  obtain ⟨hstatus, hmatrix⟩ := hs
  obtain h | h | h | ⟨-, herr, -, h⟩ | ⟨-, h | h | h | ⟨b, k, -, h⟩⟩ := memWrite_cases s a d <;> rw [h]
  · exact ⟨statusInv_writeOneToClear hstatus d, hmatrix⟩
  · exact ⟨hstatus, hmatrix⟩
  · exact ⟨statusInv_refuse hstatus, hmatrix⟩
  · exact ⟨statusInv_accept hstatus herr d, hmatrix⟩
  · exact ⟨hstatus, hmatrix⟩
  · exact ⟨hstatus, hmatrix⟩
  · exact ⟨hstatus, hmatrix⟩
  · obtain ⟨estatus, efactor, eqm⟩ := storeElem_frame s b k d
    exact ⟨statusInv_of_flags_eq hstatus (by rw [estatus]) (by rw [estatus]) (by rw [estatus]) (by rw [estatus]),
      matrixInv_of_eq hmatrix efactor eqm⟩

theorem stateInv_resetAt (g : Nat) : StateInv (State.resetAt g) :=
  ⟨by simp [StatusInv, State.resetAt], fun h => absurd rfl h⟩

/-- Settles O48: each kind of step keeps the invariant (R33, R37, R241). -/
theorem stepKeepsInvariant : Obligations.StepKeepsInvariant := by
  intro s t hs h
  obtain ⟨-, hc⟩ | ⟨rest, -, hc⟩ | ⟨a, rest, -, rfl⟩ | ⟨a, d, rest, -, rfl⟩ | ⟨rest, -, rfl⟩ := step_cases s t h
  · exact stateInv_coreStep hs hc
  · exact stateInv_coreStep (s := { s with schedule := rest }) hs hc
  · exact stateInv_hostRead (s := { s with schedule := rest }) hs a
  · exact stateInv_memWrite (s := { s with schedule := rest }) hs a d
  · exact stateInv_resetAt (s.freeCount + 1)

/-- Settles O47: the invariant holds at power-up (R42). -/
theorem resetSatisfiesInvariant : Obligations.ResetSatisfiesInvariant := stateInv_resetAt 0

end Sys2Proof.Proofs
end

section
/-! SUPPORT. What a command's result depends on (R27, R29, R224): the elements it uses, congruence of the operations that
read them, and two runs of one command on states that agree on what it reads. -/

namespace Sys2Proof.Proofs

open Sys2Proof.Machine Sys2Proof.Safety

/-! ### Banks -/

theorem bankAgree_refl {n : Nat} (b : Bank n) : BankAgree b b := ⟨rfl, fun _ _ => rfl⟩

theorem bankAgree_of_eq {n : Nat} {a b : Bank n} (h : a = b) : BankAgree a b := h ▸ bankAgree_refl a

theorem bankAgree_store {n : Nat} {a b : Bank n} (h : BankAgree a b) (k : Fin 64) (v : BitVec n) :
    BankAgree (a.store k v) (b.store k v) := by
  obtain ⟨hw, hd⟩ := h
  refine ⟨by simp [Bank.store, hw], fun j hj => ?_⟩
  rw [store_data, store_data]
  rw [store_written] at hj
  by_cases e : j = k
  · simp [e]
  · simpa [e] using hd j (by simpa [e] using hj)

theorem bankAgree_fillPrefix {n : Nat} {a b : Bank n} (h : BankAgree a b) (vs : List (BitVec n)) :
    BankAgree (a.fillPrefix vs) (b.fillPrefix vs) := by
  obtain ⟨hw, hd⟩ := h
  refine ⟨by simp [Bank.fillPrefix, hw], fun k hk => ?_⟩
  rw [fillPrefix_written] at hk
  by_cases e : k.val < vs.length
  · rw [fillPrefix_data_lt _ _ _ e, fillPrefix_data_lt _ _ _ e]
  · rw [fillPrefix_data_ge _ _ _ (by omega), fillPrefix_data_ge _ _ _ (by omega)]
    exact hd k (by simpa [e] using hk)

/-- A fill of the leading elements that covers the bank leaves nothing of what it held. -/
theorem fillPrefix_of_length_eq {n : Nat} (a b : Bank n) (vs : List (BitVec n)) (h : vs.length = 64) :
    a.fillPrefix vs = b.fillPrefix vs := by
  rw [show vs = (⟨vs.toArray, by simpa using h⟩ : Vector (BitVec n) 64).toList by rfl, fillPrefix_full, fillPrefix_full]

/-! ### The operations that read a part of a bank -/

theorem mem_take_finRange {n : Nat} {k : Fin 64} : k ∈ (List.finRange 64).take n ↔ k.val < n := by
  rw [List.mem_take_iff_getElem]
  constructor
  · rintro ⟨i, hi, rfl⟩
    simp only [List.getElem_finRange, Fin.val_cast]
    omega
  · intro h
    exact ⟨k.val, by simp; omega, by simp⟩

/-- The sequence reads the first n elements only (R195). -/
theorem sequence_congr {y z : Mat Half} {n : Nat} (h : ∀ k : Fin 64, k.val < n → y[k] = z[k]) :
    sequence y n = sequence z n :=
  List.map_congr_left fun k hk => h k (mem_take_finRange.mp hk)

/-- The run list reads the first RLN pairs only (R195). -/
theorem heldRuns_congr {s t : State} (hn : s.rln = t.rln)
    (h : ∀ k : Fin 64, k.val < u32 s.rln → s.rlv.data[k] = t.rlv.data[k] ∧ s.rlc.data[k] = t.rlc.data[k]) :
    heldRuns s = heldRuns t := by
  unfold heldRuns
  rw [← hn]
  refine List.map_congr_left fun k hk => ?_
  obtain ⟨hv, hc⟩ := h k (mem_take_finRange.mp hk)
  rw [hv, hc]

/-- The zigzag table reaches every element, so unscan leaves nothing of the matrix it writes on (R184). -/
theorem unscan_bcu_congr (z q m : Mat Half) : unscan bcu.zz z q = unscan bcu.zz z m := by
  apply mat_ext
  intro i
  obtain ⟨k, rfl⟩ := (zzIndex_bijective zzTable zzTable_injective).2 i
  exact (unscan_getElem zzTable zzTable_injective z q k).trans (unscan_getElem zzTable zzTable_injective z m k).symm

/-! ### Two runs of one command -/

/-- Two results of a pseudocode: the same check ended both, or both were completed, in states related by R. -/
def Alike (R : State → State → Prop) : Except ErrCode State → Except ErrCode State → Prop
  | .error e, .error f => e = f
  | .ok u, .ok v => R u v
  | _, _ => False

theorem alike_ok {R : State → State → Prop} {u v : State} (h : R u v) : Alike R (.ok u) (.ok v) := h

/-- Two completions of a command whose pseudocode went alike (R296). -/
theorem exec_alike {R : State → State → Prop} {i : Instr} {s t : State} (h : Alike R (pseudocode i s) (pseudocode i t)) :
    ∃ s' t', exec i s = .next s' ∧ exec i t = .next t' ∧
      ((∃ e, s' = raiseFault e s ∧ t' = raiseFault e t) ∨ ∃ u v, R u v ∧ s' = succeed u ∧ t' = succeed v) := by
  rw [exec_eq_complete, exec_eq_complete]
  match hs : pseudocode i s, ht : pseudocode i t with
  | .error e, .error f =>
    rw [hs, ht] at h
    obtain rfl : e = f := h
    exact ⟨_, _, rfl, rfl, .inl ⟨e, rfl, rfl⟩⟩
  | .ok u, .ok v => rw [hs, ht] at h; exact ⟨_, _, rfl, rfl, .inr ⟨u, v, h, rfl, rfl⟩⟩
  | .error _, .ok _ => rw [hs, ht] at h; exact h.elim
  | .ok _, .error _ => rw [hs, ht] at h; exact h.elim

/-- Two runs that come to the same check go on only where it passes. -/
theorem alike_check {R : State → State → Prop} {p q : Prop} [Decidable p] [Decidable q] {e : ErrCode}
    {x y : Except ErrCode State} (hpq : p ↔ q) (h : ¬ p → Alike R x y) :
    Alike R (if p then .error e else x) (if q then .error e else y) := by
  by_cases hp : p
  · rw [if_pos hp, if_pos (hpq.mp hp)]; rfl
  · rw [if_neg hp, if_neg (mt hpq.mpr hp)]; exact h hp

theorem encblk_eq (c : Config) (s : State) : encblk c s =
    if s.factor = 0#4 then .error .qminv
    else if someElem (fun w => !isFinite w) s.pb.data then .error .nonfin
    else .ok (encoded c s) := rfl

theorem decblk_eq (c : Config) (s : State) : decblk c s =
    if s.factor = 0#4 then .error .qminv
    else if u32 s.rln > 64 then .error .len
    else if runTotal (heldRuns s) ≠ 64 then .error .runsum
    else .ok (decoded c s) := rfl

/-- ENCBLK reads FACTOR, and PB and QM where FACTOR is not 0 (R27, R221). -/
theorem encblk_alike {R : State → State → Prop} {s t : State} (hf : s.factor = t.factor)
    (hd : s.factor ≠ 0#4 → s.pb.data = t.pb.data ∧ s.qm.data = t.qm.data)
    (hR : s.pb.data = t.pb.data → s.qm.data = t.qm.data → R (encoded bcu s) (encoded bcu t)) :
    Alike R (encblk bcu s) (encblk bcu t) := by
  rw [encblk_eq, encblk_eq]
  refine alike_check (by rw [hf]) fun f => ?_
  obtain ⟨hpb, hqm⟩ := hd f
  exact alike_check (by rw [hpb]) fun _ => alike_ok (hR hpb hqm)

/-- DECBLK reads FACTOR and RLN, and the run list and QM where these two pass their checks (R27, R222). -/
theorem decblk_alike {R : State → State → Prop} {s t : State} (hf : s.factor = t.factor) (hn : s.rln = t.rln)
    (hd : s.factor ≠ 0#4 → u32 s.rln ≤ 64 → heldRuns s = heldRuns t ∧ s.qm.data = t.qm.data)
    (hR : heldRuns s = heldRuns t → runTotal (heldRuns s) = 64 → s.qm.data = t.qm.data →
      R (decoded bcu s) (decoded bcu t)) :
    Alike R (decblk bcu s) (decblk bcu t) := by
  rw [decblk_eq, decblk_eq]
  refine alike_check (by rw [hf]) fun f => alike_check (by rw [hn]) fun len => ?_
  obtain ⟨hruns, hqm⟩ := hd f (Nat.le_of_not_lt len)
  exact alike_check (by rw [hruns]) fun sum => alike_ok (hR hruns (not_not.mp sum) hqm)

/-! ### What the fused commands leave -/

/-- What ENCBLK makes of the states s and t where both give the same block and matrix: the coefficients, the quantized
block, its zigzag sequence, the first RLN pairs of the run list, and the report of a clamp (R221). -/
structure SameEncoding (s t u v : State) : Prop where
  status : ∃ sat, u.status = s.status.onSaturate sat ∧ v.status = t.status.onSaturate sat
  cb : u.cb = v.cb
  qb : u.qb = v.qb
  zs : u.zs = v.zs
  zlen : u.zlen = v.zlen
  rln : u.rln = v.rln
  runs : ∀ k : Fin 64, k.val < u.rln.toNat → u.rlv.data[k] = v.rlv.data[k] ∧ u.rlc.data[k] = v.rlc.data[k]

/-- After writeRuns the first RLN pairs are the list's, whatever the banks held. -/
theorem writeRuns_leading_congr (s t : State) (runs : List (Half × Nat)) (k : Fin 64)
    (hk : k.val < (writeRuns s runs).rln.toNat) :
    (writeRuns s runs).rlv.data[k] = (writeRuns t runs).rlv.data[k] ∧
    (writeRuns s runs).rlc.data[k] = (writeRuns t runs).rlc.data[k] := by
  have hlen : k.val < runs.length := by
    rw [writeRuns_rln, BitVec.toNat_ofNat] at hk
    exact lt_of_lt_of_le hk (Nat.mod_le _ _)
  have hv : k.val < (runs.map fun p => p.1).length := by simpa using hlen
  have hc : k.val < (runs.map fun p => BitVec.ofNat 32 p.2).length := by simpa using hlen
  simp only [writeRuns_rlv, writeRuns_rlc]
  rw [fillPrefix_data_lt _ _ _ hv, fillPrefix_data_lt _ _ _ hv, fillPrefix_data_lt _ _ _ hc,
    fillPrefix_data_lt _ _ _ hc]
  exact ⟨rfl, rfl⟩

theorem encoded_sameEncoding {s t : State} (hpb : s.pb.data = t.pb.data) (hqm : s.qm.data = t.qm.data) :
    SameEncoding s t (encoded bcu s) (encoded bcu t) := by
  unfold encoded
  rw [hpb, hqm]
  exact ⟨⟨_, rfl, rfl⟩, rfl, rfl, rfl, rfl, rfl, writeRuns_leading_congr _ _ _⟩

/-- What DECBLK makes of the states s and t where both give the same run list and matrix: all that it writes, and no
other flag (R222). -/
structure SameDecoding (s t u v : State) : Prop where
  status_left : u.status = s.status
  status_right : v.status = t.status
  pb : u.pb = v.pb
  cb : u.cb = v.cb
  qb : u.qb = v.qb
  zs : u.zs = v.zs
  zlen : u.zlen = v.zlen

theorem decoded_sameDecoding {s t : State} (hruns : heldRuns s = heldRuns t) (sum : runTotal (heldRuns s) = 64)
    (hqm : s.qm.data = t.qm.data) : SameDecoding s t (decoded bcu s) (decoded bcu t) := by
  have hzs : s.zs.fillPrefix (dec (heldRuns s)) = t.zs.fillPrefix (dec (heldRuns s)) :=
    fillPrefix_of_length_eq _ _ _ (by rw [dec_length, sum])
  unfold decoded
  simp only [writeSequence_zs, ← hruns, ← hqm, hzs, unscan_bcu_congr _ s.qb.data t.qb.data]
  exact ⟨rfl, rfl, rfl, rfl, rfl, rfl, rfl⟩

/-- Settles O39: from the same operands the same check ends both runs, or both write the same (R224). -/
theorem blockIndependence : Obligations.BlockIndependence := by
  refine ⟨fun s t hpb hqm hf => ?_, fun s t hn hr hqm hf => ?_⟩
  · have alike : Alike (SameEncoding s t) (pseudocode .encblk s) (pseudocode .encblk t) :=
      encblk_alike hf (fun _ => ⟨hpb, hqm⟩) encoded_sameEncoding
    obtain ⟨s', t', es, et, ⟨e, rfl, rfl⟩ | ⟨u, v, h, rfl, rfl⟩⟩ := exec_alike alike
    · exact ⟨_, _, es, et, .inl ⟨e.code, rfl, rfl⟩⟩
    · obtain ⟨sat, hu, hv⟩ := h.status
      refine ⟨_, _, es, et, .inr ⟨?_, ?_, fun hq => ?_, h.cb, h.qb, h.zs, h.zlen, h.rln, h.runs⟩⟩
      · rw [succeed_status, hu]; rfl
      · rw [succeed_status, hv]; rfl
      · simp [hu, hv, hq]
  · have alike : Alike (SameDecoding s t) (pseudocode .decblk s) (pseudocode .decblk t) :=
      decblk_alike hf hn (fun _ _ => ⟨heldRuns_congr hn hr, hqm⟩) decoded_sameDecoding
    obtain ⟨s', t', es, et, ⟨e, rfl, rfl⟩ | ⟨u, v, h, rfl, rfl⟩⟩ := exec_alike alike
    · exact ⟨_, _, es, et, .inl ⟨e.code, rfl, rfl⟩⟩
    · refine ⟨_, _, es, et, .inr ⟨?_, ?_, h.pb, h.cb, h.qb, h.zs, h.zlen⟩⟩
      · rw [succeed_status, h.status_left]; rfl
      · rw [succeed_status, h.status_right]; rfl

end Sys2Proof.Proofs
end

section
/-! SUPPORT. Agreement of two states on what has been written (R29, R282, R298): each operation of a step keeps it, the
completion of a command provided that the elements it uses have been written. -/

namespace Sys2Proof.Proofs

open Sys2Proof.Machine Sys2Proof.Safety

/-- AgreeOnWritten with its parts named. -/
structure Agreement (s t : State) : Prop where
  status : s.status = t.status
  ctrl : s.ctrl = t.ctrl
  factin : s.factin = t.factin
  factor : s.factor = t.factor
  zlen : s.zlen = t.zlen
  rln : s.rln = t.rln
  schedule : s.schedule = t.schedule
  reply : s.reply = t.reply
  freeCount : s.freeCount = t.freeCount
  cmdw : s.status.busy = true → s.cmdw = t.cmdw
  pb : BankAgree s.pb t.pb
  cb : BankAgree s.cb t.cb
  qm : BankAgree s.qm t.qm
  qb : BankAgree s.qb t.qb
  zs : BankAgree s.zs t.zs
  rlv : BankAgree s.rlv t.rlv
  rlc : BankAgree s.rlc t.rlc

theorem agreeOnWritten_iff (s t : State) : AgreeOnWritten s t ↔ Agreement s t := by
  constructor
  · rintro ⟨h1, h2, h3, h4, h5, h6, h7, h8, h9, h10, h11, h12, h13, h14, h15, h16, h17⟩
    exact ⟨h1, h2, h3, h4, h5, h6, h7, h8, h9, h10, h11, h12, h13, h14, h15, h16, h17⟩
  · rintro ⟨h1, h2, h3, h4, h5, h6, h7, h8, h9, h10, h11, h12, h13, h14, h15, h16, h17⟩
    exact ⟨h1, h2, h3, h4, h5, h6, h7, h8, h9, h10, h11, h12, h13, h14, h15, h16, h17⟩

theorem agreement_refl (s : State) : Agreement s s :=
  (agreeOnWritten_iff s s).mp ⟨rfl, rfl, rfl, rfl, rfl, rfl, rfl, rfl, rfl, fun _ => rfl, bankAgree_refl _,
    bankAgree_refl _, bankAgree_refl _, bankAgree_refl _, bankAgree_refl _, bankAgree_refl _, bankAgree_refl _⟩

/-! ### Operations -/

variable {s t : State}

/-- A change of STATUS that depends on STATUS only and sets BUSY at most where it was 1. -/
theorem agreement_status (h : Agreement s t) (f : Status → Status) (hb : (f s.status).busy = true → s.status.busy = true) :
    Agreement { s with status := f s.status } { t with status := f t.status } :=
  { h with status := congrArg f h.status, cmdw := fun b => h.cmdw (hb b) }

theorem agreement_pb (h : Agreement s t) (b : Bank 32) : Agreement { s with pb := b } { t with pb := b } :=
  { h with pb := bankAgree_refl b }

theorem agreement_cb (h : Agreement s t) (b : Bank 32) : Agreement { s with cb := b } { t with cb := b } :=
  { h with cb := bankAgree_refl b }

theorem agreement_qb (h : Agreement s t) (b : Bank 16) : Agreement { s with qb := b } { t with qb := b } :=
  { h with qb := bankAgree_refl b }

theorem agreement_quantized (h : Agreement s t) (b : Bank 16) (sat : Bool) :
    Agreement { s with qb := b, status := s.status.onSaturate sat } { t with qb := b, status := t.status.onSaturate sat } :=
  agreement_status (agreement_qb h b) (·.onSaturate sat) id

theorem agreement_sequence (h : Agreement s t) (b : Bank 16) (n : Word) :
    Agreement { s with zs := b, zlen := n } { t with zs := b, zlen := n } :=
  { h with zs := bankAgree_refl b, zlen := rfl }

theorem agreement_refuse (h : Agreement s t) : Agreement (refuse s) (refuse t) := agreement_status h _ id

theorem agreement_raiseFault (h : Agreement s t) (e : ErrCode) : Agreement (raiseFault e s) (raiseFault e t) :=
  agreement_status h (·.onFault e) (by simp)

theorem agreement_succeed (h : Agreement s t) : Agreement (succeed s) (succeed t) :=
  agreement_status h _ (by simp)

theorem agreement_accept (h : Agreement s t) (d : Word) : Agreement (accept s d) (accept t d) :=
  { h with status := congrArg Status.onAccept h.status, cmdw := fun _ => rfl }

theorem agreement_storeElem (h : Agreement s t) (b : BankId) (k : Fin 64) (d : Word) :
    Agreement (storeElem s b k d) (storeElem t b k d) := by
  cases b
  case pb => exact { h with pb := bankAgree_store h.pb k d }
  case cb => exact { h with cb := bankAgree_store h.cb k d }
  case qm => exact h
  case qb => exact { h with qb := bankAgree_store h.qb k (low16 d) }
  case zs => exact { h with zs := bankAgree_store h.zs k (low16 d) }
  case rlv => exact { h with rlv := bankAgree_store h.rlv k (low16 d) }
  case rlc => exact { h with rlc := bankAgree_store h.rlc k d }

theorem agreement_writePlace (h : Agreement s t) (p : Place) (d : Word) :
    Agreement (writePlace s p d) (writePlace t p d) := by
  cases p
  case cmd =>
    simp only [writePlace, writeCmd, ← h.status]
    split
    · exact agreement_refuse h
    · exact agreement_accept h d
  case elem b k => exact agreement_storeElem h b k d
  case factin => exact { h with factin := rfl }
  case zlen => exact { h with zlen := rfl }
  case rln => exact { h with rln := rfl }
  all_goals exact h

/-- A MemWrite reads nothing but STATUS (R63). -/
theorem agreement_memWrite (h : Agreement s t) (a : WordOffset) (d : Word) : Agreement (memWrite s a d) (memWrite t a d) := by
  by_cases h1 : a = 1
  · subst h1; exact agreement_status h (·.writeOneToClear d) id
  by_cases h2 : a = 2
  · subst h2; exact { h with ctrl := rfl }
  cases hb : s.status.busy
  · rw [memWrite_idle s a d hb h1 h2, memWrite_idle t a d (h.status ▸ hb) h1 h2]
    split
    · exact agreement_refuse h
    · exact agreement_writePlace h _ d
  · rw [memWrite_busy s a d hb h1 h2, memWrite_busy t a d (h.status ▸ hb) h1 h2]
    exact agreement_refuse h

theorem agreement_takeReset (h : Agreement s t) : Agreement (takeReset s) (takeReset t) := by
  rw [takeReset, takeReset, h.freeCount, h.schedule]
  exact agreement_refl _

/-! ### Reads -/

theorem elemWord_congr (h : Agreement s t) (b : BankId) (k : Fin 64) (hw : elemWritten s b k = true) :
    elemWord s b k = elemWord t b k := by
  cases b
  case pb => exact h.pb.2 k hw
  case cb => exact h.cb.2 k hw
  case qm => exact h.qm.2 k hw
  case qb => exact congrArg sext32 (h.qb.2 k hw)
  case zs => exact congrArg sext32 (h.zs.2 k hw)
  case rlv => exact congrArg sext32 (h.rlv.2 k hw)
  case rlc => exact h.rlc.2 k hw

/-- Two reads of an offset return the same word unless an element nobody has written stands there. -/
theorem peek_congr (h : Agreement s t) (a : WordOffset) (hw : ∀ b k, placeAt a = .elem b k → elemWritten s b k = true) :
    peek s a = peek t a := by
  unfold peek
  cases hp : placeAt a
  case elem b k => exact elemWord_congr h b k (hw b k hp)
  all_goals simp only [placeWord, h.status, h.ctrl, h.factin, h.factor, h.zlen, h.rln]

theorem agreement_hostRead (h : Agreement s t) (a : WordOffset)
    (hw : s.status.busy = false → ∀ b k, placeAt a = .elem b k → elemWritten s b k = true) :
    Agreement (hostRead s a) (hostRead t a) := by
  have same : (memRead s a).1 = (memRead t a).1 ∧ Agreement (memRead s a).2 (memRead t a).2 := by
    by_cases h1 : a = 1
    · subst h1; exact ⟨congrArg Status.word h.status, h⟩
    by_cases h2 : a = 2
    · subst h2; exact ⟨congrArg Ctrl.word h.ctrl, h⟩
    cases hb : s.status.busy
    · rw [memRead_idle s a hb, memRead_idle t a (h.status ▸ hb)]
      split
      · exact ⟨rfl, agreement_refuse h⟩
      · exact ⟨peek_congr h a (hw hb), h⟩
    · rw [memRead_busy s a hb h1 h2, memRead_busy t a (h.status ▸ hb) h1 h2]
      exact ⟨congrArg Config.refusedRead h.freeCount,
        { agreement_refuse h with freeCount := congrArg (· + 1) h.freeCount }⟩
  exact { same.2 with reply := congrArg some same.1 }

/-! ### Completions -/

theorem mem_whole (b : BankId) (k : Fin 64) : (b, k) ∈ whole b := List.mem_map.mpr ⟨k, List.mem_finRange k, rfl⟩

theorem mem_leading (b : BankId) (k : Fin 64) (n : Nat) (h : k.val < n) : (b, k) ∈ leading b n :=
  List.mem_map.mpr ⟨k, mem_take_finRange.mpr h, rfl⟩

/-- Every element of the list has been written. -/
def AllWritten (s : State) (l : List (BankId × Fin 64)) : Prop := ∀ p ∈ l, elemWritten s p.1 p.2 = true

theorem allWritten_append (s : State) (l m : List (BankId × Fin 64)) :
    AllWritten s (l ++ m) ↔ AllWritten s l ∧ AllWritten s m := List.forall_mem_append

/-- Banks that agree are equal where all 64 elements have been written. -/
theorem data_eq_of_written {n : Nat} {a b : Bank n} (h : BankAgree a b) (hw : ∀ k : Fin 64, a.written[k] = true) :
    a.data = b.data := mat_ext fun k => h.2 k (hw k)

theorem heldRuns_eq_of_written (h : Agreement s t)
    (hw : AllWritten s (leading .rlv (u32 s.rln) ++ leading .rlc (u32 s.rln))) : heldRuns s = heldRuns t := by
  obtain ⟨hv, hc⟩ := (allWritten_append _ _ _).mp hw
  exact heldRuns_congr h.rln fun k hk =>
    ⟨h.rlv.2 k (hv _ (mem_leading .rlv k _ hk)), h.rlc.2 k (hc _ (mem_leading .rlc k _ hk))⟩

theorem agreement_writeRuns (h : Agreement s t) (runs : List (Half × Nat)) :
    Agreement (writeRuns s runs) (writeRuns t runs) :=
  { h with rln := rfl, rlv := bankAgree_fillPrefix h.rlv _, rlc := bankAgree_fillPrefix h.rlc _ }

theorem agreement_writeSequence (h : Agreement s t) (z : List Half) :
    Agreement (writeSequence s z) (writeSequence t z) :=
  { h with zlen := rfl, zs := bankAgree_fillPrefix h.zs z }

theorem agreement_buildMatrix (h : Agreement s t) (n : Int) : Agreement (buildMatrix bcu n s) (buildMatrix bcu n t) :=
  { h with factor := rfl, qm := bankAgree_refl _ }

theorem agreement_encoded (h : Agreement s t) (hpb : s.pb.data = t.pb.data) (hqm : s.qm.data = t.qm.data) :
    Agreement (encoded bcu s) (encoded bcu t) := by
  unfold encoded
  rw [hpb, hqm]
  refine agreement_writeRuns ?_ _
  exact { h with
    status := by rw [h.status], zlen := rfl
    cb := bankAgree_refl _, qb := bankAgree_refl _, zs := bankAgree_refl _ }

theorem agreement_decoded (h : Agreement s t) (hruns : heldRuns s = heldRuns t) (sum : runTotal (heldRuns s) = 64)
    (hqm : s.qm.data = t.qm.data) : Agreement (decoded bcu s) (decoded bcu t) := by
  have same := decoded_sameDecoding hruns sum hqm
  exact { h with
    zlen := same.zlen
    pb := bankAgree_of_eq same.pb, cb := bankAgree_of_eq same.cb
    qb := bankAgree_of_eq same.qb, zs := bankAgree_of_eq same.zs }

/-- From two states that agree on what has been written, a command that uses written elements only goes alike. -/
theorem pseudocode_agree (h : Agreement s t) (i : Instr) (hw : AllWritten s (uses i s)) :
    Alike Agreement (pseudocode i s) (pseudocode i t) := by
  cases i <;> simp only [pseudocode, uses] at hw ⊢
  case fdct =>
    have hpb : s.pb.data = t.pb.data := data_eq_of_written h.pb fun k => hw _ (mem_whole .pb k)
    rw [fdct, fdct, ← hpb]
    exact alike_check .rfl fun _ => alike_ok (agreement_cb h _)
  case idct =>
    have hcb : s.cb.data = t.cb.data := data_eq_of_written h.cb fun k => hw _ (mem_whole .cb k)
    rw [idct, idct, ← hcb]
    exact alike_check .rfl fun _ => alike_ok (agreement_pb h _)
  case qbuild =>
    rw [qbuild, qbuild, ← h.factin]
    exact alike_ok (agreement_buildMatrix h _)
  case qbuildi => exact alike_ok (agreement_buildMatrix h _)
  case quant =>
    rw [quant, quant]
    refine alike_check (by rw [h.factor]) fun hf => ?_
    rw [if_neg hf, allWritten_append] at hw
    have hcb : s.cb.data = t.cb.data := data_eq_of_written h.cb fun k => hw.1 _ (mem_whole .cb k)
    have hqm : s.qm.data = t.qm.data := data_eq_of_written h.qm fun k => hw.2 _ (mem_whole .qm k)
    rw [← hcb, ← hqm]
    exact alike_check .rfl fun _ => alike_ok (agreement_quantized h _ _)
  case dequant =>
    rw [dequant, dequant]
    refine alike_check (by rw [h.factor]) fun hf => ?_
    rw [if_neg hf, allWritten_append] at hw
    have hqb : s.qb.data = t.qb.data := data_eq_of_written h.qb fun k => hw.1 _ (mem_whole .qb k)
    have hqm : s.qm.data = t.qm.data := data_eq_of_written h.qm fun k => hw.2 _ (mem_whole .qm k)
    rw [← hqb, ← hqm]
    exact alike_ok (agreement_cb h _)
  case zscan =>
    have hqb : s.qb.data = t.qb.data := data_eq_of_written h.qb fun k => hw _ (mem_whole .qb k)
    rw [zscan, zscan, ← hqb]
    exact alike_ok (agreement_sequence h _ _)
  case zunscan =>
    rw [zunscan, zunscan]
    refine alike_check (by rw [h.zlen]) fun hz => ?_
    rw [if_neg hz] at hw
    have hzs : s.zs.data = t.zs.data := data_eq_of_written h.zs fun k => hw _ (mem_whole .zs k)
    rw [← hzs, unscan_bcu_congr _ s.qb.data t.qb.data]
    exact alike_ok (agreement_qb h _)
  case rlenc =>
    rw [rlenc, rlenc]
    refine alike_check (by rw [h.zlen]) fun hz => ?_
    rw [if_neg hz] at hw
    rw [← h.zlen, ← sequence_congr fun k hk => h.zs.2 k (hw _ (mem_leading .zs k _ hk))]
    exact alike_ok (agreement_writeRuns h _)
  case rldec =>
    rw [rldec, rldec]
    refine alike_check (by rw [h.rln]) fun hn => ?_
    rw [if_neg hn] at hw
    rw [← heldRuns_eq_of_written h hw]
    exact alike_check .rfl fun _ => alike_ok (agreement_writeSequence h _)
  case rldecb =>
    rw [rldecb, rldecb]
    refine alike_check (by rw [h.rln]) fun hn => ?_
    rw [if_neg hn] at hw
    rw [← heldRuns_eq_of_written h hw]
    exact alike_check .rfl fun _ => alike_ok (agreement_writeSequence h _)
  case encblk =>
    refine encblk_alike h.factor (fun hf => ?_) (agreement_encoded h)
    rw [if_neg hf, allWritten_append] at hw
    exact ⟨data_eq_of_written h.pb fun k => hw.1 _ (mem_whole .pb k),
      data_eq_of_written h.qm fun k => hw.2 _ (mem_whole .qm k)⟩
  case decblk =>
    refine decblk_alike h.factor h.rln (fun hf hn => ?_) (agreement_decoded h)
    rw [if_neg (by simp [hf, Nat.not_lt.mpr hn]), allWritten_append] at hw
    exact ⟨heldRuns_eq_of_written h hw.1, data_eq_of_written h.qm fun k => hw.2 _ (mem_whole .qm k)⟩

theorem agreement_exec {s' t' : State} (h : Agreement s t) (i : Instr) (hw : AllWritten s (uses i s))
    (hs : exec i s = .next s') (ht : exec i t = .next t') : Agreement s' t' := by
  obtain ⟨s₁, t₁, es, et, hcases⟩ := exec_alike (pseudocode_agree h i hw)
  cases hs.symm.trans es
  cases ht.symm.trans et
  obtain ⟨e, rfl, rfl⟩ | ⟨u, v, huv, rfl, rfl⟩ := hcases
  · exact agreement_raiseFault h e
  · exact agreement_succeed huv

theorem agreement_coreStep {s' t' : State} (h : Agreement s t) (hw : AllWritten s (coreUses s))
    (hs : coreStep s = .next s') (ht : coreStep t = .next t') : Agreement s' t' := by
  unfold coreStep at hs ht
  unfold coreUses at hw
  rw [← h.status] at ht
  cases hb : s.status.busy
  case false =>
    rw [hb] at hs ht
    cases hs
    cases ht
    exact h
  case true =>
    rw [if_pos hb] at hs ht hw
    unfold completion at hs ht
    rw [← h.cmdw hb] at ht
    cases hd : decode s.cmdw with
    | ok i =>
      simp only [hd] at hs ht hw
      exact agreement_exec h i hw hs ht
    | error _ =>
      simp only [hd] at hs ht
      cases hs
      cases ht
      exact agreement_raiseFault h _

theorem allWritten_of_usesWritten (h : usesWritten s = true) : AllWritten s (nextUses s) := List.all_eq_true.mp h

/-- Taking the first step off the schedule. -/
theorem agreement_schedule (h : Agreement s t) (rest : List Event) :
    Agreement { s with schedule := rest } { t with schedule := rest } := { h with schedule := rfl }

/-- Settles O49: each kind of step keeps the agreement (R29, R298). -/
theorem unwrittenElementsDoNotMatter : Obligations.UnwrittenElementsDoNotMatter := by
  intro s t s' t' hagree hwritten hs ht
  rw [agreeOnWritten_iff] at hagree ⊢
  have hw := allWritten_of_usesWritten hwritten
  unfold nextUses at hw
  unfold step at hs ht
  rw [← hagree.schedule] at ht
  cases hsched : s.schedule with
  | nil =>
    simp only [hsched] at hs ht hw
    exact agreement_coreStep hagree hw hs ht
  | cons event rest =>
    have h := agreement_schedule hagree rest
    cases event <;> simp only [hsched] at hs ht hw
    case core => exact agreement_coreStep h hw hs ht
    case read a =>
      cases hs
      cases ht
      refine agreement_hostRead h a fun hb b k hp => ?_
      have hidle : s.status.busy = false := hb
      simp only [hp, hidle] at hw
      exact hw (b, k) (by simp)
    case write a d =>
      cases hs
      cases ht
      exact agreement_memWrite h a d
    case reset =>
      cases hs
      cases ht
      exact agreement_takeReset h

end Sys2Proof.Proofs
end

section
/-! SUPPORT. What a completion leaves alone: the fault entry's code and the frame of each command (R27, R246, R249). -/

namespace Sys2Proof.Proofs

open Sys2Proof.Machine Sys2Proof.Safety

/-- Illegality is a matter of the word: no command raises E_ILLCMD (R98). -/
theorem pseudocode_ne_illcmd (i : Instr) (s : State) : pseudocode i s ≠ .error .illcmd := by
  cases i <;> simp only [pseudocode]
  case fdct => obtain ⟨-, e⟩ | ⟨-, e⟩ := fdct_cases bcu s <;> simp [e]
  case idct => obtain ⟨-, e⟩ | ⟨-, e⟩ := idct_cases bcu s <;> simp [e]
  case qbuild => simp [qbuild]
  case qbuildi => simp [qbuildi]
  case quant => obtain ⟨-, e⟩ | ⟨-, -, e⟩ | ⟨-, -, e⟩ := quant_cases bcu s <;> simp [e]
  case dequant => obtain ⟨-, e⟩ | ⟨-, e⟩ := dequant_cases s <;> simp [e]
  case zscan => simp [zscan]
  case zunscan => obtain ⟨-, e⟩ | ⟨-, e⟩ := zunscan_cases bcu s <;> simp [e]
  case rlenc => obtain ⟨-, e⟩ | ⟨-, e⟩ := rlenc_cases s <;> simp [e]
  case rldec => obtain ⟨-, e⟩ | ⟨-, -, e⟩ | ⟨-, -, e⟩ := rldec_cases s <;> simp [e]
  case rldecb => obtain ⟨-, e⟩ | ⟨-, -, e⟩ | ⟨-, -, e⟩ := rldecb_cases s <;> simp [e]
  case encblk => obtain ⟨-, e⟩ | ⟨-, -, e⟩ | ⟨-, -, e⟩ := encblk_cases bcu s <;> simp [e]
  case decblk => obtain ⟨-, e⟩ | ⟨-, -, e⟩ | ⟨-, -, -, e⟩ | ⟨-, -, -, e⟩ := decblk_cases bcu s <;> simp [e]

/-- QSAT is set by QUANT and ENCBLK only, and never cleared (R157, R162). -/
theorem outcome_qsat (i : Instr) (s : State) :
    (outcome i s).status.qsat = s.status.qsat ∨
      (i = .quant ∨ i = .encblk) ∧ (outcome i s).status.qsat = true := by
  cases i
  case quant =>
    cases hsat : saturates bcu.rnd s.cb.data s.qm.data
    · exact .inl (by simp [outcome, hsat])
    · exact .inr ⟨.inl rfl, by simp [outcome, hsat]⟩
  case encblk =>
    cases hsat : saturates bcu.rnd (bcu.num.fdct s.pb.data) s.qm.data
    · exact .inl (by simp [outcome, encoded, hsat])
    · exact .inr ⟨.inr rfl, by simp [outcome, encoded, hsat]⟩
  all_goals exact .inl rfl

/-- A command writes no bank but its destinations (R27). -/
theorem outcome_bank_frame (i : Instr) (s : State) (b : BankId) (hb : b ∉ destinationBanks i) (k : Fin 64) :
    elemWord (outcome i s) b k = elemWord s b k ∧ elemWritten (outcome i s) b k = elemWritten s b k := by
  cases b <;> cases i <;> simp [destinationBanks] at hb <;> simp [elemWord, elemWritten, outcome, encoded, decoded]

/-- A command writes no register but its destinations (R27). -/
theorem outcome_register_frame (i : Instr) (s : State) :
    ((outcome i s).factor = s.factor ∨ Place.factor ∈ destinationRegisters i) ∧
    ((outcome i s).zlen = s.zlen ∨ Place.zlen ∈ destinationRegisters i) ∧
    ((outcome i s).rln = s.rln ∨ Place.rln ∈ destinationRegisters i) := by
  cases i <;> simp [outcome, encoded, decoded, destinationRegisters]

/-- Settles O40: the fault entry, or the outcome of the command and its frame (R27, R246, R249). -/
theorem completionIsAllOrNothing : Obligations.CompletionIsAllOrNothing := by
  intro i s
  rw [exec_eq_complete]
  cases h : pseudocode i s with
  | error e =>
    refine ⟨_, rfl, .inl ⟨e.code, ?_, (errCode_code_bounds e).2, rfl⟩⟩
    cases e
    case illcmd => exact absurd h (pseudocode_ne_illcmd i s)
    all_goals decide
  | ok u =>
    obtain rfl := pseudocode_ok i s u h
    have keeps := outcome_keepsControl i s
    obtain ⟨hfactor, hzlen, hrln⟩ := outcome_register_frame i s
    have hstatus : (succeed (outcome i s)).status =
        { s.status with busy := false, done := true, qsat := (succeed (outcome i s)).status.qsat } := by
      simp only [succeed_status, Status.onSuccess, keeps.err, keeps.herr, keeps.ecode]
    exact ⟨_, rfl, .inr ⟨hstatus, outcome_qsat i s, fun b k hb => outcome_bank_frame i s b hb k, hfactor, hzlen, hrln,
      keeps.ctrl, keeps.factin, keeps.cmdw, keeps.schedule, keeps.reply, keeps.freeCount⟩⟩

end Sys2Proof.Proofs
end

section
/-! SUPPORT. The places where the host stores a word, and what reads back after a store (R28, R63, R65). -/

namespace Sys2Proof.Proofs

open Sys2Proof.Machine Sys2Proof.Safety

/-- The places where the host stores a word: the registers FACTIN, ZLEN, RLN and the elements of every bank but QM. -/
inductive Storable : Place → Prop
  | factin : Storable .factin
  | zlen : Storable .zlen
  | rln : Storable .rln
  | elem (b : BankId) (k : Fin 64) (hb : b ≠ .qm) : Storable (.elem b k)

/-- The word that reads back from a place where d was stored: the low half, sign-extended, from a 16-bit bank (R62). -/
def readBack (p : Place) (d : Word) : Word :=
  match p with
  | .elem .qb _ => sext32 (low16 d)
  | .elem .zs _ => sext32 (low16 d)
  | .elem .rlv _ => sext32 (low16 d)
  | _ => d

theorem elemWord_storeElem (s : State) (b c : BankId) (k j : Fin 64) (d : Word) (hb : b ≠ .qm) :
    elemWord (storeElem s b k d) c j = if c = b ∧ j = k then readBack (.elem b k) d else elemWord s c j := by
  by_cases hc : c = b
  · subst hc
    by_cases hj : j = k
    · cases c
      case qm => exact absurd rfl hb
      all_goals simp only [elemWord, storeElem, store_data, readBack, hj, and_self, if_true]
    · cases c <;> simp only [elemWord, storeElem, store_data, hj, and_false, if_false]
  · rw [if_neg (fun h => hc h.1)]
    cases b <;> cases c <;> simp_all [elemWord, storeElem]

/-- A store is read back at its place, and changes no other place. -/
theorem placeWord_writePlace (s : State) (p q : Place) (d : Word) (hp : Storable p) :
    placeWord (writePlace s p d) q = if q = p then readBack p d else placeWord s q := by
  cases hp with
  | elem b k hb =>
    cases q
    case elem c j => simp only [placeWord, writePlace, elemWord_storeElem s b c k j d hb, Place.elem.injEq]
    all_goals cases b <;> rfl
  | factin => cases q <;> rfl
  | zlen => cases q <;> rfl
  | rln => cases q <;> rfl

theorem readOnly_of_storable {p : Place} (hp : Storable p) : p.readOnly = false := by
  cases hp with
  | elem b k hb => cases b <;> simp_all [Place.readOnly]
  | _ => rfl

/-- What an idle unit does with a write at a place where the host stores. -/
theorem memWrite_storable (s : State) (a : WordOffset) (d : Word) (hidle : s.status.busy = false)
    (hp : Storable (placeAt a)) : memWrite s a d = writePlace s (placeAt a) d := by
  have h1 : a ≠ 1 := by rintro rfl; cases hp
  have h2 : a ≠ 2 := by rintro rfl; cases hp
  rw [memWrite_idle s a d hidle h1 h2, readOnly_of_storable hp]
  rfl

/-- The offsets where the host stores, and those of them that hold 16-bit elements (R65). -/
theorem storable_of_offset (a : WordOffset)
    (ha : a.val = 3 ∨ a.val = 5 ∨ a.val = 6 ∨ (64 ≤ a.val ∧ a.val < 192) ∨ (256 ≤ a.val ∧ a.val < 512)) :
    Storable (placeAt a) ∧ ∀ d, readBack (placeAt a) d = if 256 ≤ a.val ∧ a.val < 448 then sext32 (low16 d) else d := by
  obtain h | ⟨h, -⟩ | ⟨b, k, rfl⟩ := placeAt_cases a
  · obtain rfl | rfl | rfl | rfl | rfl | rfl | rfl := h
    · exact absurd ha (by decide)
    · exact absurd ha (by decide)
    · exact absurd ha (by decide)
    · exact ⟨.factin, fun _ => rfl⟩
    · exact absurd ha (by decide)
    · exact ⟨.zlen, fun _ => rfl⟩
    · exact ⟨.rln, fun _ => rfl⟩
  · omega
  · have hk := k.isLt
    rw [placeAt_elemOffset]
    simp only [elemOffset] at ha ⊢
    cases b <;> simp only [bankBase] at ha ⊢
    case qm => omega
    case pb => exact ⟨.elem _ k (by decide), fun d => (if_neg (by omega)).symm⟩
    case cb => exact ⟨.elem _ k (by decide), fun d => (if_neg (by omega)).symm⟩
    case rlc => exact ⟨.elem _ k (by decide), fun d => (if_neg (by omega)).symm⟩
    case qb => exact ⟨.elem _ k (by decide), fun d => (if_pos (by omega)).symm⟩
    case zs => exact ⟨.elem _ k (by decide), fun d => (if_pos (by omega)).symm⟩
    case rlv => exact ⟨.elem _ k (by decide), fun d => (if_pos (by omega)).symm⟩

/-- Settles O56: a store is read back at its own place, and no other offset shares that place (R28, R63). -/
theorem readAfterWrite : Obligations.ReadAfterWrite := by
  intro s a d hidle ha
  obtain ⟨hp, hread⟩ := storable_of_offset a ha
  rw [memWrite_storable s a d hidle hp]
  refine ⟨?_, fun b hb => ?_⟩
  · rw [peek, placeWord_writePlace s _ _ d hp, if_pos rfl, hread d]
    rfl
  · have hres : placeAt a ≠ .reserved := fun hr => by rw [hr] at hp; cases hp
    have hne : placeAt b ≠ placeAt a := fun e => hb (placeAt_injective a b e.symm hres).symm
    rw [peek, placeWord_writePlace s _ _ d hp, if_neg hne, peek]

end Sys2Proof.Proofs
end

section
/-! SUPPORT. The state after reset (R42), the STATUS word (R33) and the host's writes of STATUS and CTRL (R34, R63). -/

namespace Sys2Proof.Proofs

open Sys2Proof.Machine Sys2Proof.Safety

theorem elemWritten_resetAt (g : Nat) (b : BankId) (k : Fin 64) : elemWritten (State.resetAt g) b k = false := by
  cases b <;> simp [elemWritten, State.resetAt, Bank.afterReset]

theorem statusWord_resetAt (g : Nat) : (State.resetAt g).status.word = 0#32 := by
  simp [Status.word, State.resetAt]

theorem ctrlWord_resetAt (g : Nat) : (State.resetAt g).ctrl.word = 0#32 := by
  simp [Ctrl.word, State.resetAt]

/-- Settles O45: a reset leaves the state of R42, whatever the state before it. -/
theorem resetState : Obligations.ResetState := by
  refine ⟨fun s rest h => ?_, statusWord_resetAt 0, ctrlWord_resetAt 0, rfl, rfl, rfl, rfl, rfl, elemWritten_resetAt 0⟩
  have hstep : step s = .next (takeReset { s with schedule := rest }) := by rw [step, h]
  exact ⟨_, hstep, statusWord_resetAt (s.freeCount + 1), ctrlWord_resetAt (s.freeCount + 1), rfl, rfl, rfl, rfl, rfl, rfl,
    elemWritten_resetAt (s.freeCount + 1)⟩

/-- Settles O50: the fields of STATUS lie in its word as R33 lays them out. -/
theorem statusWordLayout : Obligations.StatusWordLayout := by
  intro s
  simp only [Status.word, BitVec.getLsbD_append]
  refine ⟨by simp, by simp, by simp, by simp, by simp, ?_, ?_, ?_⟩
  all_goals
    apply BitVec.eq_of_getLsbD_eq
    intro i hi
    simp only [BitVec.getLsbD_extractLsb', BitVec.getLsbD_append]
  · simp; omega
  · simp [hi]
  · simp; omega

/-- Settles O52: writes of STATUS and CTRL (R33, R34, R63). -/
theorem controlWrites : Obligations.ControlWrites := by
  intro s d
  refine ⟨⟨memWrite s 1 d, rfl, ?_⟩, memWrite_ctrl s d⟩
  rw [memWrite_status]
  simp

end Sys2Proof.Proofs
end

section
/-! SUPPORT. The window of an idle unit: which offsets are reserved, what an ordinary read returns, and which writes are
refused (R62, R63, R65, R68 to R72). -/

namespace Sys2Proof.Proofs

open Sys2Proof.Machine Sys2Proof.Safety

/-! ### Where the offsets lie -/

theorem elemOffset_bounds (b : BankId) (k : Fin 64) : 64 ≤ (elemOffset b k).val ∧ (elemOffset b k).val < 512 := by
  have hk := k.isLt
  cases b <;> simp only [elemOffset, bankBase] <;> omega

/-- The reserved offsets of R65. -/
theorem placeAt_eq_reserved_iff (a : WordOffset) :
    placeAt a = .reserved ↔ (7 ≤ a.val ∧ a.val < 64) ∨ 512 ≤ a.val := by
  obtain h | ⟨hrange, hp⟩ | ⟨b, k, rfl⟩ := placeAt_cases a
  · obtain rfl | rfl | rfl | rfl | rfl | rfl | rfl := h <;> decide
  · exact iff_of_true hp hrange
  · obtain ⟨hlow, hhigh⟩ := elemOffset_bounds b k
    exact iff_of_false (by simp) (by omega)

/-- FACTOR and the elements of QM are read only to the host (R69). -/
theorem readOnly_of_offset (a : WordOffset) (ha : a.val = 4 ∨ (192 ≤ a.val ∧ a.val < 256)) :
    (placeAt a).readOnly = true ∧ placeAt a ≠ .reserved := by
  obtain h | ⟨hlow, hhigh⟩ := ha
  · obtain rfl : a = 4 := Fin.ext h
    decide
  · have hqm : a = elemOffset .qm ⟨a.val - 192, by omega⟩ := Fin.ext (by simp only [elemOffset, bankBase]; omega)
    rw [hqm, placeAt_elemOffset]
    exact ⟨rfl, by simp⟩

/-! ### The transactions of an idle unit -/

theorem memRead_reserved {s : State} {a : WordOffset} (hidle : s.status.busy = false) (ha : placeAt a = .reserved) :
    memRead s a = (0#32, refuse s) := by
  rw [memRead_idle s a hidle, if_pos ha]

theorem memRead_mapped {s : State} {a : WordOffset} (hidle : s.status.busy = false) (ha : placeAt a ≠ .reserved) :
    memRead s a = (peek s a, s) := by
  rw [memRead_idle s a hidle, if_neg ha]

theorem memRead_elemOffset {s : State} (hidle : s.status.busy = false) (b : BankId) (k : Fin 64) :
    memRead s (elemOffset b k) = (elemWord s b k, s) := by
  rw [memRead_mapped hidle (by simp), peek, placeAt_elemOffset]
  rfl

theorem memWrite_readOnly {s : State} {a : WordOffset} (hidle : s.status.busy = false)
    (ha : (placeAt a).readOnly = true) (d : Word) : memWrite s a d = refuse s := by
  have h1 : a ≠ 1 := by rintro rfl; cases ha
  have h2 : a ≠ 2 := by rintro rfl; cases ha
  rw [memWrite_idle s a d hidle h1 h2, if_pos ha]

/-- A refusal shows in the STATUS word alone. -/
theorem peek_refuse (s : State) (a : WordOffset) (ha : a ≠ 1) : peek (refuse s) a = peek s a := by
  have hp : placeAt a ≠ .status := mt (placeAt_status_iff a).mp ha
  rw [peek, peek]
  cases h : placeAt a with
  | status => exact absurd h hp
  | elem b k => cases b <;> rfl
  | _ => rfl

/-! ### The statements -/

/-- Settles O51: each offset, while a command is pending and on an idle unit (R62). -/
theorem windowReads : Obligations.WindowReads := by
  intro s
  refine ⟨memRead_status s, memRead_ctrl s,
    fun hbusy a h1 h2 => congrArg Prod.snd (memRead_busy s a hbusy h1 h2), fun hidle => ?_⟩
  have hread (b : BankId) (k : Fin 64) (a : WordOffset) (h : a.val = (elemOffset b k).val) :
      memRead s a = (elemWord s b k, s) := Fin.ext h ▸ memRead_elemOffset hidle b k
  exact ⟨fun a ha => memRead_reserved hidle ((placeAt_eq_reserved_iff a).mpr ha),
    memRead_mapped hidle (by simp), memRead_mapped hidle (by simp), memRead_mapped hidle (by simp),
    memRead_mapped hidle (by simp), memRead_mapped hidle (by simp),
    fun k a => ⟨hread .pb k a, hread .cb k a, hread .qm k a, hread .qb k a, hread .zs k a, hread .rlv k a, hread .rlc k a⟩⟩

/-- Settles O55: FACTOR, QM and the reserved offsets refuse writes; only the reserved ones refuse reads (R69, R70). -/
theorem readOnlyWritesRefused : Obligations.ReadOnlyWritesRefused := by
  intro s a d hidle
  refine ⟨fun ha => ?_, fun ha => ?_⟩
  · obtain ⟨hro, hmapped⟩ := readOnly_of_offset a ha
    exact ⟨memWrite_readOnly hidle hro d, memRead_mapped hidle hmapped⟩
  · have hres : placeAt a = .reserved := (placeAt_eq_reserved_iff a).mpr ha
    exact ⟨memWrite_readOnly hidle (by rw [hres]; rfl) d, memRead_reserved hidle hres⟩

/-- Settles O53: a write of CMD is a refusal while ERR = 1 and an acceptance otherwise (R68). -/
theorem commandAcceptance : Obligations.CommandAcceptance := by
  intro s d hidle
  rw [memWrite_cmd s d hidle, writeCmd]
  exact ⟨fun herr => by rw [if_pos herr]; rfl, fun herr => by rw [if_neg (by simp [herr])]; rfl⟩

/-- Settles O57: a read leaves the state as it is, or refuses and is refused again (R72). -/
theorem readsAreIdempotent : Obligations.ReadsAreIdempotent := by
  intro s a hidle
  by_cases ha : placeAt a = .reserved
  · rw [memRead_reserved hidle ha]
    have hidle' : (refuse s).status.busy = false := hidle
    exact ⟨by rw [memRead_reserved hidle' ha], peek_refuse s, rfl⟩
  · rw [memRead_mapped hidle ha]
    exact ⟨by rw [memRead_mapped hidle ha], fun _ _ => rfl, rfl⟩

end Sys2Proof.Proofs
end

section
/-! SUPPORT. A pending command and the host's transactions: no command reads the flags, CTRL or the model's count of free
values, so that whatever a transaction does to these while BUSY = 1 the command completes as before (R67, R296). -/

namespace Sys2Proof.Proofs

open Sys2Proof.Machine Sys2Proof.Safety

/-- The state s with the given flags, CTRL and count of free values: all that a transaction can change while BUSY = 1. -/
def withFlags (s : State) (f : Status) (c : Ctrl) (n : Nat) : State := { s with status := f, ctrl := c, freeCount := n }

/-- The command's own report to QSAT: whether it clamps a coefficient (R157, R162). -/
def clamps : Instr → State → Bool
  | .quant, s => saturates bcu.rnd s.cb.data s.qm.data
  | .encblk, s => saturates bcu.rnd (bcu.num.fdct s.pb.data) s.qm.data
  | _, _ => false

/-- What the completion of a command on the state s makes of the flags f. -/
def closing (i : Instr) (s : State) (f : Status) : Status :=
  match pseudocode i s with
  | .ok _ => (f.onSaturate (clamps i s)).onSuccess
  | .error e => f.onFault e

/-! ### No command reads the flags -/

theorem clamps_of_ne {i : Instr} {s : State} (hquant : i ≠ .quant) (hencblk : i ≠ .encblk) : clamps i s = false := by
  cases i
  case quant => exact absurd rfl hquant
  case encblk => exact absurd rfl hencblk
  all_goals rfl

theorem onSaturate_false (f : Status) : f.onSaturate false = f := by rw [Status.onSaturate, Bool.or_false]

/-- The flags enter a command's outcome in STATUS alone, where the command adds its report to QSAT. -/
theorem outcome_withFlags (i : Instr) (s : State) (f : Status) (c : Ctrl) (n : Nat) :
    outcome i (withFlags s f c n) = withFlags (outcome i s) (f.onSaturate (clamps i s)) c n := by
  cases i
  case quant => rfl
  case encblk => rfl
  all_goals rw [clamps_of_ne (by simp) (by simp), onSaturate_false]; rfl

theorem map_check {p : Prop} [Decidable p] (e : ErrCode) (x : Except ErrCode State) (g : State → State) :
    (if p then .error e else x : Except ErrCode State).map g = if p then .error e else x.map g :=
  apply_ite (Except.map g) p _ _

/-- The checks of a command do not read the flags: they end it in both states or in neither. -/
theorem pseudocode_withFlags (i : Instr) (s : State) (f : Status) (c : Ctrl) (n : Nat) :
    pseudocode i (withFlags s f c n) = (pseudocode i s).map fun _ => outcome i (withFlags s f c n) := by
  cases i
  case qbuild => rfl
  case qbuildi => rfl
  case zscan => rfl
  all_goals
    simp only [pseudocode, fdct, idct, quant, dequant, zunscan, rlenc, rldec, rldecb, encblk_eq, decblk_eq, map_check]
    rfl

/-- A command that completes in x completes with other flags in x but for these. -/
theorem exec_withFlags {i : Instr} {s x : State} (h : exec i s = .next x) (f : Status) (c : Ctrl) (n : Nat) :
    exec i (withFlags s f c n) = .next (withFlags x (closing i s f) c n) := by
  rw [exec_eq_complete, pseudocode_withFlags, closing]
  obtain ⟨e, he, rfl⟩ | ⟨u, hu, rfl⟩ := exec_cases i s x h
  · rw [he]; rfl
  · obtain rfl := pseudocode_ok i s u hu
    rw [hu, outcome_withFlags]; rfl

/-- The completion itself, seen so: CTRL and the count are kept, the flags closed. -/
theorem eq_withFlags_of_exec {i : Instr} {s x : State} (h : exec i s = .next x) :
    x = withFlags x (closing i s s.status) s.ctrl s.freeCount :=
  Host.Outcome.next.inj (h.symm.trans (exec_withFlags h s.status s.ctrl s.freeCount))

theorem exec_status {i : Instr} {s x z : State} {f : Status} (h : exec i s = .next x)
    (hz : exec i { s with status := f } = .next z) : z.status = closing i s f := by
  have hx : z = withFlags x (closing i s f) s.ctrl s.freeCount :=
    Host.Outcome.next.inj (hz.symm.trans (exec_withFlags h f s.ctrl s.freeCount))
  rw [hx]
  rfl

/-! ### The flags at the end of a command -/

/-- HERR passes through a completion (R240). -/
theorem closing_onRefused (i : Instr) (s : State) (f : Status) :
    closing i s f.onRefused = (closing i s f).onRefused := by
  unfold closing
  split <;> rfl

/-- Flags that differ in HERR and QSAT only are closed alike; QSAT is then 1 if it was or if the command sets it. -/
theorem closing_eq (i : Instr) (s : State) (f g : Status) (done : f.done = g.done) (err : f.err = g.err)
    (ecode : f.ecode = g.ecode) :
    closing i s f = { closing i s g with
      herr := f.herr
      qsat := f.qsat || (closing i s { g with qsat := false }).qsat } := by
  unfold closing
  split
  · simp [Status.onSaturate, Status.onSuccess, err, ecode]
  · simp [Status.onFault, done]

/-! ### Transactions while a command is pending -/

/-- While BUSY = 1 a write of STATUS finds nothing to clear but QSAT and HERR, and one of CTRL leaves STATUS (R33). -/
theorem memWrite_control_busy {s : State} (hs : StatusInv s) (hbusy : s.status.busy = true) {a : WordOffset}
    (ha : a = 1 ∨ a = 2) (d : Word) :
    let t := memWrite s a d
    t = withFlags s t.status t.ctrl s.freeCount ∧
    t.status.done = s.status.done ∧ t.status.err = s.status.err ∧ t.status.ecode = s.status.ecode := by
  obtain rfl | rfl := ha
  · obtain ⟨hpending, -, hnone, -⟩ := hs
    obtain ⟨hdone, herr⟩ := hpending hbusy
    refine ⟨rfl, ?_⟩
    simp [memWrite_status, hdone, herr, hnone herr]
  · exact ⟨rfl, rfl, rfl, rfl⟩

/-- A transaction refused while BUSY = 1 shows in HERR, and for a read in the count, after the completion too. -/
theorem exec_refused {i : Instr} {s x : State} (h : exec i s = .next x) (n : Nat) :
    exec i (withFlags s s.status.onRefused s.ctrl n) = .next { refuse x with freeCount := n } := by
  rw [exec_withFlags h, closing_onRefused, eq_withFlags_of_exec h]
  rfl

/-- Settles O54: a transaction changes nothing that the pending command reads (R67, R296). -/
theorem busyWindowIsHarmless : Obligations.BusyWindowIsHarmless := by
  refine ⟨fun s a d hbusy h1 h2 => ?_, fun s x i a d hbusy h1 h2 h => ?_, fun s x z i a d hs hbusy ha h hz => ?_⟩
  · rw [memWrite_busy s a d hbusy h1 h2, memRead_busy s a hbusy h1 h2]
    exact ⟨rfl, rfl⟩
  · rw [memWrite_busy s a d hbusy h1 h2, memRead_busy s a hbusy h1 h2]
    have hcount : x.freeCount = s.freeCount := by rw [eq_withFlags_of_exec h]; rfl
    exact ⟨hcount ▸ exec_refused h s.freeCount, hcount ▸ exec_refused h (s.freeCount + 1)⟩
  · obtain ⟨ht, done, err, ecode⟩ := memWrite_control_busy hs hbusy ha d
    have hclose := closing_eq i s (memWrite s a d).status s.status done err ecode
    rw [ht, exec_withFlags h, hclose, ← exec_status h hz, eq_withFlags_of_exec h]
    rfl

end Sys2Proof.Proofs
end

section
/-! SUPPORT. The decoder and the encoder (R91 to R96): a word is its three fields, the opcode table names each C0 command
once, and how many words are legal. -/

namespace Sys2Proof.Proofs

/-! ### The fields of a word -/

/-- The three fields lie side by side and cover the word (R91). -/
theorem append_fields (w : Word) : immField w ++ zeroField w ++ opField w = w := by
  have himm : immField w ++ zeroField w = w.extractLsb' 8 24 :=
    BitVec.extractLsb'_append_extractLsb'_eq_extractLsb' (start₁ := 8) (len₁ := 8) rfl
  have hword : w.extractLsb' 8 24 ++ opField w = w.extractLsb' 0 32 :=
    BitVec.extractLsb'_append_extractLsb'_eq_extractLsb' (start₁ := 0) (len₁ := 8) rfl
  rw [himm, hword, BitVec.extractLsb'_eq_self]

theorem encode_eq_iff (i : Instr) (w : Word) :
    encode i = w ↔ zeroField w = 0#8 ∧ immField w = i.imm16 ∧ opField w = i.opcode := by
  constructor
  · rintro rfl
    obtain ⟨himm, hzero, hop⟩ := Laws.EncodingFormat.fields_of_layout i.imm16 0#8 i.opcode
    exact ⟨hzero, himm, hop⟩
  · rintro ⟨hzero, himm, hop⟩
    rw [← append_fields w, hzero, himm, hop]
    rfl

/-! ### The opcode table -/

/-- Each row of the table holds a C0 command under its opcode, which is not QBUILDI's (R94). -/
theorem c0Table_row : ∀ row ∈ c0Table, row.1 ≠ 0x11#8 ∧ row.2.imm16 = 0#16 ∧ row.2.opcode = row.1 := by decide

theorem row_of_lookup {o : BitVec 8} {i : Instr} (h : c0Table.lookup o = some i) :
    o ≠ 0x11#8 ∧ i.imm16 = 0#16 ∧ i.opcode = o := by
  obtain ⟨before, after, htable, -⟩ := List.lookup_eq_some_iff.mp h
  exact c0Table_row (o, i) (by simp [htable])

/-- The table finds every command but QBUILDI under its opcode. -/
theorem qbuildi_or_lookup (i : Instr) :
    (∃ imm, i = .qbuildi imm) ∨ (i.opcode ≠ 0x11#8 ∧ i.imm16 = 0#16 ∧ c0Table.lookup i.opcode = some i) := by
  cases i
  case qbuildi imm => exact .inl ⟨imm, rfl⟩
  all_goals exact .inr (by decide)

/-! ### The decoder -/

/-- The two ways through the procedure of R95 that end in a command. -/
theorem decode_eq_ok_iff (w : Word) (i : Instr) : decode w = .ok i ↔ zeroField w = 0#8 ∧
    ((opField w = 0x11#8 ∧ i = .qbuildi (immField w)) ∨
      (opField w ≠ 0x11#8 ∧ immField w = 0#16 ∧ c0Table.lookup (opField w) = some i)) := by
  unfold decode
  by_cases hzero : zeroField w = 0#8
  · by_cases hop : opField w = 0x11#8
    · simp [hzero, hop, eq_comm]
    · by_cases himm : immField w = 0#16
      · cases hrow : c0Table.lookup (opField w) <;> simp [hzero, hop, himm]
      · simp [hzero, hop, himm]
  · simp [hzero]

/-- Settles O2: decoder and encoder ask the same of the three fields of a word. -/
theorem decodeIsInverseOfEncode : Obligations.DecodeIsInverseOfEncode := by
  intro w i
  rw [decode_eq_ok_iff, encode_eq_iff]
  refine and_congr_right fun _ => ⟨?_, ?_⟩
  · rintro (⟨hop, rfl⟩ | ⟨-, himm, hrow⟩)
    · exact ⟨rfl, hop⟩
    · obtain ⟨-, hi, hop⟩ := row_of_lookup hrow
      exact ⟨himm.trans hi.symm, hop.symm⟩
  · rintro ⟨himm, hop⟩
    rw [himm, hop]
    obtain ⟨imm, rfl⟩ | hrow := qbuildi_or_lookup i
    · exact .inl ⟨rfl, rfl⟩
    · exact .inr hrow

theorem decode_encode (i : Instr) : decode (encode i) = .ok i := (decodeIsInverseOfEncode _ i).mpr rfl

/-- Settles O1: each of the words is the encoding of its command. -/
theorem decodesTableWords : Obligations.DecodesTableWords :=
  ⟨decode_encode .fdct, decode_encode .idct, decode_encode .qbuild, decode_encode (.qbuildi 5#16), decode_encode .quant,
    decode_encode .dequant, decode_encode .zscan, decode_encode .zunscan, decode_encode .rlenc, decode_encode .rldec,
    decode_encode .rldecb, decode_encode .encblk, decode_encode .decblk, decode_encode (.qbuildi 0x8000#16)⟩

/-! ### Counting -/

theorem encode_injective : Function.Injective encode := fun i j h => by
  have hj : decode (encode i) = .ok j := h ▸ decode_encode j
  rw [decode_encode i] at hj
  exact Except.ok.inj hj

/-- The illegal words are those that encode no command. -/
theorem illegal_eq_compl_range_encode : {w : Word | ∀ i : Instr, decode w ≠ .ok i} = (Set.range encode)ᶜ := by
  ext w
  simp [decodeIsInverseOfEncode w]

/-- A command is QBUILDI with some immediate, or one of the table's. -/
theorem univ_instr : (Set.univ : Set Instr) = Set.range Instr.qbuildi ∪ (c0Table.map Prod.snd).toFinset := by
  refine (Set.eq_univ_of_forall fun i => ?_).symm
  cases i
  case qbuildi imm => exact .inl ⟨imm, rfl⟩
  all_goals exact .inr (by decide)

theorem card_instr : Nat.card Instr = 12 + 65536 := by
  have hqbuildi : (Set.range Instr.qbuildi).ncard = 65536 := by
    rw [Set.ncard_range_of_injective fun _ _ => Instr.qbuildi.inj, Nat.card_congr BitVec.equivFin.toEquiv, Nat.card_fin]
    rfl
  have htable : (c0Table.map Prod.snd).toFinset.card = 12 := by decide
  have hdisjoint : Disjoint (Set.range Instr.qbuildi) ((c0Table.map Prod.snd).toFinset : Set Instr) := by
    rw [Set.disjoint_left]
    rintro _ ⟨imm, rfl⟩
    simp [c0Table]
  rw [← Set.ncard_univ, univ_instr, Set.ncard_union_eq hdisjoint, hqbuildi, Set.ncard_coe_finset, htable]

/-- Settles O3: encoding is injective, so the legal words are as many as the commands (R96). -/
theorem illegalWordsCounted : Obligations.IllegalWordsCounted := by
  refine ⟨?_, fun i h => ?_, fun i h => ?_⟩
  · rw [illegal_eq_compl_range_encode, Set.ncard_compl, Set.ncard_range_of_injective encode_injective, card_instr,
      Nat.card_congr BitVec.equivFin.toEquiv, Nat.card_fin]
  · have hzero : decode 0x00000000#32 = .error .opcode := by decide
    cases hzero.symm.trans h
  · have hones : decode 0xFFFFFFFF#32 = .error .zeroField := by decide
    cases hones.symm.trans h

end Sys2Proof.Proofs
end

section
/-! SUPPORT. What the assembler makes of a command line (R99), and the acceptance and completion of an illegal word (R98). -/

namespace Sys2Proof.Proofs

open Sys2Proof.Machine

/-- The halves of QBUILDI's word in the assembler's layout (R92). -/
theorem append_qbuildi_opcode (imm : Half) : imm ++ 0x0011#16 = encode (.qbuildi imm) := by
  have hlow : (0x0011#16 : BitVec 16) = 0#8 ++ 0x11#8 := rfl
  rw [hlow, BitVec.append_assoc']
  rfl

theorem wf_qbuildi_iff (n : Int) : (AsmCommand.qbuildi n).wf = true ↔ -32768 ≤ n ∧ n ≤ 32767 := by
  simp [AsmCommand.wf]

theorem toInt_enc16 {n : Int} (hlow : -32768 ≤ n) (hhigh : n ≤ 32767) : (enc16 n).toInt = n :=
  BitVec.toInt_ofInt_eq_self (by decide) hlow (by omega)

/-- Settles O4: within the range QBUILDI's line assembles to the encoding of the command, so it decodes to it. -/
theorem assemblerImmediateRange : Obligations.AssemblerImmediateRange := by
  refine ⟨fun n hlow hhigh => ⟨encode (.qbuildi (enc16 n)), enc16 n, ?_, decode_encode _, toInt_enc16 hlow hhigh⟩,
    fun n hn => ?_, fun i => ?_⟩
  · rw [assemble, if_pos ((wf_qbuildi_iff n).mpr ⟨hlow, hhigh⟩)]
    exact congrArg some (append_qbuildi_opcode _)
  · have hwf : ¬ (AsmCommand.qbuildi n).wf = true := fun hwf => by
      have hrange := (wf_qbuildi_iff n).mp hwf
      omega
    rw [assemble, if_neg hwf]
  · simp [assemble, AsmCommand.wf]

/-! ### The next step of a schedule -/

theorem step_nil {s : State} (h : s.schedule = []) : step s = coreStep s := by rw [step, h]

theorem step_core {s : State} {rest : List Event} (h : s.schedule = .core :: rest) :
    step s = coreStep { s with schedule := rest } := by rw [step, h]

theorem step_write {s : State} {a : WordOffset} {d : Word} {rest : List Event} (h : s.schedule = .write a d :: rest) :
    step s = .next (memWrite { s with schedule := rest } a d) := by rw [step, h]

/-! ### Illegal words -/

theorem completion_illegal {s : State} (h : ∀ i : Instr, decode s.cmdw ≠ .ok i) :
    completion s = .next (raiseFault .illcmd s) := by
  unfold completion
  split
  · exact absurd ‹_› (h _)
  · rfl

theorem coreStep_illegal {s : State} (hbusy : s.status.busy = true) (h : ∀ i : Instr, decode s.cmdw ≠ .ok i) :
    coreStep s = .next (raiseFault .illcmd s) := by
  rw [coreStep, if_pos hbusy, completion_illegal h]

/-- Settles O42: acceptance does not examine the word, and the core's move on an illegal one is the fault entry. -/
theorem illegalCommandFaults : Obligations.IllegalCommandFaults := by
  refine ⟨fun s w hidle herr _ => ?_, fun s hbusy h => ⟨fun hnone => ?_, fun rest hcore => ?_⟩⟩
  · rw [memWrite_cmd s w hidle, writeCmd, herr]
    rfl
  · exact (step_nil hnone).trans (coreStep_illegal hbusy h)
  · exact (step_core hcore).trans (coreStep_illegal (s := { s with schedule := rest }) hbusy h)

end Sys2Proof.Proofs
end

section
/-! SUPPORT. The writes that LD expands to (R101): each of them extends the written prefix of the bank by one element. -/

namespace Sys2Proof.Proofs

open Sys2Proof.Machine

/-! ### Prefixes of a bank -/

theorem bank_ext {n : Nat} {a b : Bank n} (data : ∀ k : Fin 64, a.data[k] = b.data[k])
    (written : ∀ k : Fin 64, a.written[k] = b.written[k]) : a = b := by
  cases a; cases b
  exact congr (congrArg Bank.mk (mat_ext data)) (mat_ext written)

theorem fillPrefix_nil {n : Nat} (b : Bank n) : b.fillPrefix [] = b :=
  bank_ext (fun k => fillPrefix_data_ge b [] k (by simp)) (fun k => by rw [fillPrefix_written]; simp)

/-- Storing the element that follows a prefix makes the prefix longer by it. -/
theorem store_fillPrefix {n : Nat} (b : Bank n) (ws : List (BitVec n)) (w : BitVec n) (k : Fin 64)
    (hk : k.val = ws.length) : (b.fillPrefix ws).store k w = b.fillPrefix (ws ++ [w]) := by
  have hlen : (ws ++ [w]).length = ws.length + 1 := by simp
  refine bank_ext (fun j => ?_) (fun j => ?_)
  · rw [store_data]
    rcases lt_trichotomy j.val ws.length with h | h | h
    · rw [if_neg (by omega), fillPrefix_data_lt _ _ _ h, fillPrefix_data_lt _ _ _ (by omega), List.getElem_append_left h]
    · rw [if_pos (by omega), fillPrefix_data_lt _ _ _ (by omega)]
      simp [h]
    · rw [if_neg (by omega), fillPrefix_data_ge _ _ _ h.le, fillPrefix_data_ge _ _ _ (by omega)]
  · rw [store_written, fillPrefix_written, fillPrefix_written, ← Bool.or_assoc]
    have hmark : (decide (j = k) || decide (j.val < ws.length)) = decide (j.val < (ws ++ [w]).length) := by
      rw [← Bool.decide_or, decide_eq_decide]
      omega
    rw [hmark]

/-- Sixty-four elements are the whole bank. -/
theorem fillPrefix_whole {n : Nat} (b : Bank n) (ws : List (BitVec n)) (h : ws.length = 64) :
    (b.fillPrefix ws).data.toList = ws ∧ ∀ k : Fin 64, (b.fillPrefix ws).written[k] = true := by
  have hfill : b.fillPrefix ws = Bank.fill ⟨ws.toArray, h⟩ := fillPrefix_full b ⟨ws.toArray, h⟩
  rw [hfill]
  exact ⟨rfl, fun k => fill_written _ _ k.isLt⟩

/-! ### The writes of LD -/

/-- The state with the words ws in the first elements of a bank, as the host stores them (R63 case 5). -/
def withPrefix (s : State) (b : BankId) (ws : List Word) : State :=
  match b with
  | .pb => { s with pb := s.pb.fillPrefix ws }
  | .cb => { s with cb := s.cb.fillPrefix ws }
  | .qm => s
  | .qb => { s with qb := s.qb.fillPrefix (ws.map low16) }
  | .zs => { s with zs := s.zs.fillPrefix (ws.map low16) }
  | .rlv => { s with rlv := s.rlv.fillPrefix (ws.map low16) }
  | .rlc => { s with rlc := s.rlc.fillPrefix ws }

/-- The state with the steps es to come. -/
def withSchedule (s : State) (es : List Event) : State := { s with schedule := es }

theorem withPrefix_nil (s : State) (b : BankId) : withPrefix s b [] = s := by
  cases b <;> simp only [withPrefix, List.map_nil, fillPrefix_nil]

theorem withPrefix_pb (s : State) (ws : List Word) : withPrefix s .pb ws = { s with pb := s.pb.fillPrefix ws } := rfl

theorem withPrefix_rlv (s : State) (ws : List Word) :
    withPrefix s .rlv ws = { s with rlv := s.rlv.fillPrefix (ws.map low16) } := rfl

theorem withPrefix_busy (s : State) (b : BankId) (ws : List Word) : (withPrefix s b ws).status.busy = s.status.busy := by
  cases b <;> rfl

theorem storeElem_withPrefix (s : State) (b : BankId) (ws : List Word) (w : Word) (k : Fin 64) (hk : k.val = ws.length) :
    storeElem (withPrefix s b ws) b k w = withPrefix s b (ws ++ [w]) := by
  have hlow (c : Bank 16) : (c.fillPrefix (ws.map low16)).store k (low16 w) = c.fillPrefix ((ws ++ [w]).map low16) := by
    rw [List.map_append]
    exact store_fillPrefix c _ _ k (by rw [hk, List.length_map])
  cases b <;> simp only [storeElem, withPrefix, store_fillPrefix _ ws w k hk, hlow]

theorem storeElem_withSchedule (s : State) (es : List Event) (b : BankId) (k : Fin 64) (d : Word) :
    storeElem (withSchedule s es) b k d = withSchedule (storeElem s b k d) es := by
  cases b <;> rfl

theorem step_withSchedule_write (s : State) (a : WordOffset) (d : Word) (rest : List Event) :
    step (withSchedule s (.write a d :: rest)) = .next (memWrite (withSchedule s rest) a d) := rfl

theorem wordOffset_elem (b : BankId) (k : Fin 64) : wordOffset (bankBase b + 4 * k.val) = elemOffset b k := by
  apply Fin.ext
  cases b <;> simp only [wordOffset, elemOffset, bankBase] <;> omega

theorem run_succ_of_step {s t : State} (h : step s = .next t) (n : Nat) :
    Host.Core.run core (n + 1) s = Host.Core.run core n t := by
  simp only [Host.Core.run, core, h]

/-- One write of LD: the next element of the bank takes the operand's word. -/
theorem step_load {s : State} {b : BankId} (hb : b ≠ .qm) (hidle : s.status.busy = false) (ws : List Word) (w : Word)
    (k : Fin 64) (hk : k.val = ws.length) (rest : List Event) :
    step (withSchedule (withPrefix s b ws) (.write (elemOffset b k) w :: rest)) =
      .next (withSchedule (withPrefix s b (ws ++ [w])) rest) := by
  have hbusy : (withSchedule (withPrefix s b ws) rest).status.busy = false := (withPrefix_busy s b ws).trans hidle
  rw [step_withSchedule_write, memWrite_elem _ b k w hbusy, if_neg hb, storeElem_withSchedule,
    storeElem_withPrefix s b ws w k hk]

/-- The writes that remain of an LD, on a unit whose bank holds the words ws already. -/
theorem run_loads {s : State} {b : BankId} (hb : b ≠ .qm) (hidle : s.status.busy = false) (vs : List Operand)
    (ws : List Word) (hlen : ws.length + vs.length ≤ 64) :
    Host.Core.run core vs.length (withSchedule (withPrefix s b ws) (loads (bankBase b + 4 * ws.length) vs)) =
      .next (withSchedule (withPrefix s b (ws ++ vs.map operandWord)) []) := by
  induction vs generalizing ws with
  | nil => rw [List.map_nil, List.append_nil]; rfl
  | cons v vs ih =>
    rw [List.length_cons] at hlen
    have hk : ws.length < 64 := by omega
    have hoffset : wordOffset (bankBase b + 4 * ws.length) = elemOffset b ⟨ws.length, hk⟩ := wordOffset_elem b ⟨_, hk⟩
    rw [loads, hoffset, List.length_cons, run_succ_of_step (step_load hb hidle ws (operandWord v) ⟨_, hk⟩ rfl _)]
    have hrest := ih (ws ++ [operandWord v]) (by rw [List.length_append, List.length_singleton]; omega)
    rwa [List.length_append, List.length_singleton, Nat.mul_add, ← Nat.add_assoc, List.append_assoc] at hrest

theorem expand_ld {n : Nat} {b : BankId} {vs : List Operand} {es : List Event} (h : expand n (.ld b vs) = some es) :
    es = loads (bankBase b) vs := by
  unfold expand at h
  split at h
  · exact (Option.some.inj h).symm
  · cases h

/-- The 64 writes of LD, from the first on. -/
theorem run_ld {s : State} {b : BankId} {n : Nat} (hb : b ≠ .qm) (hidle : s.status.busy = false) {vs : List Operand}
    (hlen : vs.length = 64) {es : List Event} (h : expand n (.ld b vs) = some es) :
    Host.Core.run core 64 (withSchedule s es) = .next (withSchedule (withPrefix s b (vs.map operandWord)) []) := by
  have hrun := run_loads hb hidle vs [] (by simp [hlen])
  rwa [withPrefix_nil, hlen, List.nil_append, List.length_nil, Nat.mul_zero, Nat.add_zero, ← expand_ld h] at hrun

/-- Settles O60: the writes fill the bank element by element (R101). -/
theorem loadFillsBank : Obligations.LoadFillsBank := by
  intro s vs es hidle hlen
  refine ⟨fun h => ?_, fun h => ?_⟩
  · obtain ⟨hdata, hwritten⟩ := fillPrefix_whole s.pb (vs.map operandWord) (by rw [List.length_map, hlen])
    have hrun := run_ld (b := .pb) (by decide) hidle hlen h
    rw [withPrefix_pb] at hrun
    exact ⟨_, hrun, hdata, hwritten, rfl⟩
  · obtain ⟨hdata, hwritten⟩ := fillPrefix_whole s.rlv ((vs.map operandWord).map low16)
      (by rw [List.length_map, List.length_map, hlen])
    have hrun := run_ld (b := .rlv) (by decide) hidle hlen h
    rw [withPrefix_rlv] at hrun
    exact ⟨_, hrun, hdata.trans List.map_map, hwritten, rfl⟩

end Sys2Proof.Proofs
end

section
/-! SUPPORT. RN32 is the rounding to a nearest binary32 value (R120, R121): the grid of the finite magnitudes, the rounded
significand as its nearest point, and the overflow threshold. -/

namespace Sys2Proof.Proofs

open Sys2Proof.Machine

/-! ### The zeros -/

@[simp] theorem val_zero : val 0x00000000#32 = 0 := by
  rw [val_eq _ rfl]; simp [f32Mag, f32Exp, f32Frac]

@[simp] theorem val_negZero : val 0x80000000#32 = 0 := by
  rw [val_eq _ rfl]; simp [f32Mag, f32Exp, f32Frac]

/-! ### The grid -/

/-- Two patterns with one magnitude are the same pattern. -/
theorem patternMag_injective : Function.Injective patternMag := by
  have le {Q m Q' m' : Nat} (hm : m < 2 ^ 24) (hQ' : Q' = 0 ∨ 2 ^ 23 ≤ m') (e : m * 2 ^ Q = m' * 2 ^ Q') : Q' ≤ Q := by
    by_contra hlt
    have hcancel : m = m' * 2 ^ (Q' - Q) := by
      refine Nat.eq_of_mul_eq_mul_right (Nat.two_pow_pos Q) (e.trans ?_)
      rw [mul_assoc, ← pow_add, Nat.sub_add_cancel (by omega)]
    have hdouble : 2 ^ 1 ≤ 2 ^ (Q' - Q) := Nat.pow_le_pow_right (by omega) (by omega)
    have := Nat.mul_le_mul_left m' hdouble
    omega
  intro p p' e
  obtain ⟨Q, m, rfl, hm, hQ⟩ := pattern_layout p
  obtain ⟨Q', m', rfl, hm', hQ'⟩ := pattern_layout p'
  rw [patternMag_layout Q m hm.le hQ, patternMag_layout Q' m' hm'.le hQ'] at e
  obtain rfl : Q = Q' := Nat.le_antisymm (le hm' hQ e.symm) (le hm hQ' e)
  rw [Nat.eq_of_mul_eq_mul_right (Nat.two_pow_pos Q) e]

/-- The largest finite magnitude (R120). -/
theorem patternMag_le {p : Nat} (hp : p < 0x7F800000) : patternMag p ≤ (2 ^ 24 - 1) * 2 ^ 253 := by
  obtain ⟨Q, m, rfl, hm, hQ⟩ := pattern_layout p
  rw [patternMag_layout Q m hm.le hQ]
  exact Nat.mul_le_mul (by omega) (Nat.pow_le_pow_right (by omega) (by omega))

/-- A point m·u within half a unit u of x is a nearest multiple of u, and half a unit away where it has a rival. -/
theorem multiple_nearest {u x : Rat} (hu : 0 < u) {m : Nat} (hx : |x - m * u| ≤ u / 2) (j : Nat) :
    |x - m * u| ≤ |x - j * u| ∧ (j ≠ m → |x - m * u| = |x - j * u| → |x - m * u| = u / 2) := by
  by_cases hj : j = m
  · subst hj; exact ⟨le_rfl, fun h => absurd rfl h⟩
  · have apart : u ≤ |(m : Rat) * u - j * u| := by
      have hz : (1 : Rat) ≤ |(m : Rat) - j| := by
        exact_mod_cast Int.one_le_abs (sub_ne_zero.mpr fun e : (m : Int) = j => hj (by exact_mod_cast e.symm))
      rw [← sub_mul, abs_mul, abs_of_pos hu]
      nlinarith
    have triangle : |(m : Rat) * u - j * u| ≤ |x - m * u| + |x - j * u| := by
      rw [abs_sub_comm x (m * u)]; exact abs_sub_le _ _ _
    exact ⟨by linarith, fun _ e => by linarith⟩

/-- The significand of `rn32_spec` is a nearest grid point, and half a unit away from x where it has a rival. -/
theorem layout_nearest {x : Rat} {Q m : Nat} (near : |x - m * 2 ^ Q| ≤ 2 ^ Q / 2) (floor : Q = 0 ∨ 2 ^ 23 * 2 ^ Q ≤ x)
    (p : Nat) : |x - m * 2 ^ Q| ≤ |x - patternMag p| ∧
      ((patternMag p : Rat) ≠ m * 2 ^ Q → |x - m * 2 ^ Q| = |x - patternMag p| → |x - m * 2 ^ Q| = 2 ^ Q / 2) := by
  have unit : (0 : Rat) < 2 ^ Q := by positivity
  obtain ⟨R, k, rfl, hk, hR⟩ := pattern_layout p
  rw [patternMag_layout R k hk.le hR]
  push_cast
  by_cases h : Q ≤ R
  · -- the grid point is a multiple of the unit
    have hmul : (k : Rat) * 2 ^ R = ((k * 2 ^ (R - Q) : Nat) : Rat) * 2 ^ Q := by
      push_cast; rw [mul_assoc, ← pow_add, Nat.sub_add_cancel h]
    obtain ⟨hle, htie⟩ := multiple_nearest unit near (k * 2 ^ (R - Q))
    rw [hmul]
    exact ⟨hle, fun hne => htie fun e => hne (by rw [e])⟩
  · -- the grid point lies below the binade of x, whose floor is a multiple of the unit
    have hfloor : 2 ^ 23 * 2 ^ Q ≤ x := floor.resolve_left (by omega)
    have hbelow : (k : Rat) * 2 ^ R < 2 ^ 23 * 2 ^ Q := by
      have hk' : (k : Rat) < 2 ^ 24 := by exact_mod_cast hk
      have hR' : (2 : Rat) ^ (R + 1) ≤ 2 ^ Q := pow_le_pow_right₀ (by norm_num) (by omega)
      have hpos : (0 : Rat) < 2 ^ R := by positivity
      rw [pow_succ] at hR'
      nlinarith
    obtain ⟨hle, -⟩ := multiple_nearest unit near (2 ^ 23)
    rw [Nat.cast_pow, Nat.cast_ofNat, abs_of_nonneg (sub_nonneg.mpr hfloor)] at hle
    rw [abs_of_nonneg (by linarith : (0 : Rat) ≤ x - k * 2 ^ R)]
    exact ⟨by linarith, fun _ e => by linarith⟩

/-! ### The overflow threshold -/

/-- Below the threshold the layout is a finite pattern. -/
theorem layout_finite {x : Rat} {Q m : Nat} (near : |x - m * 2 ^ Q| ≤ 2 ^ Q / 2) (hm : m ≤ 2 ^ 24)
    (floor : Q = 0 ∨ 2 ^ 23 * 2 ^ Q ≤ x) (hx : x < (2 ^ 24 - 1 / 2) * 2 ^ 253) : Q * 2 ^ 23 + m < 0x7F800000 := by
  have hQ : Q ≤ 253 := by
    by_contra h
    have hunit : (2 : Rat) ^ 254 ≤ 2 ^ Q := pow_le_pow_right₀ (by norm_num) (by omega)
    have := floor.resolve_left (by omega)
    linarith
  by_cases hlast : Q = 253
  · subst hlast
    have hm' : (m : Rat) < 2 ^ 24 := by linarith [(abs_le.mp near).1]
    have : m < 2 ^ 24 := by exact_mod_cast hm'
    omega
  · omega

/-- From the threshold on the layout runs past the finite patterns: 2^128 counts as even, so the tie goes to it. -/
theorem layout_overflow {x : Rat} {Q m : Nat} (near : |x - m * 2 ^ Q| ≤ 2 ^ Q / 2)
    (tie : |x - m * 2 ^ Q| = 2 ^ Q / 2 → m % 2 = 0) (hQm : Q = 0 ∨ 2 ^ 23 ≤ m) (up : x < 2 ^ 24 * 2 ^ Q)
    (hx : (2 ^ 24 - 1 / 2) * 2 ^ 253 ≤ x) : 0x7F800000 ≤ Q * 2 ^ 23 + m := by
  have hQ : 253 ≤ Q := by
    by_contra h
    have hunit : (2 : Rat) ^ Q ≤ 2 ^ 252 := pow_le_pow_right₀ (by norm_num) (by omega)
    linarith
  by_cases hlast : Q = 253
  · subst hlast
    have hm' : ((2 ^ 24 - 1 : Nat) : Rat) ≤ m := by push_cast; linarith [(abs_le.mp near).2]
    have hm : 2 ^ 24 - 1 ≤ m := by exact_mod_cast hm'
    by_contra h
    obtain rfl : m = 2 ^ 24 - 1 := by omega
    have hhalf : |x - ((2 ^ 24 - 1 : Nat) : Rat) * 2 ^ 253| = 2 ^ 253 / 2 :=
      le_antisymm near (le_trans (by push_cast; linarith) (le_abs_self _))
    exact absurd (tie hhalf) (by decide)
  · omega

/-! ### RN32 -/

theorem f32Sign_rn32 {r : Rat} (hr : r ≠ 0) : f32Sign (rn32 r) = decide (r < 0) := by
  obtain ⟨Q, m, h, -⟩ := rn32_spec r hr
  rw [f32Sign_eq, h]
  by_cases hs : r < 0 <;> simp [hs]

theorem rn32_overflow {r : Rat} (hr : (2 ^ 24 - 1 / 2) * 2 ^ 104 ≤ |r|) :
    rn32 r = if r < 0 then 0xFF800000#32 else 0x7F800000#32 := by
  have hne : r ≠ 0 := by rintro rfl; norm_num at hr
  obtain ⟨Q, m, h, -, hQm, near, tie, -, up⟩ := rn32_spec r hne
  have hinf := layout_overflow near tie hQm up (by linarith)
  apply BitVec.eq_of_toNat_eq
  rw [h, min_eq_right hinf]
  split <;> rfl

/-- RN32 below the threshold: a finite pattern of r's sign, with the significand and the unit of `rn32_spec`. -/
theorem rn32_finite {r : Rat} (hr : r ≠ 0) (hlt : |r| < (2 ^ 24 - 1 / 2) * 2 ^ 104) :
    ∃ Q m : Nat, isFinite (rn32 r) = true ∧ val (rn32 r) = (if r < 0 then -1 else 1) * ((m : Rat) * 2 ^ Q) / 2 ^ 149 ∧
      (rn32 r).toNat % 2 = m % 2 ∧
      |(|r| * 2 ^ 149 - m * 2 ^ Q)| ≤ 2 ^ Q / 2 ∧ (|(|r| * 2 ^ 149 - m * 2 ^ Q)| = 2 ^ Q / 2 → m % 2 = 0) ∧
      (Q = 0 ∨ 2 ^ 23 * 2 ^ Q ≤ |r| * 2 ^ 149) := by
  obtain ⟨Q, m, h, hm, hQm, near, tie, floor, -⟩ := rn32_spec r hr
  have hp := layout_finite near hm floor (by linarith)
  rw [min_eq_left hp.le] at h
  obtain ⟨hfin, -, hval⟩ := val_of_layout (rn32 r) (decide (r < 0)) Q m hm hQm hp (by simpa using h)
  refine ⟨Q, m, hfin, by simpa using hval, ?_, near, tie, floor⟩
  rw [h]; split <;> omega

/-- The distance of a value to r is, when the value has r's sign, that of the magnitudes in units of 2^-149. -/
theorem abs_signed_sub (r : Rat) (y : Rat) :
    |(if r < 0 then -1 else 1) * y / 2 ^ 149 - r| * 2 ^ 149 = |(|r| * 2 ^ 149 - y)| := by
  rw [← abs_of_pos (show (0 : Rat) < 2 ^ 149 by positivity), ← abs_mul, abs_of_pos (show (0 : Rat) < 2 ^ 149 by positivity)]
  by_cases hr : r < 0
  · rw [if_pos hr, abs_of_neg hr]; congr 1; field_simp; ring
  · rw [if_neg hr, abs_of_nonneg (not_lt.mp hr), abs_sub_comm]; congr 1; field_simp

/-- A value of either sign is at least as far from r as its magnitude is from r's. -/
theorem abs_mag_sub_le {w : Word} (hw : isFinite w = true) (r : Rat) :
    |(|r| * 2 ^ 149 - f32Mag w)| ≤ |val w - r| * 2 ^ 149 := by
  have hmag : (f32Mag w : Rat) = |val w| * 2 ^ 149 := by rw [abs_val w hw]; field_simp
  rw [hmag, ← sub_mul, abs_mul, abs_of_pos (show (0 : Rat) < 2 ^ 149 by positivity), abs_sub_comm (val w)]
  exact mul_le_mul_of_nonneg_right (abs_abs_sub_abs_le_abs_sub r (val w)) (by positivity)

/-- Two values as far from r, of equal magnitude, are equal, when one of them has r's sign. -/
theorem eq_of_abs_sub_eq {a b r : Rat} (hr : r ≠ 0) (habs : |a| = |b|) (hdist : |b - r| = |a - r|) : a = b := by
  obtain h | rfl := abs_eq_abs.mp habs
  · exact h
  · have hsq : (b - r) ^ 2 = (-b - r) ^ 2 := sq_eq_sq_iff_abs_eq_abs _ _ |>.mpr hdist
    have hb : b * r = 0 := by linarith
    obtain rfl : b = 0 := (mul_eq_zero.mp hb).resolve_right hr
    exact neg_zero

/-- Below the threshold no finite value is nearer to r, and where another is as near the pattern is even. -/
theorem rn32_nearest {r : Rat} (hlt : |r| < (2 ^ 24 - 1 / 2) * 2 ^ 104) {w : Word} (hw : isFinite w = true) :
    |val (rn32 r) - r| ≤ |val w - r| ∧
      (|val (rn32 r) - r| = |val w - r| → val w ≠ val (rn32 r) → (rn32 r).toNat % 2 = 0) := by
  by_cases hr : r = 0
  · subst hr; exact ⟨by simp [rn32_zero], fun _ _ => rfl⟩
  obtain ⟨Q, m, hfin, hval, heven, near, tie, floor⟩ := rn32_finite hr hlt
  have hdist : |val (rn32 r) - r| * 2 ^ 149 = |(|r| * 2 ^ 149 - m * 2 ^ Q)| := by rw [hval, abs_signed_sub]
  obtain ⟨hle, hrival⟩ := layout_nearest near floor (w.toNat % 2 ^ 31)
  rw [← f32Mag_eq] at hle hrival
  have hmag := abs_mag_sub_le hw r
  have unit : (0 : Rat) < 2 ^ 149 := by positivity
  refine ⟨le_of_mul_le_mul_right (hdist ▸ hle.trans hmag) unit, fun e hne => ?_⟩
  rw [← e, hdist] at hmag
  rw [heven]
  refine tie (hrival (fun hsame => hne ?_) (le_antisymm hle hmag))
  refine eq_of_abs_sub_eq hr ?_ e
  rw [abs_val w hw, hsame, hval, abs_div, abs_mul, abs_of_pos unit, abs_of_nonneg (by positivity : (0 : Rat) ≤ m * 2 ^ Q)]
  split <;> simp

/-- Settles O5: the sign, the nearest value with its tie, and the overflow of RN32 (R121). -/
theorem roundsToNearestBinary32 : Obligations.RoundsToNearestBinary32 := by
  refine ⟨rn32_zero, fun r hr => f32Sign_rn32 hr, fun r hlt => ⟨?_, fun w hw => (rn32_nearest hlt hw).1, ?_⟩,
    fun r hr => rn32_overflow hr⟩
  · by_cases hr : r = 0
    · subst hr; rfl
    · obtain ⟨-, -, hfin, -⟩ := rn32_finite hr hlt
      exact hfin
  · intro w hw e hne
    rw [BitVec.getLsbD, Nat.testBit_zero, (rn32_nearest hlt hw).2 e hne]
    rfl

/-! ### Values that binary32 represents -/

theorem abs_val_lt {w : Word} (hw : isFinite w = true) : |val w| < (2 ^ 24 - 1 / 2) * 2 ^ 104 := by
  have hmag : ((f32Mag w : Nat) : Rat) ≤ ((2 ^ 24 - 1) * 2 ^ 253 : Nat) := by
    rw [f32Mag_eq]; exact_mod_cast patternMag_le ((isFinite_iff w).mp hw)
  rw [abs_val w hw, div_lt_iff₀ (by positivity)]
  push_cast at hmag
  linarith

/-- Finite patterns of one sign and one value are the same pattern. -/
theorem eq_of_val_eq {w v : Word} (hw : isFinite w = true) (hv : isFinite v = true) (hs : f32Sign w = f32Sign v)
    (h : val w = val v) : w = v := by
  have habs : |val w| = |val v| := by rw [h]
  rw [abs_val w hw, abs_val v hv, div_left_inj' (by positivity), Nat.cast_inj, f32Mag_eq, f32Mag_eq] at habs
  have hmod := patternMag_injective habs
  rw [f32Sign_eq, f32Sign_eq, decide_eq_decide] at hs
  apply BitVec.eq_of_toNat_eq
  omega

/-- Only the two zeros have the value 0. -/
theorem eq_zero_of_val_eq_zero {w : Word} (hw : isFinite w = true) (h : val w = 0) : w = 0#32 ∨ w = 0x80000000#32 := by
  cases hs : f32Sign w
  · exact .inl (eq_of_val_eq hw rfl (hs.trans rfl) (h.trans val_zero.symm))
  · exact .inr (eq_of_val_eq hw rfl (hs.trans rfl) (h.trans val_negZero.symm))

/-- The sign bit of a nonzero value is its sign (R120). -/
theorem f32Sign_eq_of_val_ne_zero {w : Word} (hw : isFinite w = true) (h : val w ≠ 0) : f32Sign w = decide (val w < 0) := by
  have hmag : (0 : Rat) < f32Mag w := by
    rw [Nat.cast_pos, Nat.pos_iff_ne_zero]
    intro hm
    exact h (by rw [val_eq w hw, hm]; simp)
  rw [val_eq w hw]
  cases f32Sign w
  · simp; positivity
  · simp only [if_true]
    exact (decide_eq_true (div_neg_of_neg_of_pos (by linarith) (by positivity))).symm

/-- A value that binary32 represents is its own nearest. -/
theorem val_rn32_val {w : Word} (hw : isFinite w = true) : val (rn32 (val w)) = val w := by
  have hle := (rn32_nearest (abs_val_lt hw) hw).1
  rw [sub_self, abs_zero] at hle
  exact sub_eq_zero.mp (abs_eq_zero.mp (le_antisymm hle (abs_nonneg _)))

/-- Settles O6: RN32 keeps value and sign, which are all that a finite pattern holds (R120, R121). -/
theorem roundingKeepsRepresentable : Obligations.RoundingKeepsRepresentable := by
  intro w hw hneg
  by_cases h : val w = 0
  · rw [h, rn32_zero]
    exact ((eq_zero_of_val_eq_zero hw h).resolve_right hneg).symm
  · obtain ⟨-, -, hfin, -⟩ := rn32_finite h (abs_val_lt hw)
    exact eq_of_val_eq hfin hw ((f32Sign_rn32 h).trans (f32Sign_eq_of_val_ne_zero hw h).symm) (val_rn32_val hw)

end Sys2Proof.Proofs
end

section
/-! SUPPORT. The table T of R127 by its rule: each entry is a folded angle's magnitude, an integer over 2^26. -/

namespace Sys2Proof.Proofs

open Sys2Proof.Machine Sys2Proof.Properties

/-- The angle of the entry T[u,x] in units of π/16, folded into 0..16 (R127); row 0 has the magnitude m0 = m4. -/
def foldedAngle (u x : Fin 8) : Nat :=
  let n := (2 * x.val + 1) * u.val % 32
  if u = 0 then 4 else if 16 < n then 32 - n else n

/-- The numerator over 2^26 of the magnitude m1 to m7 (R126); an angle past 8 has the negative of the magnitude that
stands as far below 8 (R127). -/
def angleNum : Nat → Int
  | 1 => 4 * 8227423
  | 2 => 4 * 7750063
  | 3 => 2 * 13949745
  | 4 => 2 * 11863283
  | 5 => 4 * 4660461
  | 6 => 12840725
  | 7 => 6546145
  | 9 => -6546145
  | 10 => -12840725
  | 11 => -(4 * 4660461)
  | 12 => -(2 * 11863283)
  | 13 => -(2 * 13949745)
  | 14 => -(4 * 7750063)
  | 15 => -(4 * 8227423)
  | _ => 0

/-- The numerator over 2^26 of T[u,x]. -/
def tableNum (u x : Fin 8) : Int := angleNum (foldedAngle u x)

/-- The table follows the rule of R127: compared entry by entry. -/
theorem val_refTable (u x : Fin 8) : val refTable[u][x] = (tableNum u x : Rat) / 2 ^ 26 := by
  have table : ∀ u x : Fin 8, val refTable[u][x] = (tableNum u x : Rat) / 2 ^ 26 := by decide +kernel
  exact table u x

theorem val_m0 : val 0x3EB504F3#32 = (2 * 11863283 : Int) / 2 ^ 26 := val_refTable 0 0

/-- Settles O15: the symmetries are those of the numerators (R127). -/
theorem tableRowsCancel : Obligations.TableRowsCancel := by
  have odd : ∀ u x : Fin 8, u.val % 2 = 1 → tableNum u x.rev = -tableNum u x := by decide
  have even : ∀ u x : Fin 8, u = 2 ∨ u = 6 → tableNum u x.rev = tableNum u x := by decide
  have half : ∀ u x : Fin 8, u = 2 ∨ u = 6 → x.val ≤ 3 → tableNum u (⟨3 - x.val, by omega⟩ : Fin 8) = -tableNum u x := by
    decide
  have row4 : ∀ x : Fin 8, tableNum 4 x =
      if x = 0 ∨ x = 3 ∨ x = 4 ∨ x = 7 then 2 * 11863283 else -(2 * 11863283) := by decide
  have cancel : ∀ u : Fin 8, u ≠ 0 → ∑ x : Fin 8, tableNum u x = 0 := by decide
  have row0 : ∑ x : Fin 8, tableNum 0 x = 8 * (2 * 11863283) := by decide
  unfold Obligations.TableRowsCancel
  simp only [val_refTable, val_m0, ← Finset.sum_div, ← Int.cast_sum]
  refine ⟨fun u x h => ?_, fun u x h => ⟨?_, fun hx => ?_⟩, fun x => ?_, fun u hu => ?_, ?_⟩
  · rw [odd u x h, Int.cast_neg, neg_div]
  · rw [even u x h]
  · rw [half u x h hx, Int.cast_neg, neg_div]
  · rw [row4 x]; split <;> push_cast <;> ring
  · rw [cancel u hu, Int.cast_zero, zero_div]
  · rw [row0]; push_cast; ring

end Sys2Proof.Proofs
end

section
/-! SUPPORT. FDCT and IDCT (R128 to R131): the exact sums, the completions, and what they make of a constant block (R125). -/

namespace Sys2Proof.Proofs

open Sys2Proof.Machine Sys2Proof.Properties

/-! ### The exact sums of REF -/

theorem sum8_eq (f : Fin 8 → Rat) : sum8 f = ∑ x : Fin 8, f x := (Fin.sum_univ_eight f).symm

theorem forwardSum_eq (p : Mat Word) (u v : Fin 8) :
    forwardSum p u v = ∑ x : Fin 8, ∑ y : Fin 8, val refTable[u][x] * val (entry p x y) * val refTable[v][y] := by
  simp only [forwardSum, sum8_eq, refCoef]

theorem inverseSum_eq (c : Mat Word) (x y : Fin 8) :
    inverseSum c x y = ∑ u : Fin 8, ∑ v : Fin 8, val refTable[u][x] * val (entry c u v) * val refTable[v][y] := by
  simp only [inverseSum, sum8_eq, refCoef]

/-- A property of all elements is one of all entries, whose linear indices are the elements. -/
theorem forall_getElem_iff_entry {α : Type} (p : α → Prop) (m : Mat α) :
    (∀ k : Fin 64, p m[k]) ↔ ∀ i j : Fin 8, p (entry m i j) :=
  ⟨fun h i j => h (linear i j), fun h k => getElem_eq_entry m k ▸ h _ _⟩

/-! ### The completions -/

theorem allFinite_iff (m : Mat Word) : AllFinite m ↔ someElem (fun w => !isFinite w) m = false := by
  simp [someElem_false_iff, AllFinite]

theorem exec_fdct {s : State} (h : AllFinite s.pb.data) :
    exec .fdct s = .next (succeed { s with cb := Bank.fill (refFdct s.pb.data) }) := by
  rw [exec_eq_complete, pseudocode, fdct, (allFinite_iff _).mp h]
  rfl

theorem exec_fdct_fault {s : State} (h : ¬ AllFinite s.pb.data) : exec .fdct s = .next (raiseFault .nonfin s) := by
  rw [allFinite_iff, Bool.not_eq_false] at h
  rw [exec_eq_complete, pseudocode, fdct, h]
  rfl

theorem exec_idct {s : State} (h : AllFinite s.cb.data) :
    exec .idct s = .next (succeed { s with pb := Bank.fill (refIdct s.cb.data) }) := by
  rw [exec_eq_complete, pseudocode, idct, (allFinite_iff _).mp h]
  rfl

theorem exec_idct_fault {s : State} (h : ¬ AllFinite s.cb.data) : exec .idct s = .next (raiseFault .nonfin s) := by
  rw [allFinite_iff, Bool.not_eq_false] at h
  rw [exec_eq_complete, pseudocode, idct, h]
  rfl

/-- Settles O9: the sum, the frame and the fault of FDCT (R128, R130). -/
theorem fdctTransformsBlock : Obligations.FdctTransformsBlock := by
  refine fun s => ⟨fun h => ⟨_, exec_fdct h, fun u v => ?_, fun k => by simp, rfl⟩, fun h => exec_fdct_fault h⟩
  rw [succeed_cb, fill_data, refFdct, entry_tabulate, forwardSum_eq]

/-- Settles O10: the sum, the frame and the fault of IDCT (R129, R131). -/
theorem idctTransformsCoefficients : Obligations.IdctTransformsCoefficients := by
  refine fun s => ⟨fun h => ⟨_, exec_idct h, fun x y => ?_, fun k => by simp, rfl⟩, fun h => exec_idct_fault h⟩
  rw [succeed_pb, fill_data, refIdct, entry_tabulate, inverseSum_eq]

/-! ### P-NONAN and P-ZERO -/

/-- A transform whose outputs are rounded by RN32 gives no NaN. -/
theorem noNan_tabulate_rn32 (f : Mat Word → Fin 8 → Fin 8 → Rat) : NoNan fun m => tabulate fun i j => rn32 (f m i j) := by
  intro m _
  rw [forall_getElem_iff_entry (isNaN · = false)]
  intro i j
  rw [entry_tabulate, rn32_not_nan]

/-- A transform whose sums vanish with their inputs' values gives +0 for zeros of either sign. -/
theorem zeroToZero_tabulate_rn32 (f : Mat Word → Fin 8 → Fin 8 → Rat)
    (hf : ∀ m, (∀ i j, val (entry m i j) = 0) → ∀ i j, f m i j = 0) :
    ZeroToZero fun m => tabulate fun i j => rn32 (f m i j) := by
  intro m hm
  have hval : ∀ i j, val (entry m i j) = 0 := fun i j => by
    have hzero : entry m i j = 0x00000000#32 ∨ entry m i j = 0x80000000#32 := hm (linear i j)
    obtain h | h := hzero
    · rw [h, val_zero]
    · rw [h, val_negZero]
  rw [forall_getElem_iff_entry (· = 0x00000000#32)]
  intro i j
  rw [entry_tabulate, hf m hval, rn32_zero]

/-- Settles O11: the outputs of REF are RN32 of exact sums, which are 0 where every input is (R124, R129). -/
theorem referenceTransformProperties : Obligations.ReferenceTransformProperties := by
  refine ⟨noNan_tabulate_rn32 forwardSum, noNan_tabulate_rn32 inverseSum,
    zeroToZero_tabulate_rn32 forwardSum fun m hm u v => ?_, zeroToZero_tabulate_rn32 inverseSum fun m hm x y => ?_⟩
  · simp [forwardSum_eq, hm]
  · simp [inverseSum_eq, hm]

/-! ### Constant blocks -/

theorem sum_row_ne_zero {u : Fin 8} (hu : u ≠ 0) : ∑ x : Fin 8, val refTable[u][x] = 0 := by
  obtain ⟨-, -, -, hcancel, -⟩ := tableRowsCancel
  exact hcancel u hu

theorem sum_row_zero : ∑ x : Fin 8, val refTable[(0 : Fin 8)][x] = 8 * val 0x3EB504F3#32 := by
  obtain ⟨-, -, -, -, hrow⟩ := tableRowsCancel
  exact hrow

/-- On a constant block the double sum is the product of two row sums. -/
theorem forwardSum_constant {p : Mat Word} {w : Word} (hp : ∀ x y, entry p x y = w) (u v : Fin 8) :
    forwardSum p u v = (∑ x : Fin 8, val refTable[u][x]) * val w * ∑ y : Fin 8, val refTable[v][y] := by
  simp only [forwardSum_eq, hp, Finset.sum_mul, Finset.mul_sum]
  exact Finset.sum_comm

/-- R130 (e). -/
theorem refFdct_constant {p : Mat Word} {w : Word} (hp : ∀ x y, entry p x y = w) :
    entry (refFdct p) 0 0 = rn32 (64 * val 0x3EB504F3#32 ^ 2 * val w) ∧
      ∀ u v : Fin 8, (u, v) ≠ (0, 0) → entry (refFdct p) u v = 0x00000000#32 := by
  simp only [refFdct, entry_tabulate, forwardSum_constant hp]
  refine ⟨?_, fun u v huv => ?_⟩
  · rw [sum_row_zero]; congr 1; ring
  · have hzero : (∑ x : Fin 8, val refTable[u][x]) * val w * ∑ y : Fin 8, val refTable[v][y] = 0 := by
      by_cases hu : u = 0
      · have hv : v ≠ 0 := fun hv => huv (Prod.ext hu hv)
        rw [sum_row_ne_zero hv, mul_zero]
      · rw [sum_row_ne_zero hu, zero_mul, zero_mul]
    rw [hzero, rn32_zero]

/-- Settles O12: FDCT completes on a finite constant block with the DC coefficient only (R130). -/
theorem constantBlockHasOnlyDc : Obligations.ConstantBlockHasOnlyDc := by
  intro s w hw hs
  have hfinite : AllFinite s.pb.data := fun k => by rw [hs k, hw]
  exact ⟨_, exec_fdct hfinite, refFdct_constant ((forall_getElem_iff_entry (· = w) _).mp hs)⟩

/-- R131: a matrix with a DC coefficient only gives a constant block. -/
theorem inverseSum_dc {c : Mat Word} (hc : ∀ u v : Fin 8, (u, v) ≠ (0, 0) → entry c u v = 0x00000000#32) (x y : Fin 8) :
    inverseSum c x y = val 0x3EB504F3#32 ^ 2 * val (entry c 0 0) := by
  have hrow : ∀ x : Fin 8, val refTable[(0 : Fin 8)][x] = val 0x3EB504F3#32 := by
    intro x; rw [val_refTable, val_m0]; rfl
  rw [inverseSum_eq, Finset.sum_eq_single 0, Finset.sum_eq_single 0, hrow, hrow]
  · ring
  · intro v _ hv
    rw [hc 0 v (by simpa using hv), val_zero, mul_zero, zero_mul]
  · simp
  · intro u _ hu
    exact Finset.sum_eq_zero fun v _ => by rw [hc u v (by simp [hu]), val_zero, mul_zero, zero_mul]
  · simp

/-- The error of RN32 is half a unit of the last place: at most 2^-24 of the value, or half the least subnormal. -/
theorem rn32_error {r : Rat} (hlt : |r| < (2 ^ 24 - 1 / 2) * 2 ^ 104) :
    |val (rn32 r) - r| ≤ |r| / 2 ^ 24 + 1 / 2 ^ 150 := by
  by_cases hr : r = 0
  · subst hr; simp [rn32_zero]
  · obtain ⟨Q, m, -, hval, -, near, -, floor⟩ := rn32_finite hr hlt
    rw [← abs_signed_sub, ← hval] at near
    have hpos := abs_nonneg r
    obtain rfl | hfloor := floor <;> linarith

/-- Of values up to 2^10 the error is at most 2^-13. -/
theorem rn32_error_small {r : Rat} (hr : |r| ≤ 2 ^ 10) : |val (rn32 r) - r| ≤ 1 / 2 ^ 13 := by
  have herr := rn32_error (r := r) (by linarith)
  linarith

/-- The error of the two transforms on a constant c: that of the two roundings, and that of m, which stands for 1/(2√2). -/
theorem constant_roundTrip_error {m c : Rat} (hm : m ^ 2 ≤ 1 / 8) (hone : |64 * m ^ 4 - 1| ≤ 1 / 10 ^ 6)
    (hc : |c| ≤ 128) : |val (rn32 (m ^ 2 * val (rn32 (64 * m ^ 2 * c)))) - c| < 1 / 1000 := by
  have hm0 := sq_nonneg m
  have hforward : |64 * m ^ 2 * c| ≤ 2 ^ 10 := by
    rw [abs_mul, abs_of_nonneg (by positivity : 0 ≤ 64 * m ^ 2)]
    nlinarith [abs_nonneg c]
  have herr := rn32_error_small hforward
  generalize val (rn32 (64 * m ^ 2 * c)) = d at herr ⊢
  have hscaled : |m ^ 2 * (d - 64 * m ^ 2 * c)| ≤ 1 / 8 * (1 / 2 ^ 13) := by
    rw [abs_mul, abs_of_nonneg hm0]
    exact mul_le_mul hm herr (abs_nonneg _) (by norm_num)
  have htable : |(64 * m ^ 4 - 1) * c| ≤ 1 / 10 ^ 6 * 128 := by
    rw [abs_mul]
    exact mul_le_mul hone hc (abs_nonneg _) (by norm_num)
  have hexact : |m ^ 2 * d - c| ≤ 1 / 8 * (1 / 2 ^ 13) + 1 / 10 ^ 6 * 128 := by
    have hsplit : m ^ 2 * d - c = m ^ 2 * (d - 64 * m ^ 2 * c) + (64 * m ^ 4 - 1) * c := by ring
    rw [hsplit]
    exact (abs_add_le _ _).trans (add_le_add hscaled htable)
  have hinverse : |m ^ 2 * d| ≤ 2 ^ 10 := by
    have := abs_sub_abs_le_abs_sub (m ^ 2 * d) c
    linarith
  calc |val (rn32 (m ^ 2 * d)) - c|
      ≤ |val (rn32 (m ^ 2 * d)) - m ^ 2 * d| + |m ^ 2 * d - c| := abs_sub_le _ _ _
    _ ≤ 1 / 2 ^ 13 + (1 / 8 * (1 / 2 ^ 13) + 1 / 10 ^ 6 * 128) := add_le_add (rn32_error_small hinverse) hexact
    _ < 1 / 1000 := by norm_num

/-- Settles O13: the two roundings and the table's m0 err by less than TOL_RT together (R125). -/
theorem constantBlockRoundTrips : Obligations.ConstantBlockRoundTrips := by
  intro b w _ hlow hhigh hb
  obtain ⟨hdc, hac⟩ := refFdct_constant ((forall_getElem_iff_entry (· = w) b).mp hb)
  have hc : |val w| ≤ 128 := abs_le.mpr ⟨hlow, by linarith⟩
  have hout (x y : Fin 8) : entry (refIdct (refFdct b)) x y =
      rn32 (val 0x3EB504F3#32 ^ 2 * val (rn32 (64 * val 0x3EB504F3#32 ^ 2 * val w))) := by
    rw [refIdct, entry_tabulate, inverseSum_dc hac, hdc]
  have herr : |val (rn32 (val 0x3EB504F3#32 ^ 2 * val (rn32 (64 * val 0x3EB504F3#32 ^ 2 * val w)))) - val w| < 1 / 1000 :=
    constant_roundTrip_error (by rw [val_m0]; norm_num) (by rw [val_m0]; norm_num [abs_le]) hc
  have htol : bcu.tolRT = 1 / 1000 := Rat.mkRat_eq_div 1 1000
  intro k
  have hk : (bcu.num.idct (bcu.num.fdct b))[k] = _ := (getElem_eq_entry (refIdct (refFdct b)) k).trans (hout _ _)
  rw [hk, hb k, htol]
  exact herr

end Sys2Proof.Proofs
end

section
/-! SUPPORT. The transform on real numbers (R122, R123, R132): the basis is orthonormal, because a sum of cosines at the
sample points telescopes. -/

namespace Sys2Proof.Proofs

open Sys2Proof.Machine Sys2Proof.Properties

/-! ### Sums of cosines -/

/-- The sum over the eight sample points of the cosine of frequency k. -/
noncomputable def cosineSum (k : ℤ) : ℝ := ∑ x : Fin 8, Real.cos ((2 * (x.val : ℝ) + 1) * k * Real.pi / 16)

theorem cosineSum_zero : cosineSum 0 = 8 := by simp [cosineSum]

/-- Multiplied by 2·sin(kπ/16) the sum telescopes to sin(kπ). -/
theorem cosineSum_eq_zero {k : ℤ} (hk : ¬ 16 ∣ k) : cosineSum k = 0 := by
  have hsin : Real.sin (k * Real.pi / 16) ≠ 0 := by
    rw [Real.sin_ne_zero_iff]
    intro n hn
    refine hk ⟨n, ?_⟩
    have hcast : (k : ℝ) = 16 * n := mul_right_cancel₀ Real.pi_ne_zero (by linarith)
    exact_mod_cast hcast
  have hterm (x : ℕ) : 2 * Real.sin (k * Real.pi / 16) * Real.cos ((2 * (x : ℝ) + 1) * k * Real.pi / 16) =
      Real.sin (2 * ((x + 1 : ℕ) : ℝ) * k * Real.pi / 16) - Real.sin (2 * (x : ℝ) * k * Real.pi / 16) := by
    have hdiff : (k : ℝ) * Real.pi / 16 - (2 * (x : ℝ) + 1) * k * Real.pi / 16 = -(2 * (x : ℝ) * k * Real.pi / 16) := by
      ring
    have hsum : (k : ℝ) * Real.pi / 16 + (2 * (x : ℝ) + 1) * k * Real.pi / 16 =
        2 * ((x + 1 : ℕ) : ℝ) * k * Real.pi / 16 := by
      push_cast; ring
    rw [Real.two_mul_sin_mul_cos, hdiff, hsum, Real.sin_neg]
    ring
  have htelescope : 2 * Real.sin (k * Real.pi / 16) * cosineSum k = 0 := by
    rw [cosineSum, Fin.sum_univ_eq_sum_range (fun x : ℕ => Real.cos ((2 * (x : ℝ) + 1) * k * Real.pi / 16)),
      Finset.mul_sum, Finset.sum_congr rfl fun x _ => hterm x, Finset.sum_range_sub fun x : ℕ =>
        Real.sin (2 * (x : ℝ) * k * Real.pi / 16)]
    rw [show 2 * ((8 : ℕ) : ℝ) * k * Real.pi / 16 = k * Real.pi by push_cast; ring, Real.sin_int_mul_pi]
    simp
  simpa [hsin] using htelescope

theorem sum_cosine (u : Fin 8) : ∑ x : Fin 8, cosine u x = cosineSum u.val := by
  simp only [cosine, cosineSum, Int.cast_natCast]

theorem sum_cosine_mul_cosine (u v : Fin 8) :
    ∑ x : Fin 8, cosine u x * cosine v x = (cosineSum (u.val - v.val) + cosineSum (u.val + v.val)) / 2 := by
  rw [cosineSum, cosineSum, ← Finset.sum_add_distrib, Finset.sum_div]
  refine Finset.sum_congr rfl fun x _ => ?_
  rw [eq_div_iff two_ne_zero, mul_comm, ← mul_assoc, cosine, cosine, Real.two_mul_cos_mul_cos]
  congr 2 <;> push_cast <;> ring

/-! ### The basis -/

theorem axisScale_zero_sq : axisScale 0 * axisScale 0 = 1 / 2 := by
  rw [axisScale, if_pos rfl, div_mul_div_comm, Real.mul_self_sqrt (by norm_num), one_mul]

theorem axisScale_of_ne_zero {u : Fin 8} (hu : u ≠ 0) : axisScale u = 1 := if_neg hu

/-- The rows of the basis are orthonormal. -/
theorem sum_basis_mul_basis (u v : Fin 8) : ∑ x : Fin 8, basis u x * basis v x = if u = v then 1 else 0 := by
  have hsum : ∑ x : Fin 8, basis u x * basis v x =
      axisScale u * axisScale v / 8 * (cosineSum (u.val - v.val) + cosineSum (u.val + v.val)) := by
    rw [show ∀ a b : ℝ, a / 8 * b = a / 4 * (b / 2) by intros; ring, ← sum_cosine_mul_cosine, Finset.mul_sum]
    exact Finset.sum_congr rfl fun x _ => by rw [basis, basis]; ring
  rw [hsum]
  by_cases huv : u = v
  · subst huv
    rw [if_pos rfl, sub_self, cosineSum_zero]
    by_cases hu : u = 0
    · subst hu
      rw [axisScale_zero_sq, show ((0 : Fin 8).val + (0 : Fin 8).val : ℤ) = 0 from rfl, cosineSum_zero]
      norm_num
    · rw [axisScale_of_ne_zero hu, cosineSum_eq_zero (by omega)]
      norm_num
  · rw [if_neg huv, cosineSum_eq_zero (by omega), cosineSum_eq_zero (by omega), add_zero, mul_zero]

/-- The basis as a matrix, row u, column x. -/
noncomputable def basisMatrix : Matrix (Fin 8) (Fin 8) ℝ := Matrix.of basis

theorem basisMatrix_mul_transpose : basisMatrix * basisMatrix.transpose = 1 := by
  ext u v
  rw [Matrix.mul_apply, Matrix.one_apply, ← sum_basis_mul_basis u v]
  rfl

/-- A square matrix with orthonormal rows has orthonormal columns. -/
theorem basisMatrix_transpose_mul : basisMatrix.transpose * basisMatrix = 1 :=
  mul_eq_one_comm.mp basisMatrix_mul_transpose

theorem dctReal_eq (f : Fin 8 → Fin 8 → ℝ) :
    Matrix.of (dctReal f) = basisMatrix * Matrix.of f * basisMatrix.transpose := by
  ext u v
  simp only [Matrix.mul_apply, Matrix.transpose_apply, Matrix.of_apply, basisMatrix, dctReal, basis, Finset.sum_mul,
    Finset.mul_sum]
  rw [Finset.sum_comm]
  exact Finset.sum_congr rfl fun y _ => Finset.sum_congr rfl fun x _ => by ring

theorem idctReal_eq (F : Fin 8 → Fin 8 → ℝ) :
    Matrix.of (idctReal F) = basisMatrix.transpose * Matrix.of F * basisMatrix := by
  ext x y
  simp only [Matrix.mul_apply, Matrix.transpose_apply, Matrix.of_apply, basisMatrix, idctReal, basis, Finset.sum_mul,
    Finset.mul_sum]
  rw [Finset.sum_comm]
  exact Finset.sum_congr rfl fun v _ => Finset.sum_congr rfl fun u _ => by ring

/-- Settles O17: the two transforms are Bᵀ(B f Bᵀ)B with BᵀB = 1 (R122, R123). -/
theorem realTransformInverts : Obligations.RealTransformInverts := by
  intro f x y
  have hmatrix : Matrix.of (idctReal (dctReal f)) = Matrix.of f := by
    calc Matrix.of (idctReal (dctReal f))
        = (basisMatrix.transpose * basisMatrix) * Matrix.of f * (basisMatrix.transpose * basisMatrix) := by
          rw [idctReal_eq, dctReal_eq]; simp only [Matrix.mul_assoc]
      _ = Matrix.of f := by rw [basisMatrix_transpose_mul, Matrix.one_mul, Matrix.mul_one]
  exact congrFun (congrFun hmatrix x) y

/-- Settles O16: the cosine sums of all frequencies but 0 vanish (R122, R132). -/
theorem realTransformOfConstant : Obligations.RealTransformOfConstant := by
  intro c u v
  have hproduct : dctReal (fun _ _ => c) u v =
      1 / 4 * axisScale u * axisScale v * c * cosineSum u.val * cosineSum v.val := by
    rw [← sum_cosine, ← sum_cosine, dctReal, mul_assoc (_ * c), Finset.sum_mul_sum, mul_assoc _ c, Finset.mul_sum]
    simp only [Finset.mul_sum, mul_assoc]
  rw [hproduct]
  by_cases hu : u = 0
  · by_cases hv : v = 0
    · subst hu hv
      rw [if_pos ⟨rfl, rfl⟩, mul_assoc (1 / 4), axisScale_zero_sq, show ((0 : Fin 8).val : ℤ) = 0 from rfl, cosineSum_zero]
      ring
    · rw [if_neg fun h => hv h.2, cosineSum_eq_zero (by omega : ¬ (16 : ℤ) ∣ v.val), mul_zero]
  · rw [if_neg fun h => hu h.1, cosineSum_eq_zero (by omega : ¬ (16 : ℤ) ∣ u.val), mul_zero, zero_mul]

end Sys2Proof.Proofs
end

section
/-! SUPPORT. The table T against the cosine basis (R126): the seven cosines by half angles, each in a rational interval. -/

namespace Sys2Proof.Proofs

open Sys2Proof.Machine Sys2Proof.Properties

/-! ### The cosines of the multiples of π/16 -/

/-- 2·cos(nπ/16), four times the magnitude that stands for the angle n (R126). -/
noncomputable def doubledCos (n : ℕ) : ℝ := 2 * Real.cos (n * Real.pi / 16)

theorem doubledCos_reflect {n : ℕ} (hn : n ≤ 16) : doubledCos (16 - n) = -doubledCos n := by
  rw [doubledCos, doubledCos, Nat.cast_sub hn, ← mul_neg, ← Real.cos_pi_sub]
  congr 2; push_cast; ring

theorem doubledCos_turn {n : ℕ} (hn : n ≤ 32) : doubledCos (32 - n) = doubledCos n := by
  rw [doubledCos, doubledCos, Nat.cast_sub hn, ← Real.cos_two_pi_sub]
  congr 2; push_cast; ring

theorem doubledCos_mod (n : ℕ) : doubledCos (n % 32) = doubledCos n := by
  have hn : (n : ℝ) = (n % 32 : ℕ) + 32 * (n / 32 : ℕ) := by exact_mod_cast (Nat.mod_add_div n 32).symm
  rw [doubledCos, doubledCos, ← Real.cos_add_nat_mul_two_pi _ (n / 32), hn]
  congr 2; ring

theorem doubledCos_nonneg {n : ℕ} (hn : n ≤ 8) : 0 ≤ doubledCos n := by
  have hn' : (n : ℝ) ≤ 8 := by exact_mod_cast hn
  have hpi := Real.pi_pos
  refine mul_nonneg zero_le_two (Real.cos_nonneg_of_mem_Icc ⟨?_, ?_⟩)
  · have : 0 ≤ (n : ℝ) * Real.pi / 16 := by positivity
    linarith
  · nlinarith

theorem doubledCos_sq (n : ℕ) : doubledCos n ^ 2 = 2 + doubledCos (2 * n) := by
  have harg : ((2 * n : ℕ) : ℝ) * Real.pi / 16 = 2 * (n * Real.pi / 16) := by push_cast; ring
  rw [doubledCos, doubledCos, harg, Real.cos_two_mul]
  ring

theorem doubledCos_eight : doubledCos 8 = 0 := by
  have := doubledCos_reflect (n := 8) (by norm_num)
  norm_num at this
  linarith

theorem doubledCos_four : doubledCos 4 = √2 := by
  rw [doubledCos, show ((4 : ℕ) : ℝ) * Real.pi / 16 = Real.pi / 4 by push_cast; ring, Real.cos_pi_div_four]
  ring

/-- An interval for the half angle from one for the angle. -/
theorem doubledCos_halve {m n : ℕ} {a b e d : ℝ} (h : |doubledCos m - b| ≤ d) (hm : m = 2 * n) (hn : n ≤ 8)
    (hsquares : (a - e) ^ 2 ≤ 2 + (b - d) ∧ 2 + (b + d) ≤ (a + e) ^ 2) (he : 0 ≤ a + e) : |doubledCos n - a| ≤ e := by
  subst hm
  obtain ⟨hlow, hhigh⟩ := hsquares
  obtain ⟨h1, h2⟩ := abs_le.mp h
  have hsq := doubledCos_sq n
  have hnonneg := doubledCos_nonneg hn
  have hl : a - e ≤ doubledCos n := le_of_sq_le_sq (by linarith) hnonneg
  have hh : doubledCos n ≤ a + e := le_of_sq_le_sq (by linarith) he
  exact abs_le.mpr ⟨by linarith, by linarith⟩

theorem doubledCos_reflect_near {m n : ℕ} {a e : ℝ} (h : |doubledCos n - a| ≤ e) (hm : m + n = 16) :
    |doubledCos m - -a| ≤ e := by
  obtain rfl : m = 16 - n := by omega
  rwa [doubledCos_reflect (by omega), neg_sub_neg, abs_sub_comm]

theorem doubledCos_four_near : |doubledCos 4 - 1.4142135623731| ≤ 10⁻¹ ^ 13 :=
  have h8 : |doubledCos 8 - 0| ≤ 0 := by rw [doubledCos_eight, sub_zero, abs_zero]
  doubledCos_halve h8 rfl (by decide) (by norm_num) (by norm_num)

theorem doubledCos_two_near : |doubledCos 2 - 1.847759065022| ≤ 10⁻¹ ^ 12 :=
  doubledCos_halve doubledCos_four_near rfl (by decide) (by norm_num) (by norm_num)

theorem doubledCos_six_near : |doubledCos 6 - 0.765366864730| ≤ 10⁻¹ ^ 12 :=
  have h12 : |doubledCos 12 - -1.4142135623731| ≤ 10⁻¹ ^ 13 := doubledCos_reflect_near doubledCos_four_near rfl
  doubledCos_halve h12 rfl (by decide) (by norm_num) (by norm_num)

theorem doubledCos_one_near : |doubledCos 1 - 1.96157056081| ≤ 10⁻¹ ^ 11 :=
  doubledCos_halve doubledCos_two_near rfl (by decide) (by norm_num) (by norm_num)

theorem doubledCos_three_near : |doubledCos 3 - 1.66293922461| ≤ 10⁻¹ ^ 11 :=
  doubledCos_halve doubledCos_six_near rfl (by decide) (by norm_num) (by norm_num)

theorem doubledCos_five_near : |doubledCos 5 - 1.11114046604| ≤ 10⁻¹ ^ 11 :=
  have h10 : |doubledCos 10 - -0.765366864730| ≤ 10⁻¹ ^ 12 := doubledCos_reflect_near doubledCos_six_near rfl
  doubledCos_halve h10 rfl (by decide) (by norm_num) (by norm_num)

theorem doubledCos_seven_near : |doubledCos 7 - 0.39018064403| ≤ 10⁻¹ ^ 11 :=
  have h14 : |doubledCos 14 - -1.847759065022| ≤ 10⁻¹ ^ 12 := doubledCos_reflect_near doubledCos_two_near rfl
  doubledCos_halve h14 rfl (by decide) (by norm_num) (by norm_num)

/-! ### The magnitudes of the table -/

/-- The biased exponent of the magnitude for a folded angle. -/
def angleExp (n : Nat) : Nat := if n = 7 ∨ n = 9 then 123 else if n = 6 ∨ n = 10 then 124 else 125

/-- The magnitude for the angle n is within half a unit in the last place of 0.5·cos(nπ/16). -/
def RoundsCosine (n : Nat) : Prop := |(angleNum n : ℝ) / 2 ^ 26 - doubledCos n / 4| ≤ 2 ^ angleExp n / 2 ^ 151

theorem roundsCosine_of_near {n : Nat} {a e : ℝ} (h : |doubledCos n - a| ≤ e)
    (hnum : a + e ≤ 4 * ((angleNum n : ℝ) / 2 ^ 26 + 2 ^ angleExp n / 2 ^ 151) ∧
      4 * ((angleNum n : ℝ) / 2 ^ 26 - 2 ^ angleExp n / 2 ^ 151) ≤ a - e) : RoundsCosine n := by
  obtain ⟨hlow, hhigh⟩ := hnum
  obtain ⟨h1, h2⟩ := abs_le.mp h
  exact abs_le.mpr ⟨by linarith, by linarith⟩

theorem roundsCosine_le_seven {n : Nat} (h1 : 1 ≤ n) (h7 : n ≤ 7) : RoundsCosine n := by
  obtain rfl | rfl | rfl | rfl | rfl | rfl | rfl : n = 1 ∨ n = 2 ∨ n = 3 ∨ n = 4 ∨ n = 5 ∨ n = 6 ∨ n = 7 := by omega
  · exact roundsCosine_of_near doubledCos_one_near (by norm_num [angleNum, angleExp])
  · exact roundsCosine_of_near doubledCos_two_near (by norm_num [angleNum, angleExp])
  · exact roundsCosine_of_near doubledCos_three_near (by norm_num [angleNum, angleExp])
  · exact roundsCosine_of_near doubledCos_four_near (by norm_num [angleNum, angleExp])
  · exact roundsCosine_of_near doubledCos_five_near (by norm_num [angleNum, angleExp])
  · exact roundsCosine_of_near doubledCos_six_near (by norm_num [angleNum, angleExp])
  · exact roundsCosine_of_near doubledCos_seven_near (by norm_num [angleNum, angleExp])

theorem roundsCosine_reflect {n : Nat} (h1 : 1 ≤ n) (h7 : n ≤ 7) : RoundsCosine (16 - n) := by
  have hsymm : ∀ n : Fin 8, 1 ≤ n.val →
      angleNum (16 - n.val) = -angleNum n.val ∧ angleExp (16 - n.val) = angleExp n.val := by decide
  obtain ⟨hnum, hexp⟩ := hsymm ⟨n, by omega⟩ h1
  rw [RoundsCosine, hnum, hexp, doubledCos_reflect (by omega), Int.cast_neg, neg_div, neg_div, neg_sub_neg, abs_sub_comm]
  exact roundsCosine_le_seven h1 h7

/-- The basis at u, x is half the cosine of the folded angle (R122, R127). -/
theorem basis_eq (u x : Fin 8) : basis u x = doubledCos (foldedAngle u x) / 4 := by
  by_cases hu : u = 0
  · subst hu
    rw [foldedAngle, if_pos rfl, doubledCos_four, basis, axisScale, if_pos rfl, cosine]
    have hsqrt : (1 : ℝ) / √2 = √2 / 2 := by
      rw [div_eq_div_iff (by positivity) two_ne_zero, Real.mul_self_sqrt zero_le_two, one_mul]
    rw [hsqrt]
    simp
    ring
  · have hangle : basis u x = doubledCos ((2 * x.val + 1) * u.val) / 4 := by
      rw [basis, axisScale_of_ne_zero hu, cosine, doubledCos]
      push_cast; ring
    rw [hangle, ← doubledCos_mod, foldedAngle, if_neg hu]
    split
    · rw [doubledCos_turn (by omega)]
    · rfl

/-- Settles O14: each entry is the rounded cosine of its folded angle (R122, R126, R127). -/
theorem tableRoundsCosineBasis : Obligations.TableRoundsCosineBasis := by
  intro u x
  have table : ∀ u x : Fin 8, isFinite refTable[u][x] = true ∧ f32Exp refTable[u][x] = angleExp (foldedAngle u x) := by
    decide +kernel
  have folded : ∀ u x : Fin 8, 1 ≤ foldedAngle u x ∧ foldedAngle u x ≠ 8 ∧ foldedAngle u x ≤ 15 := by decide
  obtain ⟨hfinite, hexp⟩ := table u x
  obtain ⟨hpos, hne, hle⟩ := folded u x
  have hround : RoundsCosine (foldedAngle u x) := by
    by_cases h : foldedAngle u x ≤ 7
    · exact roundsCosine_le_seven hpos h
    · have hr := roundsCosine_reflect (n := 16 - foldedAngle u x) (by omega) (by omega)
      rwa [Nat.sub_sub_self (by omega)] at hr
  refine ⟨hfinite, ?_⟩
  rw [hexp, basis_eq, val_refTable]
  push_cast
  exact hround

end Sys2Proof.Proofs
end

section
/-! SUPPORT. RND is the rounding to a nearest integer (R153): the rounded magnitude as a rational number, the sign, and the
integer that everything within less than 1/2 rounds to. -/

namespace Sys2Proof.Proofs

open Sys2Proof.Machine

/-- The magnitude that is rounded is that of the numerator over the denominator. -/
theorem abs_eq_natAbs_div_den (t : Rat) : |t| = (t.num.natAbs : Rat) / t.den := by
  rw [Rat.abs_def, Rat.divInt_eq_div]; simp

theorem rnd_eq (rule : TieRule) (t : Rat) :
    rnd rule t = if t < 0 then -(roundMag rule t.num.natAbs t.den : Int) else (roundMag rule t.num.natAbs t.den : Int) := by
  simp only [rnd, Rat.num_neg]

theorem abs_roundMag_sub_le (rule : TieRule) (n d : Nat) (hd : 0 < d) :
    |(roundMag rule n d : Rat) - n / d| ≤ 1 / 2 := by
  obtain ⟨hup, hlow⟩ := roundMag_near rule n d hd
  have hpos : (0 : Rat) < d := by exact_mod_cast hd
  have hup' : 2 * (roundMag rule n d : Rat) * d ≤ 2 * n + d := by exact_mod_cast hup
  have hlow' : 2 * (n : Rat) ≤ 2 * roundMag rule n d * d + d := by exact_mod_cast hlow
  have hquot : (n : Rat) / d * d = n := div_mul_cancel₀ _ hpos.ne'
  rw [abs_le]
  constructor <;> nlinarith

/-- Half way between two integers, in rational numbers. -/
theorem roundMag_of_half (rule : TieRule) (n d : Nat) (hd : 0 < d) (h : |(roundMag rule n d : Rat) - n / d| = 1 / 2) :
    (rule = .rne → 2 ∣ roundMag rule n d) ∧ (rule = .rha → (n : Rat) / d < roundMag rule n d) := by
  have hpos : (0 : Rat) < d := by exact_mod_cast hd
  have hquot : (n : Rat) / d * d = n := div_mul_cancel₀ _ hpos.ne'
  have htie : 2 * roundMag rule n d * d = 2 * n + d ∨ 2 * n = 2 * roundMag rule n d * d + d := by
    obtain h | h := (abs_eq (by norm_num)).mp h
    · left
      have : 2 * (roundMag rule n d : Rat) * d = 2 * n + d := by linear_combination 2 * d * h + 2 * hquot
      exact_mod_cast this
    · right
      have : 2 * (n : Rat) = 2 * roundMag rule n d * d + d := by linear_combination -2 * d * h - 2 * hquot
      exact_mod_cast this
  obtain ⟨heven, haway⟩ := roundMag_tie rule n d hd htie
  refine ⟨fun hr => Nat.dvd_of_mod_eq_zero (heven hr), fun hr => ?_⟩
  rw [div_lt_iff₀ hpos]
  exact_mod_cast haway hr

/-- RND rounds the magnitude and keeps the sign, so it is as far from t as the magnitudes are apart. -/
theorem abs_rnd_sub (rule : TieRule) (t : Rat) :
    |(rnd rule t : Rat) - t| = |(roundMag rule t.num.natAbs t.den : Rat) - t.num.natAbs / t.den| := by
  rw [← abs_eq_natAbs_div_den, rnd_eq]
  by_cases ht : t < 0
  · rw [if_pos ht, abs_of_neg ht, abs_sub_comm]; push_cast; ring_nf
  · rw [if_neg ht, abs_of_nonneg (not_lt.mp ht), Int.cast_natCast]

theorem abs_rnd (rule : TieRule) (t : Rat) : |rnd rule t| = (roundMag rule t.num.natAbs t.den : Int) := by
  rw [rnd_eq]; split <;> simp

theorem abs_rnd_sub_le (rule : TieRule) (t : Rat) : |(rnd rule t : Rat) - t| ≤ 1 / 2 :=
  (abs_rnd_sub rule t).trans_le (abs_roundMag_sub_le rule _ _ t.den_pos)

/-- Settles O7: what holds of the rounded magnitude holds under the sign (R153). -/
theorem roundsToNearestInteger : Obligations.RoundsToNearestInteger := by
  refine ⟨rfl, fun rule t => ⟨abs_rnd_sub_le rule t, fun h => ?_⟩⟩
  rw [abs_rnd_sub] at h
  obtain ⟨heven, haway⟩ := roundMag_of_half rule _ _ t.den_pos h
  refine ⟨fun hr => ?_, fun hr => ?_⟩
  · rw [← dvd_abs, abs_rnd]
    exact_mod_cast heven hr
  · rw [abs_eq_natAbs_div_den, ← Int.cast_abs, abs_rnd, Int.cast_natCast]
    exact haway hr

/-- Nearer than 1/2 to an integer, either tie rule answers that integer. -/
theorem rnd_eq_of_abs_sub_lt {rule : TieRule} {t : Rat} {n : Int} (h : |t - n| < 1 / 2) : rnd rule t = n := by
  have hnear : |((rnd rule t - n : Int) : Rat)| < 1 := by
    push_cast
    calc |(rnd rule t : Rat) - n| ≤ |(rnd rule t : Rat) - t| + |t - n| := abs_sub_le _ _ _
      _ < 1 := by linarith [abs_rnd_sub_le rule t]
  exact sub_eq_zero.mp (Int.abs_lt_one_iff.mp (by exact_mod_cast hnear))

end Sys2Proof.Proofs
end

section
/-! SUPPORT. The quantization matrix (R151, R152, R155, R156): RN32 keeps the bounds that binary32 represents, so a built
matrix has its own; and a build depends on the clamped factor only. -/

namespace Sys2Proof.Proofs

open Sys2Proof.Machine Sys2Proof.Safety Sys2Proof.Properties

/-! ### RN32 and bounds -/

theorem isFinite_rn32 {r : Rat} (hlt : |r| < (2 ^ 24 - 1 / 2) * 2 ^ 104) : isFinite (rn32 r) = true := by
  obtain ⟨-, -, hbelow, -⟩ := roundsToNearestBinary32
  obtain ⟨hfin, -⟩ := hbelow r hlt
  exact hfin

/-- A representable lower bound of r is one of RN32(r): it would be nearer to r than any value below it. -/
theorem val_le_val_rn32 {r : Rat} (hlt : |r| < (2 ^ 24 - 1 / 2) * 2 ^ 104) {w : Word} (hw : isFinite w = true)
    (h : val w ≤ r) : val w ≤ val (rn32 r) := by
  have hnear := (rn32_nearest hlt hw).1
  rw [abs_of_nonpos (sub_nonpos.mpr h)] at hnear
  linarith [neg_abs_le (val (rn32 r) - r)]

/-- So is a representable upper bound. -/
theorem val_rn32_le_val {r : Rat} (hlt : |r| < (2 ^ 24 - 1 / 2) * 2 ^ 104) {w : Word} (hw : isFinite w = true)
    (h : r ≤ val w) : val (rn32 r) ≤ val w := by
  have hnear := (rn32_nearest hlt hw).1
  rw [abs_of_nonneg (sub_nonneg.mpr h)] at hnear
  linarith [le_abs_self (val (rn32 r) - r)]

/-! ### The base table and the built matrix -/

/-- The least value that Q-MIN admits, 11. -/
theorem val_leastBase : val 0x41300000#32 = 11 := by decide +kernel

/-- The greatest element of a built matrix, 15·2^20. -/
theorem val_greatestBuilt : val 0x4B700000#32 = 15 * 2 ^ 20 := by decide +kernel

theorem qbaseAdmits_iff (w : Word) : qbaseAdmits w = true ↔ isFinite w = true ∧ 11 ≤ val w ∧ val w ≤ 2 ^ 20 := by
  norm_num [qbaseAdmits, and_assoc]

theorem qbaseProperties_bcu : QbaseProperties bcu.qbase := by
  intro k
  rw [← qbaseAdmits_iff]
  simp only [bcu, qbaseOpen, Fin.getElem_fin, Vector.getElem_ofFn]
  split
  next h => exact h
  next => rw [qbaseAdmits_iff, val_leastBase]; exact ⟨rfl, le_rfl, by norm_num⟩

theorem scaledBase_getElem (c : Config) (f : Int) (k : Fin 64) :
    (scaledBase c f)[k] = rn32 (val c.qbase[k] * (f : Rat)) := by
  simp [scaledBase]

theorem scaledBase_bounds {f : Int} (h1 : 1 ≤ f) (h15 : f ≤ 15) (k : Fin 64) :
    isFinite (scaledBase bcu f)[k] = true ∧ 11 ≤ val (scaledBase bcu f)[k] ∧ val (scaledBase bcu f)[k] ≤ 15 * 2 ^ 20 := by
  obtain ⟨-, hmin, hmax⟩ := qbaseProperties_bcu k
  have hf1 : (1 : Rat) ≤ f := by exact_mod_cast h1
  have hf15 : (f : Rat) ≤ 15 := by exact_mod_cast h15
  rw [scaledBase_getElem]
  generalize val bcu.qbase[k] = b at hmin hmax ⊢
  have hlow : 11 ≤ b * f := by nlinarith
  have hhigh : b * f ≤ 15 * 2 ^ 20 := by nlinarith
  have hlt : |b * f| < (2 ^ 24 - 1 / 2) * 2 ^ 104 := by
    rw [abs_of_nonneg (by linarith)]; linarith
  refine ⟨isFinite_rn32 hlt, ?_, ?_⟩
  · rw [← val_leastBase] at hlow ⊢
    exact val_le_val_rn32 hlt rfl hlow
  · rw [← val_greatestBuilt] at hhigh ⊢
    exact val_rn32_le_val hlt rfl hhigh

/-- Settles O8: the base table by its fallback, the built matrix by the bounds that RN32 keeps (R151). -/
theorem builtMatrixIsBounded : Obligations.BuiltMatrixIsBounded :=
  ⟨qbaseProperties_bcu, fun _ h1 h15 k => scaledBase_bounds h1 h15 k⟩

/-- Once FACTOR is not 0, QM has the bounds of a built matrix (R26, R37). -/
theorem qm_bounds {s : State} (hs : MatrixInv s) (hf : s.factor ≠ 0#4) (k : Fin 64) :
    11 ≤ val s.qm.data[k] ∧ val s.qm.data[k] ≤ 15 * 2 ^ 20 := by
  have h1 : s.factor.toNat ≠ 0 := fun h => hf (BitVec.eq_of_toNat_eq h)
  have h15 : s.factor.toNat < 2 ^ 4 := s.factor.isLt
  obtain ⟨-, hbounds⟩ := scaledBase_bounds (f := s.factor.toNat) (by omega) (by omega) k
  rw [hs hf, fill_data]
  exact hbounds

theorem qm_ne_zero {s : State} (hs : MatrixInv s) (hf : s.factor ≠ 0#4) (k : Fin 64) : val s.qm.data[k] ≠ 0 := by
  obtain ⟨hmin, -⟩ := qm_bounds hs hf k
  linarith

/-! ### The builds -/

theorem exec_qbuild (s : State) : exec .qbuild s = .next (succeed (buildMatrix bcu (s32 s.factin) s)) := rfl

theorem exec_qbuildi (imm : Half) (s : State) :
    exec (.qbuildi imm) s = .next (succeed (buildMatrix bcu (s16 imm) s)) := rfl

/-- A command that builds for the requested factor n: its result and its frame (R155, R156). -/
theorem exec_build_spec {i : Instr} {n : Int} {s : State} (h : exec i s = .next (succeed (buildMatrix bcu n s))) :
    ∃ t, exec i s = .next t ∧
      (t.factor.toNat : Int) = clampf n ∧
      (∀ k : Fin 64, t.qm.data[k] = rn32 (val bcu.qbase[k] * (clampf n : Rat))) ∧
      (∀ k : Fin 64, t.qm.written[k] = true) ∧
      t = { s with qm := t.qm, factor := t.factor, status := { s.status with busy := false, done := true } } := by
  refine ⟨_, h, buildMatrix_clampedFactor bcu n s, fun k => ?_, fun k => by simp, rfl⟩
  rw [succeed_qm, buildMatrix_qm, fill_data, scaledBase_getElem]

/-- Settles O18: the build for s32(FACTIN) (R155). -/
theorem qbuildScalesBaseTable : Obligations.QbuildScalesBaseTable := fun s => exec_build_spec (exec_qbuild s)

/-- Settles O19: the build for s16(imm16) (R156). -/
theorem qbuildiScalesBaseTable : Obligations.QbuildiScalesBaseTable := fun imm s => exec_build_spec (exec_qbuildi imm s)

/-- A build reads the requested factor through its clamp only. -/
theorem buildMatrix_eq_of_clampf_eq (c : Config) {m n : Int} (h : clampf m = clampf n) (s : State) :
    buildMatrix c m s = buildMatrix c n s := by
  simp only [buildMatrix, h]

/-- Two builds agree in QM and FACTOR exactly when their clamped factors are equal: FACTOR records the clamped factor. -/
theorem buildMatrix_agree_iff (c : Config) (m n : Int) (s t : State) :
    ((buildMatrix c m s).qm = (buildMatrix c n t).qm ∧ (buildMatrix c m s).factor = (buildMatrix c n t).factor) ↔
      clampf m = clampf n := by
  refine ⟨fun ⟨_, hfactor⟩ => ?_, fun h => ?_⟩
  · rw [← buildMatrix_clampedFactor c m s, ← buildMatrix_clampedFactor c n t, hfactor]
  · simp [h]

/-- The same of two completed builds by either command. -/
theorem completedBuilds_agree_iff {i j : Instr} {m n : Int} {s t a b : State}
    (hi : exec i s = .next (succeed (buildMatrix bcu m s))) (hj : exec j t = .next (succeed (buildMatrix bcu n t)))
    (ha : exec i s = .next a) (hb : exec j t = .next b) : (a.qm = b.qm ∧ a.factor = b.factor) ↔ clampf m = clampf n := by
  obtain rfl := Host.Outcome.next.inj (ha.symm.trans hi)
  obtain rfl := Host.Outcome.next.inj (hb.symm.trans hj)
  exact buildMatrix_agree_iff bcu m n s t

/-- Settles O20: QM and FACTOR tell builds apart by their clamped factors (R159). -/
theorem factorClampLaw : Obligations.FactorClampLaw := by
  refine ⟨fun s => ⟨?_, ?_⟩, fun s t a b => ⟨fun m n ha hb => ?_, fun ha hb => ?_, fun n ha hb => ?_⟩⟩
  · rw [exec_qbuildi, exec_qbuildi, buildMatrix_eq_of_clampf_eq bcu (by decide : clampf (s16 0#16) = clampf (s16 1#16))]
  · rw [exec_qbuildi, exec_qbuildi, buildMatrix_eq_of_clampf_eq bcu (by decide : clampf (s16 99#16) = clampf (s16 15#16))]
  · exact completedBuilds_agree_iff (exec_qbuildi m s) (exec_qbuildi n t) ha hb
  · exact completedBuilds_agree_iff (exec_qbuild s) (exec_qbuild t) ha hb
  · exact completedBuilds_agree_iff (exec_qbuild s) (exec_qbuildi n t) ha hb

end Sys2Proof.Proofs
end

section
/-! SUPPORT. QUANT and DEQUANT (R154, R157, R158, R160): one element's quotient and product, the completions, and QUANT
after DEQUANT. -/

namespace Sys2Proof.Proofs

open Sys2Proof.Machine Sys2Proof.Safety

/-! ### One element -/

theorem quotient_eq {c q : Word} (hq : val q ≠ 0) : quotient c q = val c / val q := if_neg hq

theorem isFinite_of_isInf {c : Word} (h : isInf c = true) : isFinite c = false := by
  obtain ⟨hexp, -⟩ := (Bool.and_eq_true _ _).mp h
  rw [isFinite, bne, hexp, Bool.not_true]

theorem isInf_of_isFinite {c : Word} (h : isFinite c = true) : isInf c = false :=
  Bool.eq_false_iff.mpr fun hinf => by rw [isFinite_of_isInf hinf] at h; cases h

/-- An infinity is clamped to the bound of its sign (R154). -/
theorem q1_of_isInf (rule : TieRule) {c : Word} (h : isInf c = true) (q : Word) :
    q1 rule c q = (if f32Sign c then -32768 else 32767, true) := by
  rw [q1, if_pos h]; split <;> rfl

/-- Everything else by the rounded quotient (R154). -/
theorem q1_of_not_isInf {rule : TieRule} {c q : Word} {n : Int} (h : isInf c = false) (hq : val q ≠ 0)
    (hn : rnd rule (val (rn32 (val c / val q))) = n) :
    q1 rule c q = (max (-32768) (min 32767 n), decide (n < -32768 ∨ 32767 < n)) := by
  simp only [q1, h, quotient_eq hq, hn, Bool.false_eq_true, if_false]
  by_cases hhigh : n > 32767
  · rw [if_pos hhigh, min_eq_left (by omega), max_eq_right (by omega), decide_eq_true (.inr hhigh)]
  · rw [if_neg hhigh, min_eq_right (by omega)]
    by_cases hlow : n < -32768
    · rw [if_pos hlow, max_eq_left (by omega), decide_eq_true (.inl hlow)]
    · rw [if_neg hlow, max_eq_right (by omega), decide_eq_false (by omega)]

/-- The saturation bit, of every pattern. -/
theorem q1_saturates_iff (rule : TieRule) {c q : Word} (hq : val q ≠ 0) :
    (q1 rule c q).2 = true ↔ isInf c = true ∨ rnd rule (val (rn32 (val c / val q))) < -32768 ∨
      32767 < rnd rule (val (rn32 (val c / val q))) := by
  cases h : isInf c
  · simp [q1_of_not_isInf h hq rfl]
  · simp [q1_of_isInf rule h]

theorem abs_toInt_le (h : Half) : |(h.toInt : Rat)| ≤ 2 ^ 15 := by
  rw [abs_le]
  exact ⟨by exact_mod_cast BitVec.le_toInt h, by exact_mod_cast BitVec.toInt_lt.le⟩

/-- The product of R158 stays far below the overflow threshold. -/
theorem abs_product_lt (h : Half) {Q : Rat} (hQ : 11 ≤ Q ∧ Q ≤ 15 * 2 ^ 20) :
    |(h.toInt : Rat) * Q| < (2 ^ 24 - 1 / 2) * 2 ^ 104 := by
  obtain ⟨hmin, hmax⟩ := hQ
  rw [abs_mul, abs_of_nonneg (by linarith : 0 ≤ Q)]
  have := mul_le_mul (abs_toInt_le h) hmax (by linarith) (by norm_num)
  linarith

/-- R160: the rounding of the product moves the quotient by at most 2^-8. -/
theorem abs_quotient_of_product_sub_le (h : Half) {Q : Rat} (hQ : 11 ≤ Q ∧ Q ≤ 15 * 2 ^ 20) :
    |val (rn32 ((h.toInt : Rat) * Q)) / Q - h.toInt| ≤ 1 / 2 ^ 8 := by
  have hpos : 0 < Q := by linarith [hQ.1]
  have hn := abs_toInt_le h
  have herr := rn32_error (abs_product_lt h hQ)
  rw [abs_mul, abs_of_pos hpos] at herr
  have hsplit : val (rn32 ((h.toInt : Rat) * Q)) / Q - h.toInt = (val (rn32 ((h.toInt : Rat) * Q)) - h.toInt * Q) / Q := by
    field_simp
  rw [hsplit, abs_div, abs_of_pos hpos, div_le_iff₀ hpos]
  nlinarith

/-- R160: that and the rounding of the quotient together move it by less than 1/2, whichever the tie rule. -/
theorem rnd_quotient_of_product (rule : TieRule) (h : Half) {Q : Rat} (hQ : 11 ≤ Q ∧ Q ≤ 15 * 2 ^ 20) :
    rnd rule (val (rn32 (val (rn32 ((h.toInt : Rat) * Q)) / Q))) = h.toInt := by
  have hquot := abs_quotient_of_product_sub_le h hQ
  generalize val (rn32 ((h.toInt : Rat) * Q)) / Q = t at hquot ⊢
  have ht : |t| ≤ 2 ^ 15 + 1 / 2 ^ 8 := by
    linarith [abs_sub_abs_le_abs_sub t (h.toInt : Rat), abs_toInt_le h]
  have herr := rn32_error (r := t) (by linarith)
  apply rnd_eq_of_abs_sub_lt
  calc |val (rn32 t) - h.toInt| ≤ |val (rn32 t) - t| + |t - h.toInt| := abs_sub_le _ _ _
    _ < 1 / 2 := by linarith

/-- R160, one element: no clamp, and the integer that was multiplied. -/
theorem q1_product (rule : TieRule) (h : Half) {q : Word} (hq : 11 ≤ val q ∧ val q ≤ 15 * 2 ^ 20) :
    q1 rule (rn32 ((h.toInt : Rat) * val q)) q = (h.toInt, false) := by
  have hinf := isInf_of_isFinite (isFinite_rn32 (abs_product_lt h hq))
  have hlow : -32768 ≤ h.toInt := BitVec.le_toInt h
  have hhigh : h.toInt < 32768 := BitVec.toInt_lt
  rw [q1_of_not_isInf hinf (by linarith [hq.1]) (rnd_quotient_of_product rule h hq), min_eq_right (by omega),
    max_eq_right hlow, decide_eq_false (by omega)]

/-! ### The elements of a matrix -/

theorem quantized_getElem (rule : TieRule) (coef div : Mat Word) (k : Fin 64) :
    (quantized rule coef div)[k] = enc16 (q1 rule coef[k] div[k]).1 := by
  simp [quantized]

theorem dequantized_getElem (q : Mat Half) (div : Mat Word) (k : Fin 64) :
    (dequantized q div)[k] = rn32 ((q[k].toInt : Rat) * val div[k]) := by
  simp [dequantized, s16]

theorem saturates_iff (rule : TieRule) (coef div : Mat Word) :
    saturates rule coef div = true ↔ ∃ k : Fin 64, (q1 rule coef[k] div[k]).2 = true := by
  simp [saturates]

/-- R157: the element for an infinity. -/
theorem quantized_of_isInf (rule : TieRule) {coef : Mat Word} {k : Fin 64} (h : isInf coef[k] = true) (div : Mat Word) :
    (quantized rule coef div)[k].toInt = if f32Sign coef[k] then -32768 else 32767 := by
  rw [quantized_getElem, q1_of_isInf rule h]
  split <;> rfl

/-- R157: the element for a finite coefficient. -/
theorem quantized_of_isFinite (rule : TieRule) {coef div : Mat Word} {k : Fin 64} (h : isFinite coef[k] = true)
    (hdiv : val div[k] ≠ 0) :
    (quantized rule coef div)[k].toInt = max (-32768) (min 32767 (rnd rule (val (rn32 (val coef[k] / val div[k]))))) := by
  rw [quantized_getElem, q1_of_not_isInf (isInf_of_isFinite h) hdiv rfl]
  exact toInt_enc16 (by omega) (by omega)

section
variable {div : Mat Word} (hdiv : ∀ k : Fin 64, 11 ≤ val div[k] ∧ val div[k] ≤ 15 * 2 ^ 20)
include hdiv

/-- R158: every product is finite. -/
theorem isFinite_dequantized (q : Mat Half) (k : Fin 64) : isFinite (dequantized q div)[k] = true := by
  rw [dequantized_getElem]
  exact isFinite_rn32 (abs_product_lt _ (hdiv k))

/-- R160 for a matrix. -/
theorem quantized_dequantized (rule : TieRule) (q : Mat Half) : quantized rule (dequantized q div) div = q := by
  refine mat_ext fun k => ?_
  rw [quantized_getElem, dequantized_getElem, q1_product rule _ (hdiv k)]
  exact BitVec.ofInt_toInt

theorem saturates_dequantized (rule : TieRule) (q : Mat Half) : saturates rule (dequantized q div) div = false := by
  rw [Bool.eq_false_iff, ne_eq, saturates_iff]
  rintro ⟨k, hk⟩
  rw [dequantized_getElem, q1_product rule _ (hdiv k)] at hk
  cases hk

end

/-! ### The completions -/

theorem exec_dequant {s : State} (h : s.factor ≠ 0#4) :
    exec .dequant s = .next (succeed { s with cb := Bank.fill (dequantized s.qb.data s.qm.data) }) := by
  rw [exec_eq_complete, pseudocode, dequant, if_neg h]
  rfl

theorem exec_dequant_fault {s : State} (h : s.factor = 0#4) : exec .dequant s = .next (raiseFault .qminv s) := by
  rw [exec_eq_complete, pseudocode, dequant, if_pos h]
  rfl

theorem exec_quant {s : State} (h : s.factor ≠ 0#4) (hnan : ∀ k : Fin 64, isNaN s.cb.data[k] = false) :
    exec .quant s = .next (succeed { s with
      qb := Bank.fill (quantized .rne s.cb.data s.qm.data)
      status := s.status.onSaturate (saturates .rne s.cb.data s.qm.data) }) := by
  rw [exec_eq_complete, pseudocode, quant, if_neg h, (someElem_false_iff _ _).mpr hnan]
  rfl

theorem exec_quant_unbuilt {s : State} (h : s.factor = 0#4) : exec .quant s = .next (raiseFault .qminv s) := by
  rw [exec_eq_complete, pseudocode, quant, if_pos h]
  rfl

theorem exec_quant_nan {s : State} (h : s.factor ≠ 0#4) (hnan : ∃ k : Fin 64, isNaN s.cb.data[k] = true) :
    exec .quant s = .next (raiseFault .nonfin s) := by
  rw [exec_eq_complete, pseudocode, quant, if_neg h, (someElem_iff _ _).mpr hnan]
  rfl

/-- Settles O21: q1 for each element, its saturation bit for QSAT, the frame and the two faults (R154, R157). -/
theorem quantDividesRoundsClamps : Obligations.QuantDividesRoundsClamps := by
  refine fun s => ⟨fun hs hf hnan => ?_, fun hf => exec_quant_unbuilt hf, fun hf hnan => exec_quant_nan hf hnan⟩
  have hdiv := qm_ne_zero hs hf
  refine ⟨_, exec_quant hf hnan, fun k => ⟨fun h => ?_, fun h => ?_⟩, ?_, fun k => by simp, rfl⟩
  · exact quantized_of_isInf .rne h _
  · exact quantized_of_isFinite .rne h (hdiv k)
  · rw [succeed_status, Status.onSuccess_qsat, Status.onSaturate_qsat, Bool.or_eq_true, saturates_iff]
    simp only [q1_saturates_iff .rne (hdiv _)]

/-- Settles O22: the product for each element, the frame and the fault (R158). -/
theorem dequantMultiplies : Obligations.DequantMultiplies := by
  refine fun s => ⟨fun h => ⟨_, exec_dequant h, fun k => ?_, fun k => by simp, rfl⟩, fun h => exec_dequant_fault h⟩
  rw [succeed_cb, fill_data, dequantized_getElem]

/-- Settles O23: the products are far below the overflow threshold, and RN32(0) is +0 (R158). -/
theorem dequantIsFinite : Obligations.DequantIsFinite := by
  intro s t hs hf h k
  obtain rfl := Host.Outcome.next.inj (h.symm.trans (exec_dequant hf))
  rw [succeed_cb, fill_data]
  refine ⟨isFinite_dequantized (qm_bounds hs hf) _ k, fun hq => ?_⟩
  rw [dequantized_getElem, hq, BitVec.toInt_zero, Int.cast_zero, zero_mul, rn32_zero]

/-- Settles O24: each quotient of a product rounds back to the integer that was multiplied (R160). -/
theorem quantUndoesDequant : Obligations.QuantUndoesDequant := by
  intro s hs hf
  have hdiv := qm_bounds hs hf
  refine ⟨_, exec_dequant hf, rfl, rfl, fun q => ⟨_, exec_quant hf fun k => ?_, rfl, rfl, ?_, ?_⟩⟩
  · rw [accept_cb, succeed_cb, fill_data, dequantized_getElem, rn32_not_nan]
  · exact quantized_dequantized hdiv .rne s.qb.data
  · simp [saturates_dequantized hdiv]

end Sys2Proof.Proofs
end

section
/-! SUPPORT. The zigzag family (R180 to R186): the table ZZ, the two reorderings undoing each other, and the completions of
ZSCAN and ZUNSCAN. -/

namespace Sys2Proof.Proofs

open Sys2Proof.Machine Sys2Proof.Properties

/-! ### The table -/

/-- R180: 64 positions reach all 64 elements, since no two reach the same one. -/
theorem zzTable_bijective : ZzBijective zzTable :=
  (Fintype.bijective_iff_injective_and_card _).mpr ⟨zzTable_injective, by simp⟩

/-- The place of an element in the order of R182: its anti-diagonal first, then its row, counted up on an odd anti-diagonal
and down on an even one. -/
def diagonalRank (p : Fin 8 × Fin 8) : ℕ :=
  8 * (p.1.val + p.2.val) + if (p.1.val + p.2.val) % 2 = 1 then p.1.val else 7 - p.1.val

theorem order_of_diagonalRank_lt {a b : Fin 8 × Fin 8} (h : diagonalRank a < diagonalRank b) :
    a.1.val + a.2.val < b.1.val + b.2.val ∨
      (a.1.val + a.2.val = b.1.val + b.2.val ∧
        ((a.1.val + a.2.val) % 2 = 1 → a.1 < b.1) ∧ ((a.1.val + a.2.val) % 2 = 0 → b.1 < a.1)) := by
  unfold diagonalRank at h
  split_ifs at h <;> omega

/-- Each position of the table has a greater rank than the one before it. -/
theorem diagonalRank_zzTable_strictMono : StrictMono fun k : Fin 64 => diagonalRank zzTable[k] :=
  Fin.strictMono_iff_lt_succ.mpr (by decide +kernel)

/-- Settles O27: the ranks of the positions increase, and the rank is the order of R182. -/
theorem zigzagTableFollowsDiagonals : Obligations.ZigzagTableFollowsDiagonals :=
  ⟨zzTable_bijective, rfl, rfl, rfl, rfl, fun _ _ h => order_of_diagonalRank_lt (diagonalRank_zzTable_strictMono h)⟩

/-! ### The reorderings -/

theorem entry_zzTable {α : Type} (m : Mat α) (k : Fin 64) :
    entry m zzTable[k].1 zzTable[k].2 = m[zzIndex zzTable k] := rfl

section
variable {zz : Vector (Fin 8 × Fin 8) 64} (hzz : ZzBijective zz)
include hzz

/-- Every element stands at some position k, where unscan puts back what scan took from it. -/
theorem unscan_scan {α : Type} (m q : Mat α) : unscan zz (scan zz m) q = m := by
  refine mat_ext fun i => ?_
  obtain ⟨k, rfl⟩ := (zzIndex_bijective zz hzz.injective).surjective i
  rw [unscan_getElem zz hzz.injective, scan_getElem]

theorem scan_unscan {α : Type} (z m : Mat α) : scan zz (unscan zz z m) = z := by
  refine mat_ext fun k => ?_
  rw [scan_getElem, unscan_getElem zz hzz.injective]

end

/-! ### The completions -/

theorem exec_zscan (s : State) :
    exec .zscan s = .next (succeed { s with zs := Bank.fill (scan zzTable s.qb.data), zlen := 64#32 }) := rfl

theorem exec_zunscan {s : State} (h : s.zlen = 64#32) :
    exec .zunscan s = .next (succeed { s with qb := Bank.fill (unscan zzTable s.zs.data s.qb.data) }) := by
  rw [exec_eq_complete, pseudocode, zunscan, if_neg (by simp [h, u32])]
  rfl

theorem exec_zunscan_fault {s : State} (h : s.zlen ≠ 64#32) : exec .zunscan s = .next (raiseFault .zlen s) := by
  have hlen : u32 s.zlen ≠ 64 := fun e => h (BitVec.eq_of_toNat_eq e)
  rw [exec_eq_complete, pseudocode, zunscan, if_pos hlen]
  rfl

/-- Settles O25: the sequence and the frame (R183). -/
theorem zscanReordersMatrix : Obligations.ZscanReordersMatrix := by
  refine fun s => ⟨_, exec_zscan s, fun k => ?_, fun k => by simp, rfl, rfl⟩
  rw [succeed_zs, fill_data, scan_getElem, entry_zzTable]

/-- Settles O26: the matrix, the frame and the fault (R184). -/
theorem zunscanRebuildsMatrix : Obligations.ZunscanRebuildsMatrix := by
  refine fun s => ⟨fun h => ⟨_, exec_zunscan h, fun k => ?_, fun k => by simp, rfl⟩, fun h => exec_zunscan_fault h⟩
  rw [succeed_qb, fill_data, entry_zzTable, unscan_getElem zzTable zzTable_injective]

/-- Settles O28: the two reorderings undo each other, and each command reads only what the other one wrote (R186). -/
theorem zigzagLaw : Obligations.ZigzagLaw := by
  refine ⟨fun zz hzz m q => ⟨unscan_scan hzz m q, scan_unscan hzz m q⟩, fun s => ?_, fun s h => ?_⟩
  · exact ⟨_, exec_zscan s, rfl, rfl, fun q => ⟨_, exec_zunscan rfl, rfl, rfl,
      unscan_scan zzTable_bijective s.qb.data q.data⟩⟩
  · exact ⟨_, exec_zunscan h, rfl, rfl, fun z n => ⟨_, exec_zscan _, rfl, rfl,
      scan_unscan zzTable_bijective s.zs.data s.qb.data, h.symm⟩⟩

end Sys2Proof.Proofs
end

section
/-! SUPPORT. The functions enc and dec (R196 to R198): how a run begins and grows, the shape of an encoded sequence, and
enc undoing dec. -/

namespace Sys2Proof.Proofs

open Sys2Proof.Machine

/-! ### Runs -/

/-- A value other than the first one of the rest begins a run of its own. -/
theorem enc_cons_of_ne {v : Half} {z : List Half} (h : ∀ p ∈ (enc z).head?, v ≠ p.1) :
    enc (v :: z) = (v, 1) :: enc z := by
  obtain ⟨c, runs, hz, -⟩ | ⟨-, hv⟩ := enc_cons v z
  · exact absurd rfl (h (v, c) (by simp [hz]))
  · exact hv

/-- The value of the first run joins it. -/
theorem enc_cons_of_run {v : Half} {z : List Half} {c : Nat} {runs : List (Half × Nat)} (h : enc z = (v, c) :: runs) :
    enc (v :: z) = (v, c + 1) :: runs := by
  simp [enc, h]

theorem enc_replicate_append {v : Half} {z : List Half} (h : ∀ p ∈ (enc z).head?, v ≠ p.1) (n : Nat) :
    enc (List.replicate (n + 1) v ++ z) = (v, n + 1) :: enc z := by
  induction n with
  | zero => exact enc_cons_of_ne h
  | succ n ih => exact enc_cons_of_run ih

/-- The first run has the value of the first element. -/
theorem head?_enc (z : List Half) : (enc z).head?.map Prod.fst = z.head? := by
  cases z with
  | nil => rfl
  | cons v z => obtain ⟨c, runs, -, h⟩ | ⟨-, h⟩ := enc_cons v z <;> simp [h]

theorem enc_eq_nil_iff (z : List Half) : enc z = [] ↔ z = [] := by
  rw [← List.head?_eq_none_iff, ← List.head?_eq_none_iff, ← head?_enc, Option.map_eq_none_iff]

/-! ### The number of runs -/

/-- R197: every element is a run of its own exactly if no element equals the one before it. -/
theorem enc_length_eq_iff (z : List Half) : (enc z).length = z.length ↔ z.IsChain fun a b => a ≠ b := by
  induction z with
  | nil => simp [enc]
  | cons v z ih =>
    rw [List.isChain_cons, ← ih, ← head?_enc z]
    obtain ⟨c, runs, hz, h⟩ | ⟨hv, h⟩ := enc_cons v z
    · have hle : runs.length + 1 ≤ z.length := by simpa [hz] using enc_length_le z
      refine iff_of_false ?_ fun ⟨hv, _⟩ => hv v (by simp [hz]) rfl
      rw [h, List.length_cons, List.length_cons]
      omega
    · rw [h]
      simpa using fun _ => hv

/-- R197: a single run is a nonempty sequence of one value. -/
theorem enc_length_eq_one_iff (z : List Half) : (enc z).length = 1 ↔ z ≠ [] ∧ ∀ a ∈ z, ∀ b ∈ z, a = b := by
  constructor
  · intro h
    obtain ⟨⟨v, n⟩, hz⟩ := List.length_eq_one_iff.mp h
    have hrep : z = List.replicate n v := by rw [← dec_enc z, hz]; simp [dec]
    refine ⟨fun e => by simp [e, enc] at h, fun a ha b hb => ?_⟩
    rw [hrep] at ha hb
    rw [List.eq_of_mem_replicate ha, List.eq_of_mem_replicate hb]
  · rintro ⟨hne, heq⟩
    obtain ⟨v, z, rfl⟩ := List.exists_cons_of_ne_nil hne
    have hrep : v :: z = List.replicate (z.length + 1) v :=
      List.eq_replicate_iff.mpr ⟨rfl, fun b hb => heq b hb v List.mem_cons_self⟩
    rw [hrep, enc_replicate]
    rfl

/-- Settles O32: each property by recursion on the sequence (R197). -/
theorem encodedRunProperties : Obligations.EncodedRunProperties := fun z =>
  ⟨fun p hp => ⟨enc_counts_pos z p hp, enc_count_le z p hp⟩, enc_values_differ z,
    by rw [← runTotal_eq_sum, runTotal_enc], enc_length_le z,
    by rw [List.length_eq_zero_iff, List.length_eq_zero_iff, enc_eq_nil_iff], enc_length_eq_iff z,
    enc_length_eq_one_iff z⟩

/-! ### enc undoes dec -/

/-- A list of nonempty runs, neighbours of different values, is what its expansion encodes to (R202). -/
theorem enc_dec {runs : List (Half × Nat)} (pos : ∀ p ∈ runs, 1 ≤ p.2)
    (differ : runs.IsChain fun p q => p.1 ≠ q.1) : enc (dec runs) = runs := by
  induction runs with
  | nil => rfl
  | cons p runs ih =>
    obtain ⟨v, c⟩ := p
    obtain ⟨hc, hpos⟩ := List.forall_mem_cons.mp pos
    obtain ⟨hv, hdiffer⟩ := List.isChain_cons.mp differ
    have hruns := ih hpos hdiffer
    obtain ⟨n, rfl⟩ := Nat.exists_eq_add_of_le' hc
    calc enc (List.replicate (n + 1) v ++ dec runs)
        = (v, n + 1) :: enc (dec runs) := enc_replicate_append (by rwa [hruns]) n
      _ = (v, n + 1) :: runs := by rw [hruns]

theorem enc_dec_iff (runs : List (Half × Nat)) :
    enc (dec runs) = runs ↔ (∀ p ∈ runs, 1 ≤ p.2) ∧ runs.IsChain fun p q => p.1 ≠ q.1 :=
  ⟨fun h => h ▸ ⟨enc_counts_pos _, enc_values_differ _⟩, fun ⟨pos, differ⟩ => enc_dec pos differ⟩

end Sys2Proof.Proofs
end

section
/-! SUPPORT. RLENC, RLDEC and RLDECB (R199 to R204): what the banks hold of a run list, the completions, and the run-length
law on the unit. -/

namespace Sys2Proof.Proofs

open Sys2Proof.Machine

/-! ### The run list in the banks -/

theorem toNat_word_of_lt {n : Nat} (h : n < 2 ^ 32) : (BitVec.ofNat 32 n).toNat = n := by
  rw [BitVec.toNat_ofNat, Nat.mod_eq_of_lt h]

section
variable {s : State} {runs : List (Half × Nat)}

theorem writeRuns_pair {k : Fin 64} (hk : k.val < runs.length) :
    (writeRuns s runs).rlv.data[k] = runs[k.val].1 ∧ (writeRuns s runs).rlc.data[k] = BitVec.ofNat 32 runs[k.val].2 := by
  rw [writeRuns_rlv, writeRuns_rlc, fillPrefix_data_lt _ _ _ (by simpa using hk),
    fillPrefix_data_lt _ _ _ (by simpa using hk), List.getElem_map, List.getElem_map]
  exact ⟨rfl, rfl⟩

/-- R199: pairs beyond the list keep what they held. -/
theorem writeRuns_pair_beyond {k : Fin 64} (hk : runs.length ≤ k.val) :
    (writeRuns s runs).rlv.data[k] = s.rlv.data[k] ∧ (writeRuns s runs).rlc.data[k] = s.rlc.data[k] := by
  rw [writeRuns_rlv, writeRuns_rlc, fillPrefix_data_ge _ _ _ (by simpa using hk),
    fillPrefix_data_ge _ _ _ (by simpa using hk)]
  exact ⟨rfl, rfl⟩

theorem writeRuns_written (k : Fin 64) :
    (writeRuns s runs).rlv.written[k] = (decide (k.val < runs.length) || s.rlv.written[k]) ∧
    (writeRuns s runs).rlc.written[k] = (decide (k.val < runs.length) || s.rlc.written[k]) := by
  rw [writeRuns_rlv, writeRuns_rlc, fillPrefix_written, fillPrefix_written, List.length_map, List.length_map]
  exact ⟨rfl, rfl⟩

end

/-- An encoded sequence of at most 64 elements fits into the run-list banks: its pairs in number, each run-length in 32
bits. -/
theorem enc_fits {z : List Half} (h : z.length ≤ 64) : (enc z).length ≤ 64 ∧ ∀ p ∈ enc z, p.2 < 2 ^ 32 :=
  ⟨(enc_length_le z).trans h, fun p hp => by have := enc_count_le z p hp; omega⟩

theorem runTotal_heldRuns (s : State) :
    runTotal (heldRuns s) =
      (((s.rlv.data.toList.zip s.rlc.data.toList).take s.rln.toNat).map fun p => p.2.toNat).sum := by
  rw [runTotal_eq_sum, heldRuns, runList_eq_zip, List.map_map]
  rfl

theorem dec_heldRuns (s : State) :
    dec (heldRuns s) =
      ((s.rlv.data.toList.zip s.rlc.data.toList).take s.rln.toNat).flatMap fun p => List.replicate p.2.toNat p.1 := by
  rw [dec_eq_flatMap, heldRuns, runList_eq_zip, List.flatMap_map]
  rfl

/-! ### The completions -/

theorem exec_rlenc {s : State} {n : Nat} (hn : u32 s.zlen = n) (h : n ≤ 64) :
    exec .rlenc s = .next (succeed (writeRuns s (enc (sequence s.zs.data n)))) := by
  rw [exec_eq_complete, pseudocode, rlenc, hn, if_neg (Nat.not_lt.mpr h)]
  rfl

theorem exec_rlenc_fault {s : State} (h : 64 < u32 s.zlen) : exec .rlenc s = .next (raiseFault .len s) := by
  rw [exec_eq_complete, pseudocode, rlenc, if_pos h]
  rfl

theorem exec_rldec {s : State} (h : u32 s.rln ≤ 64) (sum : runTotal (heldRuns s) ≤ 64) :
    exec .rldec s = .next (succeed (writeSequence s (dec (heldRuns s)))) := by
  rw [exec_eq_complete, pseudocode, rldec, if_neg (Nat.not_lt.mpr h), if_neg (Nat.not_lt.mpr sum)]
  rfl

theorem exec_rldec_overflow {s : State} (h : u32 s.rln ≤ 64) (sum : 64 < runTotal (heldRuns s)) :
    exec .rldec s = .next (raiseFault .rlovf s) := by
  rw [exec_eq_complete, pseudocode, rldec, if_neg (Nat.not_lt.mpr h), if_pos sum]
  rfl

theorem exec_rldec_len {s : State} (h : 64 < u32 s.rln) : exec .rldec s = .next (raiseFault .len s) := by
  rw [exec_eq_complete, pseudocode, rldec, if_pos h]
  rfl

theorem exec_rldecb {s : State} (h : u32 s.rln ≤ 64) (sum : runTotal (heldRuns s) = 64) :
    exec .rldecb s = .next (succeed (writeSequence s (dec (heldRuns s)))) := by
  rw [exec_eq_complete, pseudocode, rldecb, if_neg (Nat.not_lt.mpr h), if_neg (not_not.mpr sum)]
  rfl

theorem exec_rldecb_sum {s : State} (h : u32 s.rln ≤ 64) (sum : runTotal (heldRuns s) ≠ 64) :
    exec .rldecb s = .next (raiseFault .runsum s) := by
  rw [exec_eq_complete, pseudocode, rldecb, if_neg (Nat.not_lt.mpr h), if_pos sum]
  rfl

theorem exec_rldecb_len {s : State} (h : 64 < u32 s.rln) : exec .rldecb s = .next (raiseFault .len s) := by
  rw [exec_eq_complete, pseudocode, rldecb, if_pos h]
  rfl

/-! ### The statements -/

/-- Settles O29: RLENC writes the runs of enc, which fit into the banks (R196, R199). -/
theorem rlencEncodesMaximalRuns : Obligations.RlencEncodesMaximalRuns := by
  refine fun s => ⟨fun h => ?_, fun h => exec_rlenc_fault h⟩
  have hexec := exec_rlenc (n := s.zlen.toNat) rfl h
  obtain ⟨hlen, hcount⟩ := enc_fits ((sequence_length s.zs.data _ h).trans_le h)
  set z := sequence s.zs.data s.zlen.toNat with hz
  refine ⟨_, enc z, hexec, ?_, enc_counts_pos z, enc_values_differ z, ?_, fun k hk => ?_, fun k hk => ?_, rfl⟩
  · rw [← dec_eq_flatMap, dec_enc, hz, sequence_eq_take]
  · exact toNat_word_of_lt (by omega)
  · obtain ⟨hv, hc⟩ := writeRuns_pair (s := s) hk
    obtain ⟨hwv, hwc⟩ := writeRuns_written (s := s) (runs := enc z) k
    refine ⟨hv, ?_, hwv.trans (by simp [hk]), hwc.trans (by simp [hk])⟩
    rw [succeed_rlc, hc]
    exact toNat_word_of_lt (hcount _ (List.getElem_mem hk))
  · obtain ⟨hv, hc⟩ := writeRuns_pair_beyond (s := s) hk
    obtain ⟨hwv, hwc⟩ := writeRuns_written (s := s) (runs := enc z) k
    exact ⟨hv, hc, hwv.trans (by simp [hk]), hwc.trans (by simp [hk])⟩

/-- Settles O30: the expansion of the held runs and its length, the frame and the two faults (R200). -/
theorem rldecExpandsRuns : Obligations.RldecExpandsRuns := by
  intro s pairs total expansion
  have htotal : runTotal (heldRuns s) = total := runTotal_heldRuns s
  have hexp : dec (heldRuns s) = expansion := dec_heldRuns s
  have hlen : expansion.length = total := by rw [← hexp, dec_length, htotal]
  refine ⟨fun h sum => ?_, fun h sum => exec_rldec_overflow h (htotal ▸ sum), fun h => exec_rldec_len h⟩
  refine ⟨_, exec_rldec h (htotal ▸ sum), ?_, fun k hk => ?_, fun k hk => ?_, rfl⟩
  · rw [succeed_zlen, writeSequence_zlen, hexp, hlen]
    exact toNat_word_of_lt (by omega)
  · rw [succeed_zs, writeSequence_zs, hexp, fillPrefix_written]
    exact ⟨fillPrefix_data_lt _ _ _ hk, by simp [hk]⟩
  · rw [← hlen] at hk
    rw [succeed_zs, writeSequence_zs, hexp, fillPrefix_written]
    exact ⟨fillPrefix_data_ge _ _ _ hk, by simp [hk]⟩

/-- Settles O31: an expansion of 64 elements is the whole of ZS (R201). -/
theorem rldecbExpandsBlock : Obligations.RldecbExpandsBlock := by
  intro s pairs total
  have htotal : runTotal (heldRuns s) = total := runTotal_heldRuns s
  refine ⟨fun h sum => ?_, fun h sum => exec_rldecb_sum h (htotal ▸ sum), fun h => exec_rldecb_len h⟩
  have hlen : (dec (heldRuns s)).length = 64 := by rw [dec_length, htotal, sum]
  obtain ⟨hdata, hwritten⟩ := fillPrefix_whole s.zs _ hlen
  refine ⟨_, exec_rldecb h (htotal.trans sum), hdata.trans (dec_heldRuns s), hwritten, ?_, rfl⟩
  rw [succeed_zlen, writeSequence_zlen, hlen]

/-- RLDEC after RLENC: where the run-list banks hold an encoded sequence of at most 64 elements, RLDEC writes it. -/
theorem exec_rldec_enc {s t : State} {z : List Half} (hz : z.length ≤ 64) (hrln : t.rln = (writeRuns s (enc z)).rln)
    (hruns : heldRuns t = heldRuns (writeRuns s (enc z))) : exec .rldec t = .next (succeed (writeSequence t z)) := by
  obtain ⟨hlen, hcount⟩ := enc_fits hz
  have held : heldRuns t = enc z := hruns.trans (heldRuns_writeRuns s (enc z) hlen hcount)
  have hn : u32 t.rln = (enc z).length := by rw [hrln]; exact toNat_word_of_lt (by omega)
  rw [exec_rldec (by omega) (by rwa [held, runTotal_enc]), held, dec_enc]

/-- Settles O33: dec undoes enc; RLDEC reads back the runs that RLENC wrote; enc undoes dec on lists of maximal runs
(R202). -/
theorem runLengthLaw : Obligations.RunLengthLaw := by
  refine ⟨dec_enc, rfl, rfl, rfl, enc_dec_iff, fun s h => ?_⟩
  have hlen := sequence_length s.zs.data _ h
  refine ⟨_, exec_rlenc rfl h, rfl, rfl, fun z n =>
    ⟨_, exec_rldec_enc (s := s) (hlen.trans_le h) rfl rfl, rfl, rfl, ?_, fun k hk => ?_⟩⟩
  · rw [succeed_zlen, writeSequence_zlen, hlen, BitVec.ofNat_toNat, BitVec.setWidth_eq]
  · rw [succeed_zs, writeSequence_zs, fillPrefix_data_lt _ _ _ (by rwa [hlen]), sequence_getElem]

/-! ### The runs of a block -/

/-- RLENC right after ZSCAN encodes the whole scanned matrix. -/
theorem exec_rlenc_scanned {s a : State} (h : exec .zscan s = .next a) :
    exec .rlenc a = .next (succeed (writeRuns a (enc (scan zzTable s.qb.data).toList))) := by
  have ha := Host.Outcome.next.inj (h.symm.trans (exec_zscan s))
  have hn : u32 a.zlen = 64 := by rw [ha]; rfl
  have hzs : a.zs.data = scan zzTable s.qb.data := by rw [ha, succeed_zs, fill_data]
  rw [exec_rlenc hn le_rfl, sequence_full, hzs]

/-- The pairs that ZSCAN and then RLENC leave are the runs of the scanned matrix (R204). -/
theorem exec_zscan_rlenc {s : State} {runs : List (Half × Nat)} (h : enc (scan zzTable s.qb.data).toList = runs) :
    ∃ a b, exec .zscan s = .next a ∧ exec .rlenc a = .next b ∧ b.rln = BitVec.ofNat 32 runs.length ∧
      ∀ k : Fin 64, ∀ hk : k.val < runs.length,
        b.rlv.data[k] = runs[k.val].1 ∧ b.rlc.data[k] = BitVec.ofNat 32 runs[k.val].2 := by
  obtain ⟨a, ha⟩ : ∃ a, exec .zscan s = .next a := ⟨_, exec_zscan s⟩
  have hb := exec_rlenc_scanned ha
  rw [h] at hb
  exact ⟨a, _, ha, hb, rfl, fun k hk => writeRuns_pair (s := a) hk⟩

/-- The scan begins at the DC coefficient, and reaches it nowhere else (R180). -/
theorem scan_toList_of_ac {m : Mat Half} {v w : Half} (hdc : m[0] = v) (hac : ∀ k : Fin 64, k ≠ 0 → m[k] = w) :
    (scan zzTable m).toList = v :: List.replicate 63 w := by
  refine List.ext_getElem (by simp) fun i hi _ => ?_
  rw [Vector.length_toList] at hi
  have hscan : (scan zzTable m)[i] = m[zzIndex zzTable ⟨i, hi⟩] := scan_getElem zzTable m ⟨i, hi⟩
  rw [Vector.getElem_toList, hscan]
  cases i with
  | zero => exact hdc
  | succ i =>
    have hne : zzIndex zzTable ⟨i + 1, hi⟩ ≠ zzIndex zzTable 0 :=
      (zzIndex_injective zzTable zzTable_injective).ne (by simp [Fin.ext_iff])
    rw [hac _ hne, List.getElem_cons_succ, List.getElem_replicate]

/-- Every element of the matrix is scanned. -/
theorem mem_scan (m : Mat Half) (k : Fin 64) : m[k] ∈ (scan zzTable m).toList := by
  obtain ⟨j, rfl⟩ := (zzIndex_bijective zzTable zzTable_injective).surjective k
  rw [← scan_getElem]
  exact Vector.mem_toList_iff.mpr (Vector.getElem_mem j.isLt)

/-- Settles O34: the scanned sequences are (v, 0, …, 0) and (v, v, …, v), and one run has one value (R204). -/
theorem dcOnlyBlockHasTwoRuns : Obligations.DcOnlyBlockHasTwoRuns := by
  refine ⟨fun s hdc hac => ?_, fun s v hv => ?_, fun s a b ha hb hrln k => ?_⟩
  · have hzeros : enc (List.replicate 63 0#16) = [(0#16, 63)] := enc_replicate _ 62
    have henc : enc (scan zzTable s.qb.data).toList = [(s.qb.data[0], 1), (0#16, 63)] := by
      rw [scan_toList_of_ac rfl hac, enc_cons_of_ne (by rw [hzeros]; simpa using hdc), hzeros]
    obtain ⟨a, b, ha, hb, hrln, hpair⟩ := exec_zscan_rlenc henc
    obtain ⟨hv0, hc0⟩ := hpair 0 Nat.two_pos
    obtain ⟨hv1, hc1⟩ := hpair 1 Nat.one_lt_two
    exact ⟨a, b, ha, hb, hrln, hv0, hc0, hv1, hc1⟩
  · have henc : enc (scan zzTable s.qb.data).toList = [(v, 64)] := by
      rw [scan_toList_of_ac (hv 0) fun k _ => hv k]
      exact enc_replicate v 63
    obtain ⟨a, b, ha, hb, hrln, hpair⟩ := exec_zscan_rlenc henc
    obtain ⟨hv0, hc0⟩ := hpair 0 Nat.one_pos
    exact ⟨a, b, ha, hb, hrln, hv0, hc0⟩
  · obtain rfl := Host.Outcome.next.inj ((exec_rlenc_scanned ha).symm.trans hb)
    obtain ⟨hlen, -⟩ := enc_fits (z := (scan zzTable s.qb.data).toList) (by simp)
    have hone : (enc (scan zzTable s.qb.data).toList).length = 1 :=
      (toNat_word_of_lt (by omega)).symm.trans (congrArg BitVec.toNat hrln)
    obtain ⟨-, heq⟩ := (enc_length_eq_one_iff _).mp hone
    exact heq _ (mem_scan _ k) _ (mem_scan _ 0)

end Sys2Proof.Proofs
end

section
/-! SUPPORT. ENCBLK and DECBLK (R220 to R223): each stage of the chain from the one before it, the completions, and the
four single commands that reach the same state. -/

namespace Sys2Proof.Proofs

open Sys2Proof.Machine Sys2Proof.Safety Sys2Proof.Properties

/-! ### The stages -/

/-- REF makes no NaN, so QUANT never faults on what FDCT wrote (R129). -/
theorem isNaN_refFdct {p : Mat Word} (h : AllFinite p) (k : Fin 64) : isNaN (refFdct p)[k] = false := by
  obtain ⟨hfdct, -⟩ := referenceTransformProperties
  exact hfdct p h k

/-- What ENCBLK has written before its last stage (R221). -/
def scannedBlock (s : State) : State :=
  let coef := refFdct s.pb.data
  let n := quantized .rne coef s.qm.data
  { s with
    cb := Bank.fill coef
    qb := Bank.fill n
    status := s.status.onSaturate (saturates .rne coef s.qm.data)
    zs := Bank.fill (scan zzTable n)
    zlen := 64#32 }

section
variable (s : State)

theorem scannedBlock_cb : (scannedBlock s).cb = Bank.fill (refFdct s.pb.data) := rfl

theorem scannedBlock_qb : (scannedBlock s).qb = Bank.fill (quantized .rne (scannedBlock s).cb.data s.qm.data) := rfl

theorem scannedBlock_qsat :
    (scannedBlock s).status.qsat = (s.status.qsat || saturates .rne (scannedBlock s).cb.data s.qm.data) := rfl

theorem scannedBlock_zs : (scannedBlock s).zs = Bank.fill (scan zzTable (scannedBlock s).qb.data) := rfl

/-! Of DECBLK: `decoded` is the state it writes (R222). -/

theorem decoded_zlen : (decoded bcu s).zlen = BitVec.ofNat 32 (dec (heldRuns s)).length := rfl

theorem decoded_qb : (decoded bcu s).qb = Bank.fill (unscan zzTable (decoded bcu s).zs.data s.qb.data) := rfl

theorem decoded_cb : (decoded bcu s).cb = Bank.fill (dequantized (decoded bcu s).qb.data s.qm.data) := rfl

theorem decoded_pb : (decoded bcu s).pb = Bank.fill (refIdct (decoded bcu s).cb.data) := rfl

end

/-! ### The completions -/

/-- The last stage of ENCBLK is RLENC (R221). -/
theorem exec_encblk {s : State} (hf : s.factor ≠ 0#4) (hfin : AllFinite s.pb.data) :
    exec .encblk s = exec .rlenc (scannedBlock s) := by
  rw [exec_eq_complete, pseudocode, encblk, if_neg hf, (allFinite_iff _).mp hfin]
  exact (exec_rlenc (n := 64) rfl le_rfl).symm

theorem exec_encblk_unbuilt {s : State} (hf : s.factor = 0#4) : exec .encblk s = .next (raiseFault .qminv s) := by
  rw [exec_eq_complete, pseudocode, encblk, if_pos hf]
  rfl

theorem exec_encblk_nonfin {s : State} (hf : s.factor ≠ 0#4) (hfin : ¬ AllFinite s.pb.data) :
    exec .encblk s = .next (raiseFault .nonfin s) := by
  rw [allFinite_iff, Bool.not_eq_false] at hfin
  rw [exec_eq_complete, pseudocode, encblk, if_neg hf, hfin]
  rfl

theorem exec_decblk {s : State} (hf : s.factor ≠ 0#4) (hlen : u32 s.rln ≤ 64) (hsum : runTotal (heldRuns s) = 64) :
    exec .decblk s = .next (succeed (decoded bcu s)) := by
  rw [exec_eq_complete, pseudocode, decblk, if_neg hf, if_neg (Nat.not_lt.mpr hlen), if_neg (not_not.mpr hsum)]
  rfl

theorem exec_decblk_unbuilt {s : State} (hf : s.factor = 0#4) : exec .decblk s = .next (raiseFault .qminv s) := by
  rw [exec_eq_complete, pseudocode, decblk, if_pos hf]
  rfl

theorem exec_decblk_len {s : State} (hf : s.factor ≠ 0#4) (hlen : 64 < u32 s.rln) :
    exec .decblk s = .next (raiseFault .len s) := by
  rw [exec_eq_complete, pseudocode, decblk, if_neg hf, if_pos hlen]
  rfl

theorem exec_decblk_sum {s : State} (hf : s.factor ≠ 0#4) (hlen : u32 s.rln ≤ 64) (hsum : runTotal (heldRuns s) ≠ 64) :
    exec .decblk s = .next (raiseFault .runsum s) := by
  rw [exec_eq_complete, pseudocode, decblk, if_neg hf, if_neg (Nat.not_lt.mpr hlen), if_pos hsum]
  rfl

/-- A completion that leaves ERR = 0 ran the command's pseudocode to its end: a fault entry sets ERR (R246). -/
theorem exec_without_fault {i : Instr} {s t : State} (h : exec i s = .next t) (herr : t.status.err = false) :
    pseudocode i s = .ok (outcome i s) ∧ t = succeed (outcome i s) := by
  obtain ⟨e, -, rfl⟩ | ⟨u, hu, rfl⟩ := exec_cases i s t h
  · cases herr
  · obtain rfl := pseudocode_ok i s u hu
    exact ⟨hu, rfl⟩

/-- Where ENCBLK completes without fault, no condition of R221 failed. -/
theorem encblk_without_fault {s t : State} (h : exec .encblk s = .next t) (herr : t.status.err = false) :
    s.factor ≠ 0#4 ∧ AllFinite s.pb.data ∧ t = succeed (encoded bcu s) := by
  obtain ⟨hok, ht⟩ := exec_without_fault h herr
  obtain ⟨-, hfault⟩ | ⟨-, -, hfault⟩ | ⟨hf, hfin, -⟩ := encblk_cases bcu s
  · cases hok.symm.trans hfault
  · cases hok.symm.trans hfault
  · exact ⟨hf, (allFinite_iff _).mpr hfin, ht⟩

/-- Where DECBLK completes without fault, no condition of R222 failed. -/
theorem decblk_without_fault {s t : State} (h : exec .decblk s = .next t) (herr : t.status.err = false) :
    s.factor ≠ 0#4 ∧ u32 s.rln ≤ 64 ∧ runTotal (heldRuns s) = 64 ∧ t = succeed (decoded bcu s) := by
  obtain ⟨hok, ht⟩ := exec_without_fault h herr
  obtain ⟨-, hfault⟩ | ⟨-, -, hfault⟩ | ⟨-, -, -, hfault⟩ | ⟨hf, hlen, hsum, -⟩ := decblk_cases bcu s
  · cases hok.symm.trans hfault
  · cases hok.symm.trans hfault
  · cases hok.symm.trans hfault
  · exact ⟨hf, hlen, hsum, ht⟩

/-- The expansion of a whole block sets ZLEN to 64, as ZUNSCAN asks (R201). -/
theorem outcome_rldecb_zlen {s : State} (hsum : runTotal (heldRuns s) = 64) : (outcome .rldecb s).zlen = 64#32 := by
  rw [outcome, writeSequence_zlen, dec_length, hsum]

/-! ### The statements -/

/-- Settles O35: the stages by the lemmas on their functions, the run list by the statement about RLENC (R221). -/
theorem encblkRunsChain : Obligations.EncblkRunsChain := by
  refine fun s => ⟨fun hs hf hfin => ?_, exec_encblk_unbuilt, exec_encblk_nonfin⟩
  have hdiv := qm_ne_zero hs hf
  obtain ⟨t, runs, h, hexp, hpos, hdiff, hrln, hpairs, hkept, ht⟩ := (rlencEncodesMaximalRuns (scannedBlock s)).1 le_rfl
  have hcb : t.cb = (scannedBlock s).cb := by rw [ht]
  have hqb : t.qb = (scannedBlock s).qb := by rw [ht]
  have hzs : t.zs = (scannedBlock s).zs := by rw [ht]
  have hqsat : t.status.qsat = (scannedBlock s).status.qsat := by rw [ht]
  refine ⟨t, runs, (exec_encblk hf hfin).trans h, fun u v => ?_, fun k => ?_, ?_, fun k => ?_, by rw [ht]; rfl, ?_,
    hpos, hdiff, hrln, fun k => ?_, hpairs, hkept, by rw [ht]; rfl⟩
  · rw [hcb, scannedBlock_cb, fill_data, refFdct, entry_tabulate, forwardSum_eq]
  · rw [hqb, scannedBlock_qb, hcb, fill_data]
    exact ⟨fun hk => quantized_of_isInf .rne hk _, fun hk => quantized_of_isFinite .rne hk (hdiv k)⟩
  · rw [hqsat, scannedBlock_qsat, Bool.or_eq_true, saturates_iff, hcb]
    simp only [q1_saturates_iff .rne (hdiv _)]
  · rw [hzs, hqb, scannedBlock_zs, fill_data, scan_getElem, entry_zzTable]
  · rw [hzs, hexp]
    exact List.take_of_length_le Vector.length_toList.le
  · rw [hcb, hqb, hzs, scannedBlock_cb, scannedBlock_qb, scannedBlock_zs]
    simp

/-- Settles O36: the stages by the lemmas on their functions (R222). -/
theorem decblkRunsChain : Obligations.DecblkRunsChain := by
  intro s pairs total
  have htotal : runTotal (heldRuns s) = total := runTotal_heldRuns s
  refine ⟨fun hf hlen hsum => ?_, exec_decblk_unbuilt, exec_decblk_len,
    fun hf hlen hsum => exec_decblk_sum hf hlen (htotal ▸ hsum)⟩
  have hdec : (dec (heldRuns s)).length = 64 := by rw [dec_length, htotal, hsum]
  obtain ⟨hdata, hwritten⟩ := fillPrefix_whole s.zs _ hdec
  refine ⟨_, exec_decblk hf hlen (htotal.trans hsum), hdata.trans (dec_heldRuns s), ?_, fun k => ?_, fun k => ?_,
    fun x y => ?_, fun k => ⟨hwritten k, ?_⟩, rfl⟩
  · rw [succeed_zlen, decoded_zlen, hdec]
  · rw [succeed_qb, succeed_zs, decoded_qb, fill_data, entry_zzTable, unscan_getElem zzTable zzTable_injective]
  · rw [succeed_cb, succeed_qb, decoded_cb, fill_data, dequantized_getElem]
  · rw [succeed_pb, succeed_cb, decoded_pb, fill_data, refIdct, entry_tabulate, inverseSum_eq]
  · rw [succeed_qb, succeed_cb, succeed_pb, decoded_qb, decoded_cb, decoded_pb]
    simp

/-- Settles O37: the four commands run one after the other, and the flags of acceptance and success meet (R223). -/
theorem encblkEqualsFourCommands : Obligations.EncblkEqualsFourCommands := by
  intro s t hs h herr
  obtain ⟨hf, hfin, rfl⟩ := encblk_without_fault h herr
  exact ⟨_, _, _, _, exec_fdct hfin, exec_quant hf (isNaN_refFdct hfin), exec_zscan _, exec_rlenc (n := 64) rfl le_rfl,
    hs, hs, hs, rfl⟩

/-- Settles O38: the same of DECBLK; a built matrix keeps IDCT's operands finite (R158, R223). -/
theorem decblkEqualsFourCommands : Obligations.DecblkEqualsFourCommands := by
  intro s t hinv hs h herr
  obtain ⟨hf, hlen, hsum, rfl⟩ := decblk_without_fault h herr
  exact ⟨_, _, _, _, exec_rldecb hlen hsum, exec_zunscan (outcome_rldecb_zlen hsum), exec_dequant hf,
    exec_idct (isFinite_dequantized (qm_bounds hinv hf) _), hs, hs, hs, rfl⟩

end Sys2Proof.Proofs
end

section
/-! SUPPORT. Every step has a next state and which one it is (R260, R295), the halt of a fault and the return from it
(R247, R248), and the interrupt line (R250, R251). -/

namespace Sys2Proof.Proofs

open Sys2Proof.Machine Sys2Proof.Safety

/-! ### The steps -/

theorem step_read {s : State} {a : WordOffset} {rest : List Event} (h : s.schedule = .read a :: rest) :
    step s = .next (hostRead { s with schedule := rest } a) := by rw [step, h]

theorem step_reset {s : State} {rest : List Event} (h : s.schedule = .reset :: rest) :
    step s = .next (takeReset { s with schedule := rest }) := by rw [step, h]

/-- Completion is not enabled while BUSY = 0 (R295). -/
theorem coreStep_idle {s : State} (hidle : s.status.busy = false) : coreStep s = .next s := by
  rw [coreStep, hidle]
  rfl

theorem exec_answers (i : Instr) (s : State) : ∃ t, exec i s = .next t := ⟨_, exec_eq_complete i s⟩

theorem coreStep_answers (s : State) : ∃ t, coreStep s = .next t := by
  cases hbusy : s.status.busy with
  | false => exact ⟨s, coreStep_idle hbusy⟩
  | true =>
    rw [coreStep, if_pos hbusy, completion]
    cases decode s.cmdw with
    | ok i => exact exec_answers i s
    | error _ => exact ⟨_, rfl⟩

/-- No step ends in a fault or a refusal of the model, whatever is scheduled. -/
theorem step_answers (s : State) : ∃ t, step s = .next t := by
  match h : s.schedule with
  | [] => rw [step_nil h]; exact coreStep_answers s
  | .core :: _ => rw [step_core h]; exact coreStep_answers _
  | .read _ :: _ => exact ⟨_, step_read h⟩
  | .write _ _ :: _ => exact ⟨_, step_write h⟩
  | .reset :: _ => exact ⟨_, step_reset h⟩

/-! ### The statements -/

/-- Settles O43: the step of each kind by its equation, and that there is one in every state. -/
theorem stepFollowsSchedule : Obligations.StepFollowsSchedule := fun s =>
  ⟨fun hnone hidle => (step_nil hnone).trans (coreStep_idle hidle),
    fun rest hcore hidle => (step_core hcore).trans (coreStep_idle (s := { s with schedule := rest }) hidle),
    fun _ _ hread => ⟨_, step_read hread, rfl, rfl⟩,
    fun _ _ _ hwrite => step_write hwrite,
    step_answers s⟩

/-- Settles O58: a write of CMD is refused while ERR = 1 (R247); write-1-to-clear of bit 2 clears ERR with ECODE (R248),
so the next one is accepted. -/
theorem faultHaltsUntilCleared : Obligations.FaultHaltsUntilCleared := by
  intro s d c hidle herr
  obtain ⟨hrefused, -⟩ := commandAcceptance s c hidle
  rw [hrefused herr]
  refine ⟨rfl, hidle, rfl, fun hclear => ?_⟩
  rw [memWrite_status]
  have hcleared : (s.status.writeOneToClear d).err = false := by simp [hclear]
  have hecode : (s.status.writeOneToClear d).ecode = 0#4 := by simp [hclear]
  obtain ⟨-, haccepted⟩ := commandAcceptance { s with status := s.status.writeOneToClear d } c hidle
  rw [haccepted hcleared]
  exact ⟨hcleared, hecode, rfl, rfl, rfl⟩

theorem irq_iff (s : State) : s.irq = true ↔
    (s.status.done = true ∧ s.ctrl.ieDone = true) ∨ (s.status.err = true ∧ s.ctrl.ieErr = true) := by
  simp only [State.irq, Bool.or_eq_true, Bool.and_eq_true]

/-- Settles O59: irq is the disjunction of its two enabled sources (R250), and DONE excludes ERR under the invariant
(R251). -/
theorem interruptLine : Obligations.InterruptLine := by
  refine ⟨irq_iff, fun s hs ⟨hdone, herr⟩ => ?_⟩
  obtain ⟨-, done_excludes_err, -, -⟩ := hs
  exact Bool.false_ne_true ((done_excludes_err hdone).symm.trans herr)

end Sys2Proof.Proofs
end

section
/-! SUPPORT. The completion of a pending command: by the command its word decodes to (R295, R296), within a bounded number
of steps (R297), and with E_QMINV while no matrix has been built (R281). -/

namespace Sys2Proof.Proofs

open Sys2Proof.Machine

/-! ### The core's move on a pending command -/

theorem coreStep_legal {s : State} {i : Instr} (hbusy : s.status.busy = true) (h : decode s.cmdw = .ok i) :
    coreStep s = exec i s := by
  rw [coreStep, if_pos hbusy, completion, h]

/-- Settles O41: a legal word's completion is that of its command (R296), whether the core's move is scheduled or not. -/
theorem stepRunsDecodedCommand : Obligations.StepRunsDecodedCommand := fun s _ hbusy h =>
  ⟨fun hnone => (step_nil hnone).trans (coreStep_legal hbusy h),
    fun rest hcore => (step_core hcore).trans (coreStep_legal (s := { s with schedule := rest }) hbusy h)⟩

/-- The core's move on a pending command ends it, in success or in a fault (R246, R249). -/
theorem coreStep_completes {s : State} (hbusy : s.status.busy = true) :
    ∃ t, coreStep s = .next t ∧ t.status.busy = false ∧ (t.status.done = true ∨ t.status.err = true) := by
  obtain ⟨t, h⟩ := coreStep_answers s
  refine ⟨t, h, ?_⟩
  obtain ⟨hidle, -⟩ | ⟨-, hc⟩ := coreStep_cases s t h
  · cases hbusy.symm.trans hidle
  · obtain ⟨i, -, he⟩ | ⟨-, rfl⟩ := completion_cases s t hc
    · obtain ⟨e, -, rfl⟩ | ⟨u, -, rfl⟩ := exec_cases i s t he
      · exact ⟨rfl, .inr rfl⟩
      · exact ⟨rfl, .inl rfl⟩
    · exact ⟨rfl, .inr rfl⟩

/-! ### The host's moves on a pending command -/

/-- A MemRead changes neither BUSY nor what is scheduled (R62). -/
theorem hostRead_keeps_pending (s : State) (a : WordOffset) :
    (hostRead s a).status.busy = s.status.busy ∧ (hostRead s a).schedule = s.schedule := by
  rw [hostRead]
  obtain h | ⟨-, h⟩ | ⟨-, h⟩ := memRead_cases s a <;> rw [h] <;> exact ⟨rfl, rfl⟩

/-- A MemWrite that finds a command pending leaves it pending: it reaches STATUS and CTRL, and is refused anywhere else
(R63). -/
theorem memWrite_keeps_pending {s : State} (hbusy : s.status.busy = true) (a : WordOffset) (d : Word) :
    (memWrite s a d).status.busy = true ∧ (memWrite s a d).schedule = s.schedule := by
  obtain h | h | h | ⟨hidle, -⟩ | ⟨hidle, -⟩ := memWrite_cases s a d
  · rw [h]; exact ⟨hbusy, rfl⟩
  · rw [h]; exact ⟨hbusy, rfl⟩
  · rw [h]; exact ⟨hbusy, rfl⟩
  · cases hbusy.symm.trans hidle
  · cases hbusy.symm.trans hidle

/-! ### Progress -/

/-- A step other than a reset ends a pending command, or takes a transaction off the schedule and leaves it pending. -/
theorem step_completes_or_waits {s : State} (hbusy : s.status.busy = true) (hreset : Event.reset ∉ s.schedule) :
    ∃ t, step s = .next t ∧ ((t.status.busy = false ∧ (t.status.done = true ∨ t.status.err = true)) ∨
      ∃ e, s.schedule = e :: t.schedule ∧ t.status.busy = true) := by
  match h : s.schedule with
  | [] =>
    obtain ⟨t, hstep, hended⟩ := coreStep_completes hbusy
    exact ⟨t, (step_nil h).trans hstep, .inl hended⟩
  | .core :: rest =>
    obtain ⟨t, hstep, hended⟩ := coreStep_completes (s := { s with schedule := rest }) hbusy
    exact ⟨t, (step_core h).trans hstep, .inl hended⟩
  | .read a :: rest =>
    obtain ⟨hkept, hrest⟩ := hostRead_keeps_pending { s with schedule := rest } a
    exact ⟨_, step_read h, .inr ⟨_, by rw [hrest], hkept.trans hbusy⟩⟩
  | .write a d :: rest =>
    obtain ⟨hkept, hrest⟩ := memWrite_keeps_pending (s := { s with schedule := rest }) hbusy a d
    exact ⟨_, step_write h, .inr ⟨_, by rw [hrest], hkept⟩⟩
  | .reset :: rest => exact absurd (h ▸ List.mem_cons_self) hreset

/-- Settles O44, by induction on the schedule: each transaction ahead of the core's move takes one step (R297). -/
theorem pendingCommandCompletes : Obligations.PendingCommandCompletes := by
  intro s hbusy hreset
  induction hs : s.schedule generalizing s with
  | nil =>
    obtain ⟨t, hstep, hended | ⟨e, he, -⟩⟩ := step_completes_or_waits hbusy hreset
    · exact ⟨1, t, by simp, run_succ_of_step hstep 0, hended⟩
    · cases hs.symm.trans he
  | cons e rest ih =>
    obtain ⟨t, hstep, hended | ⟨e', he, hwaits⟩⟩ := step_completes_or_waits hbusy hreset
    · exact ⟨1, t, by simp, run_succ_of_step hstep 0, hended⟩
    · obtain ⟨-, hrest⟩ := List.cons.inj (hs.symm.trans he)
      have hreset' : Event.reset ∉ t.schedule := fun hmem => hreset (he ▸ List.mem_cons_of_mem e' hmem)
      obtain ⟨n, u, hn, hrun, hended⟩ := ih t hwaits hreset' hrest.symm
      exact ⟨n + 1, u, Nat.succ_le_succ hn, (run_succ_of_step hstep n).trans hrun, hended⟩

/-! ### The matrix after reset -/

/-- Settles O46: the faults of an unbuilt matrix, and the build for the reset value of FACTIN (R42, R281). -/
theorem matrixMustBeBuiltAfterReset : Obligations.MatrixMustBeBuiltAfterReset := by
  refine ⟨rfl, fun s hf i hi => ?_, ?_⟩
  · simp only [List.mem_cons, List.not_mem_nil, or_false] at hi
    obtain rfl | rfl | rfl | rfl := hi
    · exact exec_quant_unbuilt hf
    · exact exec_dequant_fault hf
    · exact exec_encblk_unbuilt hf
    · exact exec_decblk_unbuilt hf
  · have hclamp : clampf (s32 State.reset.factin) = 5 := by decide
    refine ⟨_, exec_qbuild State.reset, rfl, ?_, fun k => ?_⟩
    · rw [succeed_factor, buildMatrix_factor, hclamp]
      rfl
    · rw [succeed_qm, buildMatrix_qm, fill_data, scaledBase_getElem, hclamp, Int.cast_ofNat]

end Sys2Proof.Proofs
end
